-- ==== Sys2Proof/Word.lean ====
section
/-! DEFINITION. The value types of the block: bytes, byte strings, 16-byte blocks, 4-byte schedule words. -/

namespace Sys2Proof

/-- A byte: an unsigned 8-bit value (00_scope.md R11); bit 7 is the most significant (R12). -/
abbrev Byte := BitVec 8

/-- A byte string; index 0 is its first, leftmost byte (00_scope.md R11). -/
abbrev Bytes := List Byte

/-- A block: a byte string of length exactly 16, the length carried by the type (00_scope.md R11, 10_state.md R27). -/
abbrev Block := Vector Byte 16

/-- A word of the key schedule: 4 bytes (10_state.md R26). -/
abbrev Word := Vector Byte 4

/-- The round-key file: eleven blocks `RK[0]` to `RK[10]` (10_state.md R26). -/
abbrev Schedule := Vector Block 11

/-- `0^16`, the all-zero block (00_scope.md R11). -/
def zeroBlock : Block := #v[0, 0, 0, 0, 0, 0, 0, 0, 0, 0, 0, 0, 0, 0, 0, 0]

/-- `a ⊕ b` on two byte strings of the same fixed length, byte by byte (00_scope.md R13). -/
def xorVec {n : Nat} (a b : Vector Byte n) : Vector Byte n :=
  Vector.ofFn fun i => a[i] ^^^ b[i]

end Sys2Proof
end

