-- ==== Sys2Proof/Syntax.lean ====
section
/-! DEFINITION. The fourteen operations, the operand slots and the command the host presents (30_encoding.md). -/

namespace Sys2Proof

/-- The fourteen operations of 30_encoding.md R82, one constructor per row of `spec/opcode_table.json`.
The command word holds the operation code only: an operation's operands are slots (R80), not fields. -/
inductive Instr where
  | keyexp
  | encblk
  | decblk
  | pad
  | unpad
  | cbcenc
  | cbcdec
  | ctrxfrm
  | gfmul
  | ghash
  | taggen
  | tagcmp
  | gcmenc
  | gcmdec
  deriving DecidableEq, Repr

/-- The six operand slots of the command format (30_encoding.md R80). -/
inductive Slot where
  | pKey
  | pNonce
  | pA
  | pB
  | aad
  | data
  deriving DecidableEq, Repr

/-- The command tuple `(OP, P_KEY, P_NONCE, P_A, P_B, AAD, DATA)` (10_state.md R21, 30_encoding.md R80).
A register slot may hold no value; an operation ignores the slots it does not read (R83). -/
structure Command where
  op : Byte
  pKey : Option Bytes
  pNonce : Option Bytes
  pA : Option Block
  pB : Option Block
  aad : Bytes
  data : Bytes
  deriving DecidableEq, Repr

end Sys2Proof
end

