-- ==== Sys2Proof/Decode.lean ====
section
/-! DEFINITION. The operation map: decoding a command word, encoding an operation, the slots each operation reads. -/

namespace Sys2Proof

/-- Why bytes are no command word. -/
inductive DecodeReject where
  /-- There is no byte. -/
  | noCommandWord
  /-- The operation code is reserved (30_encoding.md R96). -/
  | reservedCode (op : Byte)
  deriving DecidableEq, Repr

/-- The operation that the code `OP` selects (30_encoding.md R82); a reserved code selects none (R96). -/
def decodeOp (op : Byte) : Option Instr :=
  match op.toNat with
  | 0x01 => some .keyexp
  | 0x02 => some .encblk
  | 0x03 => some .decblk
  | 0x04 => some .pad
  | 0x05 => some .unpad
  | 0x06 => some .cbcenc
  | 0x07 => some .cbcdec
  | 0x08 => some .ctrxfrm
  | 0x09 => some .gfmul
  | 0x0A => some .ghash
  | 0x0B => some .taggen
  | 0x0C => some .tagcmp
  | 0x0D => some .gcmenc
  | 0x0E => some .gcmdec
  | _ => none

/-- Decoding, total on any bytes: the first byte is the command word, `OP` in its bits 7:0 (30_encoding.md R80);
only `OP` selects the operation. The bytes after it come back undecoded. -/
def decode : Bytes → Except DecodeReject (Instr × Bytes)
  | [] => .error .noCommandWord
  | op :: rest =>
    match decodeOp op with
    | some i => .ok (i, rest)
    | none => .error (.reservedCode op)

/-- The code of an operation (30_encoding.md R82). -/
def encodeOp : Instr → Byte
  | .keyexp => 0x01
  | .encblk => 0x02
  | .decblk => 0x03
  | .pad => 0x04
  | .unpad => 0x05
  | .cbcenc => 0x06
  | .cbcdec => 0x07
  | .ctrxfrm => 0x08
  | .gfmul => 0x09
  | .ghash => 0x0A
  | .taggen => 0x0B
  | .tagcmp => 0x0C
  | .gcmenc => 0x0D
  | .gcmdec => 0x0E

/-- The command word of an operation: one byte (30_encoding.md R80). -/
def encode (i : Instr) : Bytes := [encodeOp i]

/-- The slots each operation reads, in the order of the columns of 30_encoding.md R83. -/
def slotsRead : Instr → List Slot
  | .keyexp => [.pKey]
  | .encblk => [.pKey, .pA]
  | .decblk => [.pKey, .pA]
  | .pad => [.data]
  | .unpad => [.data]
  | .cbcenc => [.pKey, .pA, .data]
  | .cbcdec => [.pKey, .pA, .data]
  | .ctrxfrm => [.pKey, .pA, .data]
  | .gfmul => [.pA, .pB]
  | .ghash => [.pA, .aad, .data]
  | .taggen => [.pKey, .pNonce, .aad, .data]
  | .tagcmp => [.pA, .pB]
  | .gcmenc => [.pKey, .pNonce, .aad, .data]
  | .gcmdec => [.pKey, .pNonce, .aad, .data]

/-- The bytes of a table word of `nbits` bits, first byte first: the bits from `nbits` up are taken as 0,
and at least one byte, the command word's own length, is laid out. -/
def tableWordBytes (nbits w : Nat) : Bytes :=
  (List.range (max 1 ((nbits + 7) / 8))).map fun k => BitVec.ofNat 8 (w % 2 ^ nbits / 256 ^ k)

/-- The instruction the decoder reads from a table word; none where it refuses, or where bytes are left over
(every command word is one byte, 30_encoding.md R80). -/
def decodeTableWord (nbits w : Nat) : Option Instr :=
  match decode (tableWordBytes nbits w) with
  | .ok (i, []) => some i
  | .ok (_, _ :: _) => none
  | .error _ => none

end Sys2Proof
end

