-- ==== Sys2Proof/Config.lean ====
section
/-! DEFINITION. The parameters of the block: the fixed ones (00_scope.md R9) and the two the spec leaves open (R10). -/

namespace Sys2Proof

/-- `CTR_FIELD_BITS`: the width of the counter field that CTRXFRM increments; 32, or 128 as the only
other value (43_ctr.md R176). -/
inductive CtrFieldBits where
  | w32
  | w128
  deriving DecidableEq, Repr

/-- The width in bits, `W`. -/
def CtrFieldBits.bits : CtrFieldBits → Nat
  | .w32 => 32
  | .w128 => 128

/-- The width in bytes, `n = W / 8` (43_ctr.md R177). -/
def CtrFieldBits.bytes : CtrFieldBits → Nat
  | .w32 => 4
  | .w128 => 16

/-- `WRAP_POLICY`: what a call does whose counter field would pass its top (43_ctr.md R183). -/
inductive WrapPolicy where
  /-- The field is taken modulo 2^W; the default. -/
  | wrap
  /-- The call has no meaning. -/
  | refuse
  deriving DecidableEq, Repr

namespace Config

/-- `CTR_FIELD_BITS` of this machine: 32, the value the spec takes (00_scope.md R10, 90_conflicts.md C1; log 3). -/
def ctrFieldBits : CtrFieldBits := .w32

/-- `WRAP_POLICY` of this machine: `wrap`, the value the spec takes (00_scope.md R10, 90_conflicts.md C2; log 4). -/
def wrapPolicy : WrapPolicy := .wrap

/-- `MAX_LEN_BYTES = 2^61 - 1` (00_scope.md R10, 20_memory.md R53). -/
abbrev maxLenBytes : Nat := 2 ^ 61 - 1

/-- `MAX_BLOCKS = 2^32`, the bound on the chunks of one call (00_scope.md R9, 43_ctr.md R181). -/
abbrev maxBlocks : Nat := 2 ^ 32

/-- `KEY_BYTES = 16` (00_scope.md R9). -/
abbrev keyBytes : Nat := 16

/-- `NONCE_BYTES = 12` (00_scope.md R9). -/
abbrev nonceBytes : Nat := 12

/-- `TAG_BYTES = 16` (00_scope.md R9). -/
abbrev tagBytes : Nat := 16

/-- `PAD_BLOCK = 16`, the block size `B` of the padding helper (00_scope.md R9, 41_padding.md R151). -/
abbrev padBlock : Nat := 16

end Config

end Sys2Proof
end

