-- ==== Sys2Proof/Machine/State.lean ====
section
/-! DEFINITION. The state of the block (10_state.md), the reasons a step can stop, and the state after reset. -/

namespace Sys2Proof.Machine

/-- `STATUS` (10_state.md R21, R22). The reserved value 3 is never written and is not in the type. -/
inductive Status where
  /-- No operation has completed since reset. -/
  | idle
  /-- The last operation completed and `OUT` holds its whole result. -/
  | ok
  /-- The last operation ended with the error in `ERR`. -/
  | error
  deriving DecidableEq, Repr

/-- The seven errors of 60_exceptions.md R235. -/
inductive Err where
  | invalidKeyLength
  | invalidNonceLength
  | invalidCiphertextLength
  | ciphertextTooShort
  | invalidPadding
  | counterOverflow
  | authenticationFailed
  deriving DecidableEq, Repr

/-- `PHASE` (10_state.md R24): `IDLE` outside an operation, inside one the step in progress, under the names that
the operations' own rules list. -/
inductive Phase where
  | idle
  | len
  | keychk
  | noncechk
  | keyexp
  | rounds
  | pad
  | unpad
  | chain
  | count
  | ctr
  | mul
  | hash
  | subkey
  | j0
  | mask
  | tag
  | compare
  | commit
  deriving DecidableEq, Repr

/-- The registers that can hold no value (00_scope.md R16, 10_state.md R33). -/
inductive Reg where
  | P_KEY
  | P_NONCE
  | P_A
  | P_B
  | KEY
  | RK
  | S
  | CHAIN
  | CB
  | KS
  | H
  | ACC
  | V
  | Z
  | J0
  | MASK
  | TAG
  | DIFF
  | PBUF
  | RBUF
  deriving DecidableEq, Repr

/-- A fault of the model. -/
inductive Fault where
  /-- A register that holds no value was read: "a model gives such a read no meaning (a fault of the model, not a
  value), never zero" (00_scope.md R16). Raised where an operation reads an operand slot that its command does not
  carry (70_reset_and_hazards.md R272); no working register ever raises it (R270). Safe: the machine stops where the
  spec gives no meaning. -/
  | noValue (r : Reg)
  deriving DecidableEq, Repr

/-- A command that has no meaning (00_scope.md R18 "Refuse"). -/
inductive Refusal where
  /-- The instruction has no meaning in this model yet. Raised by `exec`'s refused arms only (there is none). Safe. -/
  | notModelled (mnemonic : String)
  /-- `OP` is 0x00 or 0x0F to 0xFF (30_encoding.md R96). Raised by `step`. Safe. -/
  | reservedCode (op : Byte)
  /-- A buffer that the operation reads is longer than `MAX_LEN_BYTES` (20_memory.md R53). Raised at issue. Safe. -/
  | bufferTooLong (b : Slot)
  /-- The counter field would pass its top under `WRAP_POLICY = refuse` (43_ctr.md R183, 45_gcm.md R217). Raised by
  CTRXFRM, GCMENC and GCMDEC under that policy only, which is not this machine's. Safe. -/
  | counterWraps
  /-- A command is issued while an operation is in progress, which the host has no move for
  (70_reset_and_hazards.md R273, 92_eei_decisions.md D27). Raised by `step`. Safe. -/
  | operationInProgress (p : Phase)
  deriving DecidableEq, Repr

/-- The three byte-addressed spaces, each a byte string addressed by offset from its own start (20_memory.md R50, R52). -/
structure Memory where
  /-- Additional authenticated data: read-only to the core. -/
  AAD : Bytes
  /-- The data buffer: read-only to the core. -/
  DATA : Bytes
  /-- The result: write-only to the core, written at the end of an operation. -/
  OUT : Bytes
  deriving DecidableEq, Repr

/-- The state of the block. `none` is the spec's "no value" (00_scope.md R16). -/
structure State where
  -- command-interface registers (10_state.md R21)
  OP : Option Byte
  P_KEY : Option Bytes
  P_NONCE : Option Bytes
  P_A : Option Block
  P_B : Option Block
  STATUS : Status
  /-- `none` is the code 0x00, no error; `some e` the code of `e` (10_state.md R23, 60_exceptions.md R235). -/
  ERR : Option Err
  -- host buffers (20_memory.md R50)
  mem : Memory
  -- sequencing state (10_state.md R24)
  PHASE : Phase
  BLK : Option (BitVec 33)
  -- working registers (10_state.md R25)
  KEY : Option Block
  /-- The round-key file `RK[0]` to `RK[10]`; the words `W[0]` to `W[43]` are a view of it (10_state.md R26). -/
  RK : Option Schedule
  S : Option Block
  CHAIN : Option Block
  CB : Option Block
  KS : Option Block
  H : Option Block
  ACC : Option Block
  V : Option Block
  Z : Option Block
  J0 : Option Block
  MASK : Option Block
  TAG : Option Block
  DIFF : Option Byte
  /-- The model's own: the byte string a loop reads that is not a host buffer (log 6). -/
  PBUF : Option Bytes
  /-- The model's own: the private place where result bytes are collected (20_memory.md R65; log 6). -/
  RBUF : Option Bytes
  deriving DecidableEq, Repr

/-- The state after reset (10_state.md R33, 70_reset_and_hazards.md R270). The contents of the host's own buffers
`AAD` and `DATA`, which reset does not touch, are the model's choice here: empty (log 5, DESIGN CHOICE). -/
def State.reset : State where
  OP := none
  P_KEY := none
  P_NONCE := none
  P_A := none
  P_B := none
  STATUS := .idle
  ERR := none
  mem := { AAD := [], DATA := [], OUT := [] }
  PHASE := .idle
  BLK := none
  KEY := none
  RK := none
  S := none
  CHAIN := none
  CB := none
  KS := none
  H := none
  ACC := none
  V := none
  Z := none
  J0 := none
  MASK := none
  TAG := none
  DIFF := none
  PBUF := none
  RBUF := none

end Sys2Proof.Machine
end

