-- ==== Sys2Proof/Machine/Flags.lean ====
section
/-! DEFINITION. The codes of `STATUS` and `ERR`, and the one flag-like register, `DIFF` (10_state.md R28). The block
has no condition code and no arithmetic flag. -/

namespace Sys2Proof.Machine

/-- The 2-bit code of `STATUS` (10_state.md R21). -/
def statusCode : Status → BitVec 2
  | .idle => 0
  | .ok => 1
  | .error => 2

/-- The 8-bit code of `ERR` (60_exceptions.md R235). -/
def errCode : Option Err → Byte
  | none => 0x00
  | some .invalidKeyLength => 0x01
  | some .invalidNonceLength => 0x02
  | some .invalidCiphertextLength => 0x03
  | some .ciphertextTooShort => 0x04
  | some .invalidPadding => 0x05
  | some .counterOverflow => 0x06
  | some .authenticationFailed => 0x07

/-- `DIFF` after the loop of `TagCmp(a, b)`: sixteen steps always, with no early exit, each or-ing in
`a[i] ⊕ b[i]` (45_gcm.md R213). -/
def tagDiff (a b : Block) : Byte :=
  (List.finRange 16).foldl (fun diff i => diff ||| (a[i] ^^^ b[i])) 0x00

/-- `TagCmp(a, b)` is a match when `DIFF` is zero; the result is computed from `DIFF` alone (45_gcm.md R213). -/
def tagMatches (diff : Byte) : Bool := diff == 0x00

end Sys2Proof.Machine
end

