-- ==== Sys2Proof/Machine/Ops.lean ====
section
/-! DEFINITION. The shared operations: byte strings and buffers, reading registers, the stages of an operation and
running them, issue, release, error entry, and reset. -/

namespace Sys2Proof.Machine

/-! ### Byte strings -/

/-- `int_be(b)`: the natural that `b` encodes big-endian (00_scope.md R13). -/
def intBe (b : Bytes) : Nat := b.foldl (fun v x => 256 * v + x.toNat) 0

/-- `be_n(v)`: the `n`-byte big-endian encoding of `v`, most significant byte first (00_scope.md R13). -/
def be : Nat → Nat → Bytes
  | 0, _ => []
  | n + 1, v => be n (v / 256) ++ [BitVec.ofNat 8 v]

/-- The block whose bytes are `b`, followed by zeros where `b` is shorter: `b ‖ 0^(16 - len(b))` (20_memory.md R60).
For a `b` of 16 bytes it is `b` itself. -/
def blockOf (b : Bytes) : Block := Vector.ofFn fun i => b.getD i.val 0

/-- `a ⊕ b[: len(a)]` for a chunk `a` and a keystream block at least as long: the longer one's further bytes are
discarded (43_ctr.md R179). -/
def xorBytes (a b : Bytes) : Bytes := List.zipWith (· ^^^ ·) a b

/-- The words a key or block is read as: word `j` is bytes `4j` to `4j+3` (10_state.md R26, 40_block_cipher.md R125). -/
def wordOf (b : Block) (j : Fin 4) : Word := Vector.ofFn fun k => b[4 * j.val + k.val]

/-- The block made of four words, `W[4r] ‖ W[4r+1] ‖ W[4r+2] ‖ W[4r+3]` (40_block_cipher.md R125). -/
def blockOfWords (w : Fin 4 → Word) : Block :=
  Vector.ofFn fun i => (w ⟨i.val / 4, by omega⟩)[i.val % 4]

/-- The word view of the round-key file: `W[4r+j] = RK[r][4j : 4j+4]` (10_state.md R26). -/
def scheduleWord (rk : Schedule) (i : Fin 44) : Word :=
  wordOf rk[i.val / 4] ⟨i.val % 4, by omega⟩

/-! ### Buffers -/

/-- `MemRead(buf, off, n)`: bytes `off` to `off+n-1` (00_scope.md R14). Every access of the model has
`off + n ≤ len(buf)`. -/
def memRead (buf : Bytes) (off n : Nat) : Bytes := (buf.drop off).take n

/-- `MemWrite(buf, off, n, v)`: the `n = len(v)` bytes `v` at offset `off` (00_scope.md R14). -/
def memWrite (buf : Bytes) (off : Nat) (v : Bytes) : Bytes :=
  buf.take off ++ v ++ buf.drop (off + v.length)

/-- `nchunks` of a buffer of `len` bytes: `ceil(len / 16)` (20_memory.md R59). -/
def nchunks (len : Nat) : Nat := (len + 15) / 16

/-- `Chunk(buf, j)` (20_memory.md R59). -/
def chunk (buf : Bytes) (j : Nat) : Bytes := memRead buf (16 * j) (min 16 (buf.length - 16 * j))

/-- The chunks of a buffer, in ascending order (20_memory.md R59). -/
def chunks (buf : Bytes) : List Bytes := (List.range (nchunks buf.length)).map (chunk buf)

/-- The buffers the host owns are within their legal lengths (10_state.md R21, 20_memory.md R53). A buffer is a dense
byte string, so it has one representation only. -/
def Memory.wf (m : Memory) : Bool :=
  decide (m.AAD.length ≤ Config.maxLenBytes) && decide (m.DATA.length ≤ Config.maxLenBytes)

/-- `OUT` is made anew for each operation, distinct from every input buffer (20_memory.md R67). -/
def Memory.freshOut (m : Memory) : Memory := { m with OUT := [] }

/-- The whole result is written to a fresh `OUT` at once (20_memory.md R65, R67). -/
def Memory.writeOut (m : Memory) (out : Bytes) : Memory := { m with OUT := memWrite [] 0 out }

/-! ### Results of a step inside an operation -/

/-- What a step inside an operation answers: a value, an error raised (00_scope.md R14 `raise`), or a stop. -/
inductive Res (α : Type) where
  | val (a : α)
  | raise (e : Err)
  | fault (f : Fault)
  | refused (r : Refusal)

/-- The value handed on; anything else ends the step. -/
def Res.bind {α β : Type} (x : Res α) (k : α → Res β) : Res β :=
  match x with
  | .val a => k a
  | .raise e => .raise e
  | .fault f => .fault f
  | .refused r => .refused r

/-- Reading a register: one that holds no value is a fault, never zero (00_scope.md R16). -/
def need {α : Type} (r : Reg) (v : Option α) : Res α :=
  match v with
  | some a => .val a
  | none => .fault (.noValue r)

/-! ### The stages of an operation -/

/-- One stage of an operation, in its phase: a single act, or a loop over chunks (10_state.md R24). -/
inductive Stage where
  | act (p : Phase) (f : State → Res State)
  | each (p : Phase) (items : State → Res (List Bytes)) (f : Bytes → State → Res State)

/-- The phase a stage runs in. -/
def Stage.phase : Stage → Phase
  | .act p _ => p
  | .each p _ _ => p

/-- An operation: its stages in the order its rule lists them, and the result it returns at `COMMIT`. -/
structure Operation where
  stages : List Stage
  result : State → Res Bytes

/-- How a run of stages ends: all done, an error raised in a state, or a stop. -/
inductive Run where
  | done (s : State)
  | raised (e : Err) (s : State)
  | fault (f : Fault)
  | refused (r : Refusal)

/-- `BLK` advances by 1 per chunk (10_state.md R24). -/
def advanceBlk (s : State) : State := { s with BLK := s.BLK.map (· + 1) }

/-- The loop of a stage: one chunk after another, in ascending order (20_memory.md R59). -/
def runEach (f : Bytes → State → Res State) : List Bytes → State → Run
  | [], s => .done s
  | c :: cs, s =>
    match f c s with
    | .val t => runEach f cs (advanceBlk t)
    | .raise e => .raised e s
    | .fault r => .fault r
    | .refused r => .refused r

/-- `PHASE <- p`, the entry to a stage. -/
def enterPhase (p : Phase) (s : State) : State := { s with PHASE := p }

/-- Entry to a loop: `BLK` is reset to 0 (10_state.md R24). -/
def enterLoop (p : Phase) (s : State) : State := { s with PHASE := p, BLK := some 0 }

/-- Running one stage. -/
def Stage.run : Stage → State → Run
  | .act p f, s =>
    match f (enterPhase p s) with
    | .val t => .done t
    | .raise e => .raised e (enterPhase p s)
    | .fault r => .fault r
    | .refused r => .refused r
  | .each p items f, s =>
    match items (enterLoop p s) with
    | .val l => runEach f l (enterLoop p s)
    | .raise e => .raised e (enterLoop p s)
    | .fault r => .fault r
    | .refused r => .refused r

/-- Running the stages in their order; the first error ends the run (60_exceptions.md R238, R240). -/
def runStages : List Stage → State → Run
  | [], s => .done s
  | g :: gs, s =>
    match g.run s with
    | .done t => runStages gs t
    | .raised e t => .raised e t
    | .fault r => .fault r
    | .refused r => .refused r

/-! ### Issue, release, error entry, reset -/

/-- Every working register takes no value and `PHASE` is `IDLE` (10_state.md R30, R34). -/
def State.clearWorking (s : State) : State :=
  { s with
    PHASE := .idle, BLK := none, KEY := none, RK := none, S := none, CHAIN := none, CB := none, KS := none,
    H := none, ACC := none, V := none, Z := none, J0 := none, MASK := none, TAG := none, DIFF := none,
    PBUF := none, RBUF := none }

/-- A slot at issue: a buffer must not be longer than `MAX_LEN_BYTES` (20_memory.md R53; log 11). A register slot is not
looked at here but where the operation's rule reads it, so an error tested before that is reported (60_exceptions.md
R236, R238). -/
def admitSlot (s : State) : Slot → Res Unit
  | .pKey => .val ()
  | .pNonce => .val ()
  | .pA => .val ()
  | .pB => .val ()
  | .aad => if s.mem.AAD.length ≤ Config.maxLenBytes then .val () else .refused (.bufferTooLong .aad)
  | .data => if s.mem.DATA.length ≤ Config.maxLenBytes then .val () else .refused (.bufferTooLong .data)

/-- The slots are looked at in the order of the command format (30_encoding.md R80; log 11). -/
def admitSlots (s : State) : List Slot → Res Unit
  | [] => .val ()
  | k :: ks => (admitSlot s k).bind fun _ => admitSlots s ks

/-- The start of an operation: no working register holds a value (10_state.md R30) and `OUT` shows nothing of the
operation (20_memory.md R65, 45_gcm.md R222; log 12). -/
def begin (s : State) : State := { s.clearWorking with mem := s.mem.freshOut }

/-- Release: `STATUS <- OK`, `ERR` is 0x00, the whole result in `OUT` at once, the working registers gone
(20_memory.md R65, 10_state.md R34). -/
def release (out : Bytes) (s : State) : State :=
  { s.clearWorking with STATUS := .ok, ERR := none, mem := s.mem.writeOut out }

/-- Error entry: `STATUS <- ERROR`, `ERR <-` the code, `OUT <-` empty, `PHASE <- IDLE`, every working register takes
no value (60_exceptions.md R240). There is no return operation: the block is ready for the next command (R241). -/
def enterError (e : Err) (s : State) : State :=
  { s.clearWorking with STATUS := .error, ERR := some e, mem := s.mem.freshOut }

/-- The end of an operation whose stages are done: phase `COMMIT`. -/
def commit (result : State → Res Bytes) (s : State) : Host.Outcome State Fault Refusal :=
  match result (enterPhase .commit s) with
  | .val out => .next (release out s)
  | .raise e => .next (enterError e s)
  | .fault f => .fault f
  | .refused r => .refused r

/-- The whole operation, from the command at issue to its result (00_scope.md R8, 60_exceptions.md R240). -/
def runOperation (slots : List Slot) (o : Operation) (s : State) : Host.Outcome State Fault Refusal :=
  match admitSlots s slots with
  | .val () =>
    match runStages o.stages (begin s) with
    | .done t => commit o.result t
    | .raised e t => .next (enterError e t)
    | .fault f => .fault f
    | .refused r => .refused r
  | .raise e => .next (enterError e s)
  | .fault f => .fault f
  | .refused r => .refused r

/-- Reset, also with an operation in progress: the operation is abandoned, nothing is released, the host's buffers
are not touched (70_reset_and_hazards.md R270, R271, 10_state.md R33). -/
def applyReset (s : State) : State :=
  { State.reset with mem := { AAD := s.mem.AAD, DATA := s.mem.DATA, OUT := [] } }

/-! ### The states an operation passes through (for statements about phases) -/

/-- The states after each chunk of a loop. -/
def eachStates (f : Bytes → State → Res State) : List Bytes → State → List State
  | [], _ => []
  | c :: cs, s =>
    match f c s with
    | .val t => advanceBlk t :: eachStates f cs (advanceBlk t)
    | .raise _ => []
    | .fault _ => []
    | .refused _ => []

/-- The states of a stage: on entry, and after each of its steps. -/
def Stage.states : Stage → State → List State
  | .act p f, s =>
    enterPhase p s ::
      match f (enterPhase p s) with
      | .val t => [t]
      | .raise _ => []
      | .fault _ => []
      | .refused _ => []
  | .each p items f, s =>
    enterLoop p s ::
      match items (enterLoop p s) with
      | .val l => eachStates f l (enterLoop p s)
      | .raise _ => []
      | .fault _ => []
      | .refused _ => []

/-- The states of a list of stages, up to the `COMMIT` phase where every stage is done. -/
def stagesStates : List Stage → State → List State
  | [], s => [enterPhase .commit s]
  | g :: gs, s =>
    g.states s ++
      match g.run s with
      | .done t => stagesStates gs t
      | .raised _ _ => []
      | .fault _ => []
      | .refused _ => []

/-- The states inside an operation that the host never observes (10_state.md R22), in order. -/
def Operation.states (o : Operation) (s : State) : List State := stagesStates o.stages (begin s)

end Sys2Proof.Machine
end

