-- ==== Sys2Proof/Machine/Operands.lean ====
section
/-! DEFINITION. Operand forms: keys and nonces with their length checks, the data formats of 30_encoding.md section 3,
and the stages that every keyed operation shares. -/

namespace Sys2Proof.Machine

/-! ### Formats -/

/-- `J0 = nonce ‖ 00 00 00 01` (30_encoding.md R86). -/
def j0Of (nonce : Bytes) : Block := blockOf (nonce ++ be 4 1)

/-- `CB0 = nonce ‖ 00 00 00 02`, the first GCM counter block (30_encoding.md R87). -/
def firstCounterOf (nonce : Bytes) : Block := blockOf (nonce ++ be 4 2)

/-- The GHASH length block `be_8(8 * len(A)) ‖ be_8(8 * len(C))` (30_encoding.md R90). -/
def lengthBlock (aadLen cLen : Nat) : Block := blockOf (be 8 (8 * aadLen) ++ be 8 (8 * cLen))

/-- `C = DATA[: len(DATA) - 16]` (45_gcm.md R220). -/
def ciphertextPart (input : Bytes) : Bytes := memRead input 0 (input.length - Config.tagBytes)

/-- `T = DATA[len(DATA) - 16 :]` (45_gcm.md R220). -/
def tagPart (input : Bytes) : Block :=
  blockOf (memRead input (input.length - Config.tagBytes) Config.tagBytes)

/-- `RK[0] ‖ RK[1] ‖ ... ‖ RK[10]`, the result of KEYEXP (30_encoding.md R94). -/
def scheduleBytes (rk : Schedule) : Bytes := rk.toList.flatMap fun k => k.toList

/-! ### Key and nonce checks -/

/-- `if len(P_KEY) != 16 then raise InvalidKeyLength` (40_block_cipher.md R129). -/
def checkKey (s : State) : Res State :=
  (need .P_KEY s.P_KEY).bind fun k =>
    if k.length = Config.keyBytes then .val s else .raise .invalidKeyLength

/-- `if len(P_NONCE) != 12 then raise InvalidNonceLength` (45_gcm.md R216). -/
def checkNonce (s : State) : Res State :=
  (need .P_NONCE s.P_NONCE).bind fun n =>
    if n.length = Config.nonceBytes then .val s else .raise .invalidNonceLength

/-- The stage `KEYCHK`. -/
def stageKeyCheck : Stage := .act .keychk checkKey

/-- The stage `NONCECHK`. -/
def stageNonceCheck : Stage := .act .noncechk checkNonce

end Sys2Proof.Machine
end

