-- ==== Sys2Proof/Machine/Aes.lean ====
section
/-! DEFINITION. The micro-operations of the block cipher core (40_block_cipher.md): GF(2^8), the substitution tables,
the transformations of the state and their inverses, key expansion, the cipher and its inverse. -/

namespace Sys2Proof.Machine

/-! ### GF(2^8) -/

/-- Multiplication by x, reducing by 0x1b when bit 7 is shifted out (R111). -/
def xtime (a : Byte) : Byte := if a.getLsbD 7 then (a <<< 1) ^^^ 0x1b else a <<< 1

/-- The loop of `gmul` from bit `i` on: `r` so far, `a` already multiplied by x^i (R111). -/
def gmulFrom : Nat → Nat → Byte → Byte → Byte → Byte
  | 0, _, _, _, r => r
  | n + 1, i, a, b, r => gmulFrom n (i + 1) (xtime a) b (if b.getLsbD i then r ^^^ a else r)

/-- Multiplication in GF(2^8) (R111). -/
def gmul (a b : Byte) : Byte := gmulFrom 8 0 a b 0

/-! ### The substitution tables -/

/-- `SBOX`, one row of sixteen entries per high nibble, column 0 leftmost (R112). -/
def sboxRows : List (BitVec 128) :=
  [0x637c777bf26b6fc53001672bfed7ab76#128,
   0xca82c97dfa5947f0add4a2af9ca472c0#128,
   0xb7fd9326363ff7cc34a5e5f171d83115#128,
   0x04c723c31896059a071280e2eb27b275#128,
   0x09832c1a1b6e5aa0523bd6b329e32f84#128,
   0x53d100ed20fcb15b6acbbe394a4c58cf#128,
   0xd0efaafb434d338545f9027f503c9fa8#128,
   0x51a3408f929d38f5bcb6da2110fff3d2#128,
   0xcd0c13ec5f974417c4a77e3d645d1973#128,
   0x60814fdc222a908846eeb814de5e0bdb#128,
   0xe0323a0a4906245cc2d3ac629195e479#128,
   0xe7c8376d8dd54ea96c56f4ea657aae08#128,
   0xba78252e1ca6b4c6e8dd741f4bbd8b8a#128,
   0x703eb5664803f60e613557b986c11d9e#128,
   0xe1f8981169d98e949b1e87e9ce5528df#128,
   0x8ca1890dbfe6426841992d0fb054bb16#128]

/-- `INVSBOX`, laid out the same way (R113). -/
def invSboxRows : List (BitVec 128) :=
  [0x52096ad53036a538bf40a39e81f3d7fb#128,
   0x7ce339829b2fff87348e4344c4dee9cb#128,
   0x547b9432a6c2233dee4c950b42fac34e#128,
   0x082ea16628d924b2765ba2496d8bd125#128,
   0x72f8f66486689816d4a45ccc5d65b692#128,
   0x6c704850fdedb9da5e154657a78d9d84#128,
   0x90d8ab008cbcd30af7e45805b8b34506#128,
   0xd02c1e8fca3f0f02c1afbd0301138a6b#128,
   0x3a9111414f67dcea97f2cfcef0b4e673#128,
   0x96ac7422e7ad3585e2f937e81c75df6e#128,
   0x47f11a711d29c5896fb7620eaa18be1b#128,
   0xfc563e4bc6d279209adbc0fe78cd5af4#128,
   0x1fdda8338807c731b11210592780ec5f#128,
   0x60517fa919b54a0d2de57a9f93c99cef#128,
   0xa0e03b4dae2af5b0c8ebbb3c83539961#128,
   0x172b047eba77d626e169146355210c7d#128]

/-- The entry of a table: the row is the high nibble of the index, the column its low nibble (R112). -/
def tableEntry (rows : List (BitVec 128)) (a : Byte) : Byte :=
  (rows.getD (a.toNat / 16) 0 >>> (8 * (15 - a.toNat % 16))).setWidth 8

/-- `SBOX[a]` (R112). -/
def sbox (a : Byte) : Byte := tableEntry sboxRows a

/-- `INVSBOX[a]` (R113). -/
def invSbox (a : Byte) : Byte := tableEntry invSboxRows a

/-! ### The transformations and their inverses -/

/-- `SubBytes` (R116). -/
def subBytes (S : Block) : Block := Vector.ofFn fun i => sbox S[i]

/-- `InvSubBytes` (R117). -/
def invSubBytes (S : Block) : Block := Vector.ofFn fun i => invSbox S[i]

/-- `ShiftRows`: row `r` rotated left by `r`, as the list of source indices (R118). -/
def shiftRows (S : Block) : Block :=
  #v[S[0], S[5], S[10], S[15], S[4], S[9], S[14], S[3], S[8], S[13], S[2], S[7], S[12], S[1], S[6], S[11]]

/-- `InvShiftRows`: row `r` rotated right by `r`, as the list of source indices (R119). -/
def invShiftRows (S : Block) : Block :=
  #v[S[0], S[13], S[10], S[7], S[4], S[1], S[14], S[11], S[8], S[5], S[2], S[15], S[12], S[9], S[6], S[3]]

/-- One column of `MixColumns` (R120). -/
def mixColumn (a : Word) : Word :=
  #v[gmul a[0] 2 ^^^ gmul a[1] 3 ^^^ a[2] ^^^ a[3],
     a[0] ^^^ gmul a[1] 2 ^^^ gmul a[2] 3 ^^^ a[3],
     a[0] ^^^ a[1] ^^^ gmul a[2] 2 ^^^ gmul a[3] 3,
     gmul a[0] 3 ^^^ a[1] ^^^ a[2] ^^^ gmul a[3] 2]

/-- `MixColumns`: each column on its own; column `c` is bytes `4c` to `4c+3` (R115, R120). -/
def mixColumns (S : Block) : Block := blockOfWords fun c => mixColumn (wordOf S c)

/-- One column of `InvMixColumns` (R121). -/
def invMixColumn (a : Word) : Word :=
  #v[gmul a[0] 0x0e ^^^ gmul a[1] 0x0b ^^^ gmul a[2] 0x0d ^^^ gmul a[3] 0x09,
     gmul a[0] 0x09 ^^^ gmul a[1] 0x0e ^^^ gmul a[2] 0x0b ^^^ gmul a[3] 0x0d,
     gmul a[0] 0x0d ^^^ gmul a[1] 0x09 ^^^ gmul a[2] 0x0e ^^^ gmul a[3] 0x0b,
     gmul a[0] 0x0b ^^^ gmul a[1] 0x0d ^^^ gmul a[2] 0x09 ^^^ gmul a[3] 0x0e]

/-- `InvMixColumns` (R121). -/
def invMixColumns (S : Block) : Block := blockOfWords fun c => invMixColumn (wordOf S c)

/-- `AddRoundKey(S, r)`, the only reader of the round-key file (R122). -/
def addRoundKey (rk : Schedule) (r : Fin 11) (S : Block) : Block := xorVec S rk[r]

/-! ### Key expansion -/

/-- `RCON[j]`, for `j` from 1: `RCON[1] = 0x01`, `RCON[j+1] = xtime(RCON[j])` (R123). -/
def rcon : Nat → Byte
  | 0 => 0
  | 1 => 0x01
  | j + 2 => xtime (rcon (j + 1))

/-- `RotWord` (R124). -/
def rotWord (w : Word) : Word := #v[w[1], w[2], w[3], w[0]]

/-- `SubWord` (R124). -/
def subWord (w : Word) : Word := #v[sbox w[0], sbox w[1], sbox w[2], sbox w[3]]

/-- The word xored onto `W[i-4]` to give `W[i]`, from `t = W[i-1]` (R125). -/
def scheduleTerm (i : Nat) (t : Word) : Word :=
  if i % 4 = 0 then xorVec (subWord (rotWord t)) #v[rcon (i / 4), 0, 0, 0] else t

/-- The loop of key expansion: `n` more words, the next index `i`, the words `W[0..i-1]` written so far (R125). -/
def expandFrom : Nat → Nat → List Word → List Word
  | 0, _, ws => ws
  | n + 1, i, ws =>
    expandFrom n (i + 1)
      (ws ++ [xorVec (ws.getD (i - 4) #v[0, 0, 0, 0]) (scheduleTerm i (ws.getD (i - 1) #v[0, 0, 0, 0]))])

/-- The 44 schedule words of a key: `W[0..3]` are the key's bytes in order (R125). -/
def scheduleWords (key : Block) : List Word :=
  expandFrom 40 4 [wordOf key 0, wordOf key 1, wordOf key 2, wordOf key 3]

/-- `KeyExpand(key)`: the round-key file, written through its word view (R125). -/
def keyExpand (key : Block) : Schedule :=
  Vector.ofFn fun r => blockOfWords fun j => (scheduleWords key).getD (4 * r.val + j.val) #v[0, 0, 0, 0]

/-! ### The cipher and its inverse -/

/-- A full round `r` of `Cipher` (R126). -/
def fullRound (rk : Schedule) (r : Fin 11) (S : Block) : Block :=
  addRoundKey rk r (mixColumns (shiftRows (subBytes S)))

/-- The final round of `Cipher`: the column mix omitted (R126). -/
def finalRound (rk : Schedule) (S : Block) : Block := addRoundKey rk 10 (shiftRows (subBytes S))

/-- `Cipher(in)`: round key 0, nine full rounds, the final round (R126). -/
def cipher (rk : Schedule) (b : Block) : Block :=
  finalRound rk (([1, 2, 3, 4, 5, 6, 7, 8, 9] : List (Fin 11)).foldl (fun S r => fullRound rk r S) (addRoundKey rk 0 b))

/-- A round `r` of `InvCipher` (R127). -/
def invRound (rk : Schedule) (r : Fin 11) (S : Block) : Block :=
  invMixColumns (addRoundKey rk r (invSubBytes (invShiftRows S)))

/-- The last step of `InvCipher` (R127). -/
def invFinal (rk : Schedule) (S : Block) : Block := addRoundKey rk 0 (invSubBytes (invShiftRows S))

/-- `InvCipher(in)`: the same round keys, read in the order 10, 9, ..., 0 (R127). -/
def invCipher (rk : Schedule) (b : Block) : Block :=
  invFinal rk (([9, 8, 7, 6, 5, 4, 3, 2, 1] : List (Fin 11)).foldl (fun S r => invRound rk r S) (addRoundKey rk 10 b))

end Sys2Proof.Machine
end

