-- ==== Sys2Proof/Machine/BlockCipher.lean ====
section
/-! DEFINITION. The meanings of KEYEXP, ENCBLK and DECBLK (40_block_cipher.md section 6), and the stage `KEYEXP` that
every keyed operation shares. -/

namespace Sys2Proof.Machine

/-- `KEY <- P_KEY; KeyExpand(KEY)`, for a key whose length check passed (R129, 10_state.md R25). -/
def expandKey (s : State) : Res State :=
  (need .P_KEY s.P_KEY).bind fun k =>
    if k.length = Config.keyBytes then
      .val { s with KEY := some (blockOf k), RK := some (keyExpand (blockOf k)) }
    else .raise .invalidKeyLength

/-- The stage `KEYEXP`. -/
def stageKeyExpand : Stage := .act .keyexp expandKey

/-- `S <- Cipher(b)` with the round-key file of the operation (R126). -/
def encryptInto (b : Block) (s : State) : Res State :=
  (need .RK s.RK).bind fun rk => .val { s with S := some (cipher rk b) }

/-- `S <- InvCipher(b)` (R127). -/
def decryptInto (b : Block) (s : State) : Res State :=
  (need .RK s.RK).bind fun rk => .val { s with S := some (invCipher rk b) }

/-- KEYEXP (R129): phases `KEYCHK, KEYEXP, COMMIT`; the result is the schedule (30_encoding.md R94). -/
def keyexpOp : Operation where
  stages := [stageKeyCheck, stageKeyExpand]
  result s := (need .RK s.RK).bind fun rk => .val (scheduleBytes rk)

/-- KEYEXP (R129). -/
def execKeyexp (s : State) : Host.Outcome State Fault Refusal := runOperation (slotsRead .keyexp) keyexpOp s

/-- `S` as the result of a block operation. -/
def resultS (s : State) : Res Bytes := (need .S s.S).bind fun b => .val b.toList

/-- ENCBLK (R130): phases `KEYCHK, KEYEXP, ROUNDS, COMMIT`. -/
def encblkOp : Operation where
  stages := [stageKeyCheck, stageKeyExpand, .act .rounds fun s => (need .P_A s.P_A).bind fun b => encryptInto b s]
  result := resultS

/-- ENCBLK (R130). -/
def execEncblk (s : State) : Host.Outcome State Fault Refusal := runOperation (slotsRead .encblk) encblkOp s

/-- DECBLK (R131): phases `KEYCHK, KEYEXP, ROUNDS, COMMIT`. -/
def decblkOp : Operation where
  stages := [stageKeyCheck, stageKeyExpand, .act .rounds fun s => (need .P_A s.P_A).bind fun b => decryptInto b s]
  result := resultS

/-- DECBLK (R131). -/
def execDecblk (s : State) : Host.Outcome State Fault Refusal := runOperation (slotsRead .decblk) decblkOp s

end Sys2Proof.Machine
end

