-- ==== Sys2Proof/Machine/Padding.lean ====
section
/-! DEFINITION. The padding helper and the meanings of PAD and UNPAD (41_padding.md). -/

namespace Sys2Proof.Machine

/-- The pad length `n = B - (len(data) mod B)` (R150). -/
def padLength (B len : Nat) : Nat := B - len % B

/-- `Pad(data, B)`: `n` bytes, each of value `n`, appended (R150). -/
def padBytes (B : Nat) (data : Bytes) : Bytes :=
  data ++ List.replicate (padLength B data.length) (BitVec.ofNat 8 (padLength B data.length))

/-- `Unpad(data, B)`; `none` is `InvalidPadding` (R152): there is a last byte `p`; it is not 0, not greater than `B`,
not greater than `len(data)`; and each of the last `p` bytes is `p`. -/
def unpadBytes (B : Nat) (data : Bytes) : Option Bytes :=
  if data.length = 0 then none
  else
    let p := data.getD (data.length - 1) 0
    if p.toNat = 0 ∨ p.toNat > B ∨ p.toNat > data.length then none
    else if (memRead data (data.length - p.toNat) p.toNat).all (· == p) then
      some (memRead data 0 (data.length - p.toNat))
    else none

/-- `RBUF` as the result of an operation. -/
def resultRbuf (s : State) : Res Bytes := need .RBUF s.RBUF

/-! ### Copying chunk by chunk

PAD, UNPAD and CBCENC copy `DATA` in a per-chunk loop whose index is `BLK` (10_state.md R24, R25, 20_memory.md R61;
log 10). It runs `nchunks(DATA)` times, a number known from the operand's length (60_exceptions.md R249); the pad bytes
are appended, or tested and stripped, after it. -/

/-- No byte copied yet. -/
def startCopy (s : State) : Res State := .val { s with RBUF := some [] }

/-- One chunk copied. -/
def copyChunk (c : Bytes) (s : State) : Res State :=
  (need .RBUF s.RBUF).bind fun out => .val { s with RBUF := some (out ++ c) }

/-- The chunks of `DATA` (20_memory.md R59). -/
def dataChunks (s : State) : Res (List Bytes) := .val (chunks s.mem.DATA)

/-- The chunks of the private byte string `PBUF`. -/
def pbufChunks (s : State) : Res (List Bytes) := (need .PBUF s.PBUF).bind fun p => .val (chunks p)

/-- The stages in which `DATA` is copied, in the phase of the operation (R150 "the data bytes are copied unchanged",
R152). -/
def copyDataStages (p : Phase) : List Stage := [.act p startCopy, .each p dataChunks copyChunk]

/-- The pad bytes appended to the data copied (R150). -/
def appendPadding (s : State) : Res State :=
  (need .RBUF s.RBUF).bind fun data => .val { s with RBUF := some (padBytes Config.padBlock data) }

/-- PAD (R150): phases `PAD, COMMIT`. -/
def padOp : Operation where
  stages := copyDataStages .pad ++ [.act .pad appendPadding]
  result := resultRbuf

/-- PAD (R150). -/
def execPad (s : State) : Host.Outcome State Fault Refusal := runOperation (slotsRead .pad) padOp s

/-- `Unpad` of the bytes collected: the tests, and the data without its last `p` bytes, or `InvalidPadding` (R152). -/
def stripPadding (s : State) : Res State :=
  (need .RBUF s.RBUF).bind fun data =>
    match unpadBytes Config.padBlock data with
    | some r => .val { s with RBUF := some r }
    | none => .raise .invalidPadding

/-- UNPAD (R152): phases `UNPAD, COMMIT`. -/
def unpadOp : Operation where
  stages := copyDataStages .unpad ++ [.act .unpad stripPadding]
  result := resultRbuf

/-- UNPAD (R152). -/
def execUnpad (s : State) : Host.Outcome State Fault Refusal := runOperation (slotsRead .unpad) unpadOp s

end Sys2Proof.Machine
end

