-- ==== Sys2Proof/Machine/Cbc.lean ====
section
/-! DEFINITION. The meanings of CBCENC and CBCDEC (42_cbc.md). -/

namespace Sys2Proof.Machine

/-- `P = Pad(DATA)`, from the data copied (R162). -/
def padForCbc (s : State) : Res State :=
  (need .RBUF s.RBUF).bind fun data => .val { s with PBUF := some (padBytes Config.padBlock data) }

/-- `CHAIN <- P_A`, with no result byte yet (R162, R165). -/
def loadIv (s : State) : Res State :=
  (need .P_A s.P_A).bind fun iv => .val { s with CHAIN := some iv, RBUF := some [] }

/-- One chunk of CBC encryption: `S <- Chunk(P, j) ⊕ CHAIN; S <- Cipher(S); C_j = S; CHAIN <- S` (R162). -/
def cbcEncChunk (c : Bytes) (s : State) : Res State :=
  (need .CHAIN s.CHAIN).bind fun prev =>
    (need .RBUF s.RBUF).bind fun out =>
      (encryptInto (xorVec (blockOf c) prev) s).bind fun t =>
        (need .S t.S).bind fun b => .val { t with CHAIN := some b, RBUF := some (out ++ b.toList) }

/-- CBCENC (R162): phases `KEYCHK, KEYEXP, PAD, CHAIN, COMMIT`. -/
def cbcencOp : Operation where
  stages :=
    [stageKeyCheck, stageKeyExpand] ++ copyDataStages .pad ++
    [.act .pad padForCbc, .act .chain loadIv, .each .chain pbufChunks cbcEncChunk]
  result := resultRbuf

/-- CBCENC (R162). -/
def execCbcenc (s : State) : Host.Outcome State Fault Refusal := runOperation (slotsRead .cbcenc) cbcencOp s

/-- `if len(DATA) = 0 or len(DATA) mod 16 != 0 then raise InvalidCiphertextLength` (R165). -/
def checkCiphertextLength (s : State) : Res State :=
  if s.mem.DATA.length = 0 ∨ s.mem.DATA.length % 16 ≠ 0 then .raise .invalidCiphertextLength else .val s

/-- One chunk of CBC decryption: `S <- InvCipher(Chunk(DATA, j)); P_j = S ⊕ CHAIN; CHAIN <- Chunk(DATA, j)` (R165). -/
def cbcDecChunk (c : Bytes) (s : State) : Res State :=
  (need .CHAIN s.CHAIN).bind fun prev =>
    (need .RBUF s.RBUF).bind fun out =>
      (decryptInto (blockOf c) s).bind fun t =>
        (need .S t.S).bind fun b =>
          .val { t with CHAIN := some (blockOf c), RBUF := some (out ++ (xorVec b prev).toList) }

/-- CBCDEC (R165): phases `LEN, KEYCHK, KEYEXP, CHAIN, UNPAD, COMMIT`; the last step is `Unpad(P_0 ‖ ... ‖ P_{n-1})`,
which may raise `InvalidPadding`. -/
def cbcdecOp : Operation where
  stages :=
    [.act .len checkCiphertextLength, stageKeyCheck, stageKeyExpand, .act .chain loadIv,
     .each .chain dataChunks cbcDecChunk, .act .unpad stripPadding]
  result := resultRbuf

/-- CBCDEC (R165). -/
def execCbcdec (s : State) : Host.Outcome State Fault Refusal := runOperation (slotsRead .cbcdec) cbcdecOp s

end Sys2Proof.Machine
end

