-- ==== Sys2Proof/Machine/Ctr.lean ====
section
/-! DEFINITION. Counter mode: the increment, the transform of a chunk, and the meaning of CTRXFRM (43_ctr.md). -/

namespace Sys2Proof.Machine

/-- The counter field of a counter block as a natural, `int_be(cb[16-n : 16])` (30_encoding.md R85, 43_ctr.md R177). -/
def counterField (W : CtrFieldBits) (cb : Block) : Nat :=
  intBe (memRead cb.toList (16 - W.bytes) W.bytes)

/-- `Inc_W(cb)`: the field plus 1 modulo 2^W, the bytes before it untouched (R177). -/
def inc (W : CtrFieldBits) (cb : Block) : Block :=
  blockOf (memRead cb.toList 0 (16 - W.bytes) ++ be W.bytes ((counterField W cb + 1) % 2 ^ W.bits))

/-- `CounterOverflow` exactly when more than 2^32 chunks would be processed, tested on the length alone (R181). -/
def counterOverflows (len : Nat) : Bool := decide (nchunks len > Config.maxBlocks)

/-- `c0 + nchunks(data) - 1 > 2^W - 1`: the field would pass its top (R183). -/
def counterPassesTop (W : CtrFieldBits) (c0 len : Nat) : Bool := decide (c0 + nchunks len > 2 ^ W.bits)

/-- The count of a counter-mode loop: `CounterOverflow`, on the length alone; and under `WRAP_POLICY = refuse` no meaning
for a call whose field, `c0` at the start, would wrap (R180, R181, R183; log 13). -/
def checkCount (W : CtrFieldBits) (policy : WrapPolicy) (c0 : State → Res Nat) (len : Nat) (s : State) : Res State :=
  if counterOverflows len then .raise .counterOverflow
  else
    match policy with
    | .wrap => .val s
    | .refuse => (c0 s).bind fun c => if counterPassesTop W c len then .refused .counterWraps else .val s

/-- The counter field of the start block of CTRXFRM (R183 `c0`). -/
def startField (W : CtrFieldBits) (s : State) : Res Nat :=
  (need .P_A s.P_A).bind fun cb => .val (counterField W cb)

/-- `CB <-` the start block, with no result byte yet (R180). -/
def loadCounter (cb : Block) (s : State) : Res State := .val { s with CB := some cb, RBUF := some [] }

/-- One chunk of counter mode: `S <- Cipher(CB); KS <- S; out_j = chunk ⊕ KS[: len(chunk)]; CB <- Inc_W(CB)` (R180). -/
def ctrChunk (W : CtrFieldBits) (c : Bytes) (s : State) : Res State :=
  (need .CB s.CB).bind fun cb =>
    (need .RBUF s.RBUF).bind fun out =>
      (encryptInto cb s).bind fun t =>
        (need .S t.S).bind fun ks =>
          .val { t with KS := some ks, CB := some (inc W cb), RBUF := some (out ++ xorBytes c ks.toList) }

/-- CTRXFRM for a counter field of width `W` under a wrap policy (R180): phases `KEYCHK, COUNT, KEYEXP, CTR, COMMIT`. -/
def ctrxfrmOp (W : CtrFieldBits) (policy : WrapPolicy) : Operation where
  stages :=
    [stageKeyCheck,
     .act .count fun s => checkCount W policy (startField W) s.mem.DATA.length s,
     stageKeyExpand,
     .act .ctr fun s => (need .P_A s.P_A).bind fun cb => loadCounter cb s,
     .each .ctr dataChunks (ctrChunk W)]
  result := resultRbuf

/-- CTRXFRM for any values of the two open parameters (00_scope.md R10). -/
def execCtrxfrmWith (W : CtrFieldBits) (policy : WrapPolicy) (s : State) : Host.Outcome State Fault Refusal :=
  runOperation (slotsRead .ctrxfrm) (ctrxfrmOp W policy) s

/-- CTRXFRM of this machine (R180). -/
def execCtrxfrm (s : State) : Host.Outcome State Fault Refusal :=
  execCtrxfrmWith Config.ctrFieldBits Config.wrapPolicy s

end Sys2Proof.Machine
end

