-- ==== Sys2Proof/Machine/Ghash.lean ====
section
/-! DEFINITION. The GF(2^128) multiplier, GHASH, and the meanings of GFMUL and GHASH (44_gf128_ghash.md). -/

namespace Sys2Proof.Machine

/-- A block as the 128-bit string `bit128(B, 0) ... bit128(B, 127)`, most significant bit first: the big-endian
integer `int_be(B)` (00_scope.md R12, 44_gf128_ghash.md R190, R193). -/
def toBits (b : Block) : BitVec 128 := BitVec.ofNat 128 (intBe b.toList)

/-- The block of a 128-bit string: byte `k` is bits `8k` to `8k+7` counted from the most significant. -/
def ofBits (x : BitVec 128) : Block := Vector.ofFn fun k => (x >>> (8 * (15 - k.val))).setWidth 8

/-- The reduction constant `R = e1 00 ... 00` (R192). -/
def reductionR : BitVec 128 := 0xe1 <<< 120

/-- `V <- ShiftRight1(V)`, reduced by `R` when the bit shifted out was set: multiplication by x (R193). -/
def mulX (v : BitVec 128) : BitVec 128 := if v.getLsbD 0 then (v >>> 1) ^^^ reductionR else v >>> 1

/-- The loop of `GfMul` from step `i` on: the result `z` so far and the working copy `v` (R193). -/
def gfMulFrom (x : BitVec 128) : Nat → Nat → BitVec 128 → BitVec 128 → BitVec 128 × BitVec 128
  | 0, _, z, v => (z, v)
  | n + 1, i, z, v => gfMulFrom x n (i + 1) (if x.getMsbD i then z ^^^ v else z) (mulX v)

/-- The registers `Z` and `V` after `GfMul(X, Y)`: 128 steps, walking the bits of `X` (R193). -/
def gfMulRegs (X Y : Block) : Block × Block :=
  let r := gfMulFrom (toBits X) 128 0 0 (toBits Y)
  (ofBits r.1, ofBits r.2)

/-- `GfMul(X, Y)` (R193). -/
def gfMul (X Y : Block) : Block := (gfMulRegs X Y).1

/-- `Z`, `V` after a multiplication. -/
def multiplyInto (X Y : Block) (s : State) : State :=
  { s with Z := some (gfMulRegs X Y).1, V := some (gfMulRegs X Y).2 }

/-- The `DATA` buffer as an operand. -/
def dataBuffer (s : State) : Res Bytes := .val s.mem.DATA

/-- GFMUL (R194): phases `MUL, COMMIT`. -/
def gfmulOp : Operation where
  stages :=
    [.act .mul fun s =>
      (need .P_A s.P_A).bind fun x => (need .P_B s.P_B).bind fun y => .val (multiplyInto x y s)]
  result s := (need .Z s.Z).bind fun z => .val z.toList

/-- GFMUL (R194). -/
def execGfmul (s : State) : Host.Outcome State Fault Refusal := runOperation (slotsRead .gfmul) gfmulOp s

/-- `GhashFold(ACC, block)`: `ACC <- GfMul(ACC ⊕ block, H)` (R196). -/
def ghashFold (b : Block) (s : State) : Res State :=
  (need .ACC s.ACC).bind fun acc =>
    (need .H s.H).bind fun h =>
      let t := multiplyInto (xorVec acc b) h s
      (need .Z t.Z).bind fun z => .val { t with ACC := some z }

/-- One chunk folded, zero-padded on the right (R197, 20_memory.md R60). -/
def ghashChunk (c : Bytes) (s : State) : Res State := ghashFold (blockOf c) s

/-- `ACC <- 0^16` (R197). -/
def clearAcc (s : State) : Res State := .val { s with ACC := some zeroBlock }

/-- The stages of `Ghash(H, AAD, C)` (R197): the AAD, then the ciphertext `C`, then the length block. -/
def hashStages (c : State → Res Bytes) : List Stage :=
  [.act .hash clearAcc,
   .each .hash (fun s => .val (chunks s.mem.AAD)) ghashChunk,
   .each .hash (fun s => (c s).bind fun b => .val (chunks b)) ghashChunk,
   .act .hash fun s => (c s).bind fun b => ghashFold (lengthBlock s.mem.AAD.length b.length) s]

/-- GHASH (R198): phases `HASH, COMMIT`; the subkey is an operand, the ciphertext is `DATA`. -/
def ghashOp : Operation where
  stages :=
    (.act .hash fun s => (need .P_A s.P_A).bind fun h => .val { s with H := some h }) :: hashStages dataBuffer
  result s := (need .ACC s.ACC).bind fun a => .val a.toList

/-- GHASH (R198). -/
def execGhash (s : State) : Host.Outcome State Fault Refusal := runOperation (slotsRead .ghash) ghashOp s

end Sys2Proof.Machine
end

