-- ==== Sys2Proof/Machine/Gcm.lean ====
section
/-! DEFINITION. The tag generator, the constant-time verifier and the meanings of TAGGEN, TAGCMP, GCMENC and GCMDEC
(45_gcm.md). -/

namespace Sys2Proof.Machine

/-! ### The tag generator -/

/-- `S <- Cipher(0^16); H <- S` (R212, R215). -/
def deriveSubkey (s : State) : Res State :=
  (encryptInto zeroBlock s).bind fun t => (need .S t.S).bind fun h => .val { t with H := some h }

/-- `J0 <- nonce ‖ 00 00 00 01` (R212, 30_encoding.md R86). -/
def loadJ0 (s : State) : Res State :=
  (need .P_NONCE s.P_NONCE).bind fun n => .val { s with J0 := some (j0Of n) }

/-- `S <- Cipher(J0); MASK <- S` (R212). -/
def computeMask (s : State) : Res State :=
  (need .J0 s.J0).bind fun j0 =>
    (encryptInto j0 s).bind fun t => (need .S t.S).bind fun m => .val { t with MASK := some m }

/-- `TAG <- ACC ⊕ MASK` (R212). -/
def computeTag (s : State) : Res State :=
  (need .ACC s.ACC).bind fun acc =>
    (need .MASK s.MASK).bind fun m => .val { s with TAG := some (xorVec acc m) }

/-- The stages of `TagGen(nonce, A, C)` that follow the subkey, `J0` and the mask (R212): the hash, then the tag. -/
def hashTagStages (c : State → Res Bytes) : List Stage := hashStages c ++ [.act .tag computeTag]

/-- TAGGEN (R216): phases `KEYCHK, NONCECHK, KEYEXP, SUBKEY, MASK, HASH, TAG, COMMIT`. -/
def taggenOp : Operation where
  stages :=
    [stageKeyCheck, stageNonceCheck, stageKeyExpand, .act .subkey deriveSubkey, .act .mask loadJ0,
     .act .mask computeMask] ++ hashTagStages dataBuffer
  result s := (need .TAG s.TAG).bind fun t => .val t.toList

/-- TAGGEN (R216). -/
def execTaggen (s : State) : Host.Outcome State Fault Refusal := runOperation (slotsRead .taggen) taggenOp s

/-! ### The constant-time verifier -/

/-- `DIFF` after the sixteen steps of `TagCmp` (R213). -/
def compareTags (received expected : Block) (s : State) : Res State :=
  .val { s with DIFF := some (tagDiff received expected) }

/-- The result of the comparison, from `DIFF` alone: a mismatch raises `AuthenticationFailed` (R213, R214). -/
def judgeDiff (s : State) : Res State :=
  (need .DIFF s.DIFF).bind fun d => if tagMatches d then .val s else .raise .authenticationFailed

/-- TAGCMP (R214): phases `COMPARE, COMMIT`; the result is empty (30_encoding.md R95). -/
def tagcmpOp : Operation where
  stages :=
    [.act .compare fun s =>
      (need .P_A s.P_A).bind fun a => (need .P_B s.P_B).bind fun b => compareTags a b s,
     .act .compare judgeDiff]
  result _ := .val []

/-- TAGCMP (R214). -/
def execTagcmp (s : State) : Host.Outcome State Fault Refusal := runOperation (slotsRead .tagcmp) tagcmpOp s

/-! ### Authenticated encryption and decryption -/

/-- The counter value of the first GCM counter block, the same in every call (00_scope.md R9 `GCM_FIRST_COUNTER`). -/
def gcmFirstCounter (_ : State) : Res Nat := .val 2

/-- `CB <- P_NONCE ‖ 00 00 00 02` (R218, 30_encoding.md R87). -/
def loadGcmCounter (s : State) : Res State :=
  (need .P_NONCE s.P_NONCE).bind fun n => loadCounter (firstCounterOf n) s

/-- GCMENC under a wrap policy (R218): phases `KEYCHK, NONCECHK, KEYEXP, SUBKEY, J0, COUNT, CTR, MASK, HASH, TAG,
COMMIT`; the result is `C ‖ TAG` (30_encoding.md R91). -/
def gcmencOp (policy : WrapPolicy) : Operation where
  stages :=
    [stageKeyCheck, stageNonceCheck, stageKeyExpand, .act .subkey deriveSubkey, .act .j0 loadJ0,
     .act .count fun s => checkCount .w32 policy gcmFirstCounter s.mem.DATA.length s,
     .act .ctr loadGcmCounter,
     .each .ctr dataChunks (ctrChunk .w32),
     .act .mask computeMask] ++ hashTagStages resultRbuf
  result s := (resultRbuf s).bind fun c => (need .TAG s.TAG).bind fun t => .val (c ++ t.toList)

/-- GCMENC for any wrap policy (43_ctr.md R183, 45_gcm.md R217). -/
def execGcmencWith (policy : WrapPolicy) (s : State) : Host.Outcome State Fault Refusal :=
  runOperation (slotsRead .gcmenc) (gcmencOp policy) s

/-- GCMENC of this machine (R218). -/
def execGcmenc (s : State) : Host.Outcome State Fault Refusal := execGcmencWith Config.wrapPolicy s

/-- Steps 1 and 2 of R221: `if len(DATA) < 16 then raise CiphertextTooShort`; `C` is split off. -/
def splitInput (s : State) : Res State :=
  if s.mem.DATA.length < Config.tagBytes then .raise .ciphertextTooShort
  else .val { s with PBUF := some (ciphertextPart s.mem.DATA) }

/-- The ciphertext part, one value for the hash and for the decryption (R221, 20_memory.md R66). -/
def resultPbuf (s : State) : Res Bytes := need .PBUF s.PBUF

/-- Step 4 of R221: `m = TagCmp(T, TAG)`. -/
def compareReceivedTag (s : State) : Res State :=
  (need .TAG s.TAG).bind fun expected => compareTags (tagPart s.mem.DATA) expected s

/-- GCMDEC under a wrap policy (R221): phases `LEN, KEYCHK, NONCECHK, KEYEXP, SUBKEY, MASK, HASH, TAG, COMPARE, CTR,
COMMIT`. The phase `CTR` is reached only when `COMPARE` has ended with a match (R222). -/
def gcmdecOp (policy : WrapPolicy) : Operation where
  stages :=
    [.act .len splitInput, stageKeyCheck, stageNonceCheck, stageKeyExpand, .act .subkey deriveSubkey,
     .act .mask loadJ0, .act .mask computeMask] ++ hashTagStages resultPbuf ++
    [.act .compare compareReceivedTag, .act .compare judgeDiff,
     .act .ctr fun s => (resultPbuf s).bind fun c => checkCount .w32 policy gcmFirstCounter c.length s,
     .act .ctr loadGcmCounter,
     .each .ctr pbufChunks (ctrChunk .w32)]
  result := resultRbuf

/-- GCMDEC for any wrap policy. -/
def execGcmdecWith (policy : WrapPolicy) (s : State) : Host.Outcome State Fault Refusal :=
  runOperation (slotsRead .gcmdec) (gcmdecOp policy) s

/-- GCMDEC of this machine (R221). -/
def execGcmdec (s : State) : Host.Outcome State Fault Refusal := execGcmdecWith Config.wrapPolicy s

end Sys2Proof.Machine
end

