-- ==== Sys2Proof/Machine/Dispatch.lean ====
section
/-! DEFINITION. The dispatch: one arm per operation, each one call of its meaning (30_encoding.md R82). -/

namespace Sys2Proof.Machine

def exec (i : Instr) (s : State) : Host.Outcome State Fault Refusal :=
  match i with
  | .keyexp => Sys2Proof.Machine.execKeyexp s
  | .encblk => Sys2Proof.Machine.execEncblk s
  | .decblk => Sys2Proof.Machine.execDecblk s
  | .pad => Sys2Proof.Machine.execPad s
  | .unpad => Sys2Proof.Machine.execUnpad s
  | .cbcenc => Sys2Proof.Machine.execCbcenc s
  | .cbcdec => Sys2Proof.Machine.execCbcdec s
  | .ctrxfrm => Sys2Proof.Machine.execCtrxfrm s
  | .gfmul => Sys2Proof.Machine.execGfmul s
  | .ghash => Sys2Proof.Machine.execGhash s
  | .taggen => Sys2Proof.Machine.execTaggen s
  | .tagcmp => Sys2Proof.Machine.execTagcmp s
  | .gcmenc => Sys2Proof.Machine.execGcmenc s
  | .gcmdec => Sys2Proof.Machine.execGcmdec s

end Sys2Proof.Machine
end

