-- ==== Sys2Proof/Machine/Fetch.lean ====
section
/-! DEFINITION. Taking the operation code at issue, and presenting a bare command word (there is no instruction memory
and no fetch, 10_state.md R24, 20_memory.md R70). -/

namespace Sys2Proof.Machine

/-- The operation that the code in `OP` selects, or the refusal of a reserved code (30_encoding.md R82, R96). -/
def fetch (op : Byte) : Except Refusal Instr :=
  match decode [op] with
  | .ok (i, _) => .ok i
  | .error _ => .error (.reservedCode op)

/-- The command whose word is the low byte of `w` stands at issue: `OP` is written; a register slot that holds no
value takes zeros of its legal width (16, 12, 16 and 16 bytes), since every command carries its operands
(70_reset_and_hazards.md R272) and the operand bits beyond the command word are zeros; no operation is in progress.
Slots that hold a value and the buffers stand as they are (log 8). -/
def presentWord (nbits w : Nat) (s : State) : State :=
  { s with
    OP := some ((tableWordBytes nbits w).getD 0 0)
    P_KEY := some (s.P_KEY.getD (List.replicate Config.keyBytes 0))
    P_NONCE := some (s.P_NONCE.getD (List.replicate Config.nonceBytes 0))
    P_A := some (s.P_A.getD zeroBlock)
    P_B := some (s.P_B.getD zeroBlock)
    PHASE := .idle }

end Sys2Proof.Machine
end

