-- ==== Sys2Proof/Machine/Step.lean ====
section
/-! DEFINITION. One step: the issue of the command that stands in `OP` and the slots, and its whole operation, as one
transaction (00_scope.md R8, 10_state.md R22). -/

namespace Sys2Proof.Machine

/-- One transaction. With no command the block waits (10_state.md R33; log 8); a reserved code is refused
(30_encoding.md R96); with an operation in progress the host has no move (70_reset_and_hazards.md R273). -/
def step (s : State) : Host.Outcome State Fault Refusal :=
  match s.PHASE, s.OP with
  | .idle, none => .next s
  | .idle, some op =>
    match fetch op with
    | .ok i => exec i s
    | .error r => .refused r
  | p, _ => .refused (.operationInProgress p)

/-- `s` with the command of a table word presented (log 8). -/
def State.withFetchWord (s : State) (nbits w : Nat) : State := presentWord nbits w s

end Sys2Proof.Machine
end

