-- ==== Sys2Proof/Machine/HostMoves.lean ====
section
/-! DEFINITION. What the host does: writing a command, a transaction, reading the result, a run of commands
(70_reset_and_hazards.md R273, R274), and the containers and pseudo-operations it assembles (30_encoding.md R92, R93,
R99). -/

namespace Sys2Proof.Machine

/-- The host writes a command: `OP`, the operand slots, `AAD` and `DATA` (10_state.md R21). -/
def State.writeCommand (c : Command) (s : State) : State :=
  { s with
    OP := some c.op, P_KEY := c.pKey, P_NONCE := c.pNonce, P_A := c.pA, P_B := c.pB
    mem := { s.mem with AAD := c.aad, DATA := c.data } }

/-- One transaction: write the command, issue it (10_state.md R22). -/
def transact (c : Command) (s : State) : Host.Outcome State Fault Refusal := step (s.writeCommand c)

/-- The result triple `(STATUS, ERR, OUT)` (30_encoding.md R81). -/
structure ResultTriple where
  status : Status
  err : Option Err
  out : Bytes
  deriving DecidableEq, Repr

/-- The host reads the result; nothing else is readable (10_state.md R20, R29). -/
def State.result (s : State) : ResultTriple := { status := s.STATUS, err := s.ERR, out := s.mem.OUT }

/-- A run: the result triples read so far, and how it ends (70_reset_and_hazards.md R274). -/
def runCommands : List Command → State → List ResultTriple × Host.Outcome State Fault Refusal
  | [], s => ([], .next s)
  | c :: cs, s =>
    match transact c s with
    | .next t => (t.result :: (runCommands cs t).1, (runCommands cs t).2)
    | .fault f => ([], .fault f)
    | .refused r => ([], .refused r)

/-- What a call tells the host: the bytes of `OUT`, or the one error, with its code (30_encoding.md R81); or how the
command stopped. -/
inductive CallResult where
  | ok (out : Bytes)
  | error (e : Err)
  | fault (f : Fault)
  | refused (r : Refusal)
  deriving DecidableEq, Repr

/-- The result of a transaction as the host's call sees it. -/
def callResult (x : Host.Outcome State Fault Refusal) : CallResult :=
  match x with
  | .next t =>
    match t.ERR with
    | none => .ok t.mem.OUT
    | some e => .error e
  | .fault f => .fault f
  | .refused r => .refused r

/-- A further step of the host on the bytes of a call that succeeded; an error or a stop is handed on as it is. -/
def CallResult.mapOut (f : Bytes → Bytes) : CallResult → CallResult
  | .ok out => .ok (f out)
  | .error e => .error e
  | .fault r => .fault r
  | .refused r => .refused r

/-! ### Containers -/

/-- The CBC container `IV ‖ ciphertext` (30_encoding.md R92). -/
def cbcContainer (iv : Block) (ciphertext : Bytes) : Bytes := iv.toList ++ ciphertext

/-- The GCM container `nonce ‖ ciphertext ‖ tag` (30_encoding.md R93). -/
def gcmContainer (nonce ciphertextTag : Bytes) : Bytes := nonce ++ ciphertextTag

/-! ### Pseudo-operations (30_encoding.md R99); the random bytes are the host's, an argument here -/

/-- A command with the code of `i` and empty slots, for the slots an operation ignores. -/
def bareCommand (i : Instr) : Command where
  op := encodeOp i
  pKey := none
  pNonce := none
  pA := none
  pB := none
  aad := []
  data := []

/-- The call `CTRTransform(data, key, counterBlock)`. -/
def ctrTransform (data key : Bytes) (cb : Block) (s : State) : CallResult :=
  callResult (transact { bareCommand .ctrxfrm with pKey := some key, pA := some cb, data := data } s)

/-- `CTREncrypt(p, k, cb)` is `CTRTransform`. -/
def ctrEncrypt (p key : Bytes) (cb : Block) (s : State) : CallResult := ctrTransform p key cb s

/-- `CTRDecrypt(c, k, cb)` is `CTRTransform`. -/
def ctrDecrypt (c key : Bytes) (cb : Block) (s : State) : CallResult := ctrTransform c key cb s

/-- `CBCSeal(p, k)` with the IV the host's random source gave: `iv ‖ CBCEncrypt(p, k, iv)`, or what that call ended
with. -/
def cbcSeal (p key : Bytes) (iv : Block) (s : State) : CallResult :=
  (callResult (transact { bareCommand .cbcenc with pKey := some key, pA := some iv, data := p } s)).mapOut
    (cbcContainer iv)

/-- `CBCOpen(x, k)` is `CBCDecrypt(x[16:], k, x[:16])`. The model's choice (log 14): for an `x` shorter than 16 bytes,
whose `x[:16]` is no legal `P_A`, the missing bytes of the IV are zeros; `DATA` is then empty. -/
def cbcOpen (x key : Bytes) (s : State) : CallResult :=
  callResult
    (transact
      { bareCommand .cbcdec with pKey := some key, pA := some (blockOf (memRead x 0 16)), data := x.drop 16 } s)

/-- `GCMSeal(p, k, aad)` with the nonce the host's random source gave: `n ‖ GCMEncrypt(p, k, n, aad)`, or what that call
ended with. -/
def gcmSeal (p key aad nonce : Bytes) (s : State) : CallResult :=
  (callResult
    (transact
      { bareCommand .gcmenc with pKey := some key, pNonce := some nonce, aad := aad, data := p } s)).mapOut
    (gcmContainer nonce)

/-- `GCMOpen(x, k, aad)` is `GCMDecrypt(x[12:], k, x[:12], aad)`; a `P_NONCE` may have any length, so every `x` gives a
command (10_state.md R21). -/
def gcmOpen (x key aad : Bytes) (s : State) : CallResult :=
  callResult
    (transact
      { bareCommand .gcmdec with
        pKey := some key, pNonce := some (memRead x 0 12), aad := aad, data := x.drop 12 } s)

end Sys2Proof.Machine
end

