-- ==== Sys2Proof/Machine/Transaction.lean ====
section
/-! DEFINITION. The fourteen operations as the functions over byte strings that the spec names them by (30_encoding.md
R82 "API name", R98), with the recurrences of the mode files. The meanings do not call these: that each meaning, run
stage by stage on the working registers, answers what its function says is the reading of 00_scope.md R8. -/

namespace Sys2Proof.Machine

/-- A result: the bytes of `OUT`, or the one error (30_encoding.md R81). -/
abbrev ApiResult := Except Err Bytes

/-- The key check, then the work with the key's schedule (40_block_cipher.md R129 to R131). -/
def withKey (key : Bytes) (f : Schedule → ApiResult) : ApiResult :=
  if key.length = Config.keyBytes then f (keyExpand (blockOf key)) else .error .invalidKeyLength

/-- The nonce check (45_gcm.md R216). -/
def withNonce (nonce : Bytes) (f : ApiResult) : ApiResult :=
  if nonce.length = Config.nonceBytes then f else .error .invalidNonceLength

/-- KeyExpand(key) (R129, 30_encoding.md R94). -/
def apiKeyExpand (key : Bytes) : ApiResult := withKey key fun rk => .ok (scheduleBytes rk)

/-- EncryptBlock(block, key) (R130). -/
def apiEncryptBlock (b : Block) (key : Bytes) : ApiResult := withKey key fun rk => .ok (cipher rk b).toList

/-- DecryptBlock(block, key) (R131). -/
def apiDecryptBlock (b : Block) (key : Bytes) : ApiResult := withKey key fun rk => .ok (invCipher rk b).toList

/-- Pad(data, 16) (R150). -/
def apiPad (data : Bytes) : ApiResult := .ok (padBytes Config.padBlock data)

/-- Unpad(data, 16) (R152). -/
def apiUnpad (data : Bytes) : ApiResult :=
  match unpadBytes Config.padBlock data with
  | some r => .ok r
  | none => .error .invalidPadding

/-- The CBC encryption recurrence `C_j = Cipher(P_j ⊕ C_{j-1})` over the chunks from `j` on (42_cbc.md R160). -/
def cbcEncFrom (rk : Schedule) : Block → List Bytes → Bytes
  | _, [] => []
  | prev, c :: cs =>
    let b := cipher rk (xorVec (blockOf c) prev)
    b.toList ++ cbcEncFrom rk b cs

/-- The CBC decryption recurrence `P_j = InvCipher(C_j) ⊕ C_{j-1}` (42_cbc.md R163). -/
def cbcDecFrom (rk : Schedule) : Block → List Bytes → Bytes
  | _, [] => []
  | prev, c :: cs =>
    (xorVec (invCipher rk (blockOf c)) prev).toList ++ cbcDecFrom rk (blockOf c) cs

/-- CBCEncrypt(plaintext, key, iv) (R162). -/
def apiCbcEncrypt (p key : Bytes) (iv : Block) : ApiResult :=
  withKey key fun rk => .ok (cbcEncFrom rk iv (chunks (padBytes Config.padBlock p)))

/-- CBCDecrypt(ciphertext, key, iv) (R165). -/
def apiCbcDecrypt (c key : Bytes) (iv : Block) : ApiResult :=
  if c.length = 0 ∨ c.length % 16 ≠ 0 then .error .invalidCiphertextLength
  else withKey key fun rk => apiUnpad (cbcDecFrom rk iv (chunks c))

/-- `Inc_W` applied `j` times (43_ctr.md R178). -/
def incN (W : CtrFieldBits) : Nat → Block → Block
  | 0, cb => cb
  | j + 1, cb => incN W j (inc W cb)

/-- Counter mode over the chunks from the counter block `cb` on (43_ctr.md R179). -/
def ctrFrom (W : CtrFieldBits) (rk : Schedule) : Block → List Bytes → Bytes
  | _, [] => []
  | cb, c :: cs => xorBytes c (cipher rk cb).toList ++ ctrFrom W rk (inc W cb) cs

/-- CTRTransform(data, key, counterBlock), under `WRAP_POLICY = wrap` (R180). -/
def apiCtrTransform (W : CtrFieldBits) (data key : Bytes) (cb : Block) : ApiResult :=
  withKey key fun rk =>
    if counterOverflows data.length then .error .counterOverflow else .ok (ctrFrom W rk cb (chunks data))

/-- gfMul(X, Y) (R194). -/
def apiGfMul (x y : Block) : ApiResult := .ok (gfMul x y).toList

/-- The accumulator after folding the chunks, each zero-padded on the right (44_gf128_ghash.md R196, R197). -/
def ghashFrom (h : Block) (acc : Block) (cs : List Bytes) : Block :=
  cs.foldl (fun a c => gfMul (xorVec a (blockOf c)) h) acc

/-- `Ghash(H, A, C)` (R197). -/
def ghash (h : Block) (a c : Bytes) : Block :=
  gfMul (xorVec (ghashFrom h (ghashFrom h zeroBlock (chunks a)) (chunks c)) (lengthBlock a.length c.length)) h

/-- GHASH(H, AAD, ciphertext) (R198). -/
def apiGhash (h : Block) (a c : Bytes) : ApiResult := .ok (ghash h a c).toList

/-- `H = Cipher(0^16)` (45_gcm.md R215). -/
def hashSubkey (rk : Schedule) : Block := cipher rk zeroBlock

/-- `tag = Ghash(H, A, C) ⊕ Cipher(J0)` (45_gcm.md R211). -/
def gcmTag (rk : Schedule) (nonce a c : Bytes) : Block :=
  xorVec (ghash (hashSubkey rk) a c) (cipher rk (j0Of nonce))

/-- The counter-mode step of GCM, starting at counter value 2 (45_gcm.md R218 step 4, R221 step 6). -/
def gcmStream (rk : Schedule) (nonce data : Bytes) : Bytes :=
  ctrFrom .w32 rk (firstCounterOf nonce) (chunks data)

/-- TagGen(key, nonce, aad, ciphertext) (R216). -/
def apiTagGen (key nonce a c : Bytes) : ApiResult :=
  withKey key fun rk => withNonce nonce (.ok (gcmTag rk nonce a c).toList)

/-- TagCmp(received, expected) (R214): a match exactly when the tags are equal (R213). -/
def apiTagCmp (received expected : Block) : ApiResult :=
  if received = expected then .ok [] else .error .authenticationFailed

/-- GCMEncrypt(plaintext, key, nonce, aad) (R218). -/
def apiGcmEncrypt (p key nonce a : Bytes) : ApiResult :=
  withKey key fun rk =>
    withNonce nonce <|
      if counterOverflows p.length then .error .counterOverflow
      else
        let c := gcmStream rk nonce p
        .ok (c ++ (gcmTag rk nonce a c).toList)

/-- GCMDecrypt(ciphertext ‖ tag, key, nonce, aad) (R221). -/
def apiGcmDecrypt (input key nonce a : Bytes) : ApiResult :=
  if input.length < Config.tagBytes then .error .ciphertextTooShort
  else
    withKey key fun rk =>
      withNonce nonce <|
        if tagPart input = gcmTag rk nonce a (ciphertextPart input) then
          if counterOverflows (ciphertextPart input).length then .error .counterOverflow
          else .ok (gcmStream rk nonce (ciphertextPart input))
        else .error .authenticationFailed

/-- The operands an operation may read. -/
structure Operands where
  key : Bytes
  nonce : Bytes
  a : Block
  b : Block
  aad : Bytes
  data : Bytes
  deriving DecidableEq, Repr

/-- The transaction of an operation as one function of its operands (00_scope.md R8, 30_encoding.md R82), for the
parameter values of this machine. -/
def transaction : Instr → Operands → ApiResult
  | .keyexp, x => apiKeyExpand x.key
  | .encblk, x => apiEncryptBlock x.a x.key
  | .decblk, x => apiDecryptBlock x.a x.key
  | .pad, x => apiPad x.data
  | .unpad, x => apiUnpad x.data
  | .cbcenc, x => apiCbcEncrypt x.data x.key x.a
  | .cbcdec, x => apiCbcDecrypt x.data x.key x.a
  | .ctrxfrm, x => apiCtrTransform Config.ctrFieldBits x.data x.key x.a
  | .gfmul, x => apiGfMul x.a x.b
  | .ghash, x => apiGhash x.a x.aad x.data
  | .taggen, x => apiTagGen x.key x.nonce x.aad x.data
  | .tagcmp, x => apiTagCmp x.a x.b
  | .gcmenc, x => apiGcmEncrypt x.data x.key x.nonce x.aad
  | .gcmdec, x => apiGcmDecrypt x.data x.key x.nonce x.aad

/-- The operands that stand in the slots; what is put for a slot that holds no value has no effect on a result, since no
operation that reads such a slot answers one. -/
def operandsOf (s : State) : Operands where
  key := s.P_KEY.getD []
  nonce := s.P_NONCE.getD []
  a := s.P_A.getD zeroBlock
  b := s.P_B.getD zeroBlock
  aad := s.mem.AAD
  data := s.mem.DATA

/-- The end of a transaction in the state: release or error entry. -/
def settle (r : ApiResult) (s : State) : State :=
  match r with
  | .ok out => release out s
  | .error e => enterError e s

end Sys2Proof.Machine
end

