-- ==== Sys2Proof/WellFormed.lean ====
section
/-! DEFINITION. When a command is one the block gives a meaning: its code is not reserved, it carries every
operand its operation reads, and no buffer its operation reads is too long. An `Instr` by itself has no field
and so nothing to check. -/

namespace Sys2Proof

/-- `OP` values 0x00 and 0x0F to 0xFF select no operation (30_encoding.md R96). -/
def reservedOp (op : Byte) : Bool := op.toNat == 0x00 || decide (0x0F ≤ op.toNat)

/-- The command carries the slot: a register slot holds a value; a buffer always does (70_reset_and_hazards.md R272). -/
def Command.carries (c : Command) : Slot → Bool
  | .pKey => c.pKey.isSome
  | .pNonce => c.pNonce.isSome
  | .pA => c.pA.isSome
  | .pB => c.pB.isSome
  | .aad => true
  | .data => true

/-- The slot is no buffer longer than `MAX_LEN_BYTES` (20_memory.md R53). -/
def Command.fits (c : Command) : Slot → Bool
  | .aad => decide (c.aad.length ≤ Config.maxLenBytes)
  | .data => decide (c.data.length ≤ Config.maxLenBytes)
  | .pKey => true
  | .pNonce => true
  | .pA => true
  | .pB => true

/-- The command has a meaning: its code selects an operation (30_encoding.md R96), it carries every operand the
operation reads (70_reset_and_hazards.md R272), and each buffer the operation reads fits (20_memory.md R53). -/
def Command.wellFormed (c : Command) : Bool :=
  !reservedOp c.op &&
  match decodeOp c.op with
  | some i => (slotsRead i).all c.carries && (slotsRead i).all c.fits
  | none => false

end Sys2Proof
end

