-- ==== Sys2Proof/Safety.lean ====
section
/-! DEFINITION. What counts as a safe run: the invariant between operations, what the host part of the state is, when a
command is admitted, which error an operation may report, and the operations' phases. -/

namespace Sys2Proof.Machine

/-- Between operations: `PHASE = IDLE` and every working register holds no value (10_state.md R34). -/
structure Quiescent (s : State) : Prop where
  phase : s.PHASE = .idle
  blk : s.BLK = none
  key : s.KEY = none
  rk : s.RK = none
  cipherState : s.S = none
  chain : s.CHAIN = none
  cb : s.CB = none
  ks : s.KS = none
  h : s.H = none
  acc : s.ACC = none
  v : s.V = none
  z : s.Z = none
  j0 : s.J0 = none
  mask : s.MASK = none
  tag : s.TAG = none
  diff : s.DIFF = none
  pbuf : s.PBUF = none
  rbuf : s.RBUF = none

/-- The result registers agree with one another: `ERR` is 0x00 exactly when `STATUS` is not `ERROR`, and `OUT` is empty
unless `STATUS` is `OK` (10_state.md R21, R22). -/
structure ResultConsistent (s : State) : Prop where
  err : s.ERR = none ↔ s.STATUS ≠ .error
  out : s.STATUS ≠ .ok → s.mem.OUT = []

/-- The invariant of the machine between operations. -/
structure Inv (s : State) : Prop where
  quiescent : Quiescent s
  result : ResultConsistent s

/-- What the host writes and the core never does: `OP`, the operand slots, and every byte of `AAD` and `DATA`
(10_state.md R21, 20_memory.md R67). -/
structure SameHostPart (s t : State) : Prop where
  op : t.OP = s.OP
  pKey : t.P_KEY = s.P_KEY
  pNonce : t.P_NONCE = s.P_NONCE
  pA : t.P_A = s.P_A
  pB : t.P_B = s.P_B
  aad : ∀ off : Nat, t.mem.AAD[off]? = s.mem.AAD[off]?
  data : ∀ off : Nat, t.mem.DATA[off]? = s.mem.DATA[off]?

/-- The slot can be read: a register slot holds a value (00_scope.md R16), a buffer is not longer than `MAX_LEN_BYTES`
(20_memory.md R53). -/
def readable (s : State) : Slot → Bool
  | .pKey => s.P_KEY.isSome
  | .pNonce => s.P_NONCE.isSome
  | .pA => s.P_A.isSome
  | .pB => s.P_B.isSome
  | .aad => decide (s.mem.AAD.length ≤ Config.maxLenBytes)
  | .data => decide (s.mem.DATA.length ≤ Config.maxLenBytes)

/-- No buffer that the operation reads is longer than `MAX_LEN_BYTES` (20_memory.md R53): the command is taken at issue. -/
def fits (s : State) : Slot → Bool
  | .pKey => true
  | .pNonce => true
  | .pA => true
  | .pB => true
  | .aad => decide (s.mem.AAD.length ≤ Config.maxLenBytes)
  | .data => decide (s.mem.DATA.length ≤ Config.maxLenBytes)

/-- The command that stands in the slots is admitted for an operation: every slot the operation reads can be read
(70_reset_and_hazards.md R272, R274). -/
def admitted (i : Instr) (s : State) : Bool := (slotsRead i).all (readable s)

/-- The two states hold the same in a slot (30_encoding.md R83). -/
def agreeOn (s t : State) : Slot → Prop
  | .pKey => s.P_KEY = t.P_KEY
  | .pNonce => s.P_NONCE = t.P_NONCE
  | .pA => s.P_A = t.P_A
  | .pB => s.P_B = t.P_B
  | .aad => s.mem.AAD = t.mem.AAD
  | .data => s.mem.DATA = t.mem.DATA

/-- The errors an operation can raise, in its test order (60_exceptions.md R237). -/
def mayRaise : Instr → List Err
  | .keyexp => [.invalidKeyLength]
  | .encblk => [.invalidKeyLength]
  | .decblk => [.invalidKeyLength]
  | .pad => []
  | .unpad => [.invalidPadding]
  | .cbcenc => [.invalidKeyLength]
  | .cbcdec => [.invalidCiphertextLength, .invalidKeyLength, .invalidPadding]
  | .ctrxfrm => [.invalidKeyLength, .counterOverflow]
  | .gfmul => []
  | .ghash => []
  | .taggen => [.invalidKeyLength, .invalidNonceLength]
  | .tagcmp => [.authenticationFailed]
  | .gcmenc => [.invalidKeyLength, .invalidNonceLength, .counterOverflow]
  | .gcmdec => [.ciphertextTooShort, .invalidKeyLength, .invalidNonceLength, .authenticationFailed, .counterOverflow]

/-- The exact cause of an error as a predicate on the operands (60_exceptions.md R236). -/
def causeHolds (i : Instr) (x : Operands) : Err → Prop
  | .invalidKeyLength => x.key.length ≠ 16
  | .invalidNonceLength => x.nonce.length ≠ 12
  | .invalidCiphertextLength => x.data.length = 0 ∨ x.data.length % 16 ≠ 0
  | .ciphertextTooShort => x.data.length < 16
  | .invalidPadding =>
    unpadBytes 16 (if i = .cbcdec then cbcDecFrom (keyExpand (blockOf x.key)) x.a (chunks x.data) else x.data) = none
  | .counterOverflow => nchunks (if i = .gcmdec then x.data.length - 16 else x.data.length) > 2 ^ 32
  | .authenticationFailed =>
    if i = .tagcmp then x.a ≠ x.b
    else tagPart x.data ≠ gcmTag (keyExpand (blockOf x.key)) x.nonce x.aad (ciphertextPart x.data)

/-- The operation that each meaning runs, for the parameter values of this machine. -/
def operationOf : Instr → Operation
  | .keyexp => keyexpOp
  | .encblk => encblkOp
  | .decblk => decblkOp
  | .pad => padOp
  | .unpad => unpadOp
  | .cbcenc => cbcencOp
  | .cbcdec => cbcdecOp
  | .ctrxfrm => ctrxfrmOp Config.ctrFieldBits Config.wrapPolicy
  | .gfmul => gfmulOp
  | .ghash => ghashOp
  | .taggen => taggenOp
  | .tagcmp => tagcmpOp
  | .gcmenc => gcmencOp Config.wrapPolicy
  | .gcmdec => gcmdecOp Config.wrapPolicy

/-- The phases an operation's stages stand in, in order, then `COMMIT`. -/
def Operation.phases (o : Operation) : List Phase := (o.stages.map Stage.phase).destutter (· ≠ ·) ++ [.commit]

/-- The phases of an operation, as its rule lists them. -/
def phasesOf : Instr → List Phase
  | .keyexp => [.keychk, .keyexp, .commit]
  | .encblk => [.keychk, .keyexp, .rounds, .commit]
  | .decblk => [.keychk, .keyexp, .rounds, .commit]
  | .pad => [.pad, .commit]
  | .unpad => [.unpad, .commit]
  | .cbcenc => [.keychk, .keyexp, .pad, .chain, .commit]
  | .cbcdec => [.len, .keychk, .keyexp, .chain, .unpad, .commit]
  | .ctrxfrm => [.keychk, .count, .keyexp, .ctr, .commit]
  | .gfmul => [.mul, .commit]
  | .ghash => [.hash, .commit]
  | .taggen => [.keychk, .noncechk, .keyexp, .subkey, .mask, .hash, .tag, .commit]
  | .tagcmp => [.compare, .commit]
  | .gcmenc => [.keychk, .noncechk, .keyexp, .subkey, .j0, .count, .ctr, .mask, .hash, .tag, .commit]
  | .gcmdec => [.len, .keychk, .noncechk, .keyexp, .subkey, .mask, .hash, .tag, .compare, .ctr, .commit]

/-- The result of a function over byte strings, as the host's call sees it. -/
def callOf (r : ApiResult) : CallResult :=
  match r with
  | .ok out => .ok out
  | .error e => .error e

/-- The host-readable part of how a transaction ended. -/
def resultOf (x : Host.Outcome State Fault Refusal) : Option ResultTriple :=
  match x with
  | .next t => some t.result
  | .fault _ => none
  | .refused _ => none

end Sys2Proof.Machine
end

