-- ==== Sys2Proof/Certificates/Slice0/Obligations.lean ====
section
/-! DEFINITION. The statements about this model, for the provers. `OBLIGATIONS.json` lists them with their rules. -/

open Sys2Proof Sys2Proof.Machine

/-! ### Encoding, issue, reset -/

/-- 30_encoding.md R80, R82: an operation's command word decodes to it and leaves what follows; and a word that decodes
is the word of its operation, so no two words select one operation and no bit of the word is dropped. -/
def Obligations.DecodeAndEncodeAgree : Prop :=
  (∀ (i : Instr) (rest : Bytes), decode (encode i ++ rest) = .ok (i, rest)) ∧
  ∀ (bytes rest : Bytes) (i : Instr), decode bytes = .ok (i, rest) → encode i ++ rest = bytes

/-- 30_encoding.md R82: the fourteen command words, written out from the operation map. -/
def Obligations.OperationMapWords : Prop :=
  (decodeTableWord 8 0x01 = some .keyexp ∧ decodeTableWord 8 0x02 = some .encblk ∧
    decodeTableWord 8 0x03 = some .decblk ∧ decodeTableWord 8 0x04 = some .pad ∧
    decodeTableWord 8 0x05 = some .unpad ∧ decodeTableWord 8 0x06 = some .cbcenc ∧
    decodeTableWord 8 0x07 = some .cbcdec) ∧
  decodeTableWord 8 0x08 = some .ctrxfrm ∧ decodeTableWord 8 0x09 = some .gfmul ∧
    decodeTableWord 8 0x0A = some .ghash ∧ decodeTableWord 8 0x0B = some .taggen ∧
    decodeTableWord 8 0x0C = some .tagcmp ∧ decodeTableWord 8 0x0D = some .gcmenc ∧
    decodeTableWord 8 0x0E = some .gcmdec

/-- 30_encoding.md R96: the codes 0x00 and 0x0F to 0xFF, and no others, select no operation; a command with one of them
is refused, in every state in which a command can be issued. -/
def Obligations.ReservedCodesAreRefused : Prop :=
  (∀ op : Byte, decodeOp op = none ↔ op.toNat = 0x00 ∨ (0x0F ≤ op.toNat ∧ op.toNat ≤ 0xFF)) ∧
  ∀ (s : State) (op : Byte), s.PHASE = .idle → s.OP = some op →
    (op.toNat = 0x00 ∨ 0x0F ≤ op.toNat) → step s = .refused (.reservedCode op)

/-- 10_state.md R22, R24: with no operation in progress, a step is the whole operation that the code in `OP` selects; it
adds nothing before or after (there is no program counter to move). -/
def Obligations.StepRunsTheDecodedOperation : Prop :=
  ∀ (s : State) (op : Byte) (i : Instr) (rest : Bytes), s.PHASE = .idle → s.OP = some op →
    decode [op] = .ok (i, rest) → step s = exec i s

/-- The model's choice (log 8, from 10_state.md R33 "the block waits for a command" and 70_reset_and_hazards.md R273):
before the host has written a command a step changes nothing, and with an operation in progress a command is refused. -/
def Obligations.StepWaitsWithoutCommandAndRefusesWhileBusy : Prop :=
  (∀ s : State, s.PHASE = .idle → s.OP = none → step s = .next s) ∧
  ∀ s : State, s.PHASE ≠ .idle → step s = .refused (.operationInProgress s.PHASE)

/-- 10_state.md R33, 70_reset_and_hazards.md R270, R271: what reset leaves, from every state, also one inside an
operation; and the state after reset is what reset leaves of itself. -/
def Obligations.ResetLeavesNoValueAndTouchesNoHostBuffer : Prop :=
  (∀ s : State,
    ((applyReset s).OP = none ∧ (applyReset s).P_KEY = none ∧ (applyReset s).P_NONCE = none ∧
      (applyReset s).P_A = none ∧ (applyReset s).P_B = none) ∧
    ((applyReset s).STATUS = .idle ∧ errCode (applyReset s).ERR = 0x00 ∧ (applyReset s).mem.OUT.length = 0) ∧
    Quiescent (applyReset s) ∧
    (applyReset s).mem.AAD = s.mem.AAD ∧ (applyReset s).mem.DATA = s.mem.DATA) ∧
  applyReset State.reset = State.reset

/-! ### Invariants and frames -/

/-- 10_state.md R33, R34: the invariant between operations holds after reset; that the host's buffers are within their legal
lengths there rests on the model's choice of empty buffers (log 5). -/
def Obligations.InvariantHoldsAtReset : Prop := Inv State.reset ∧ State.reset.mem.wf = true

/-- 10_state.md R34, R21: every step from a state that has the invariant (no phase in progress, no working register with
a value, `STATUS`, `ERR` and `OUT` agreeing) gives a state that has it. -/
def Obligations.StepKeepsTheInvariant : Prop :=
  ∀ s t : State, Inv s → step s = .next t → Inv t

/-- 20_memory.md R67, 10_state.md R34: the frame of every operation, from ANY state, reached or not. `OP`, every operand
slot and every byte of `AAD` and `DATA` read as before; every working register holds no value; only `STATUS`, `ERR` and
`OUT` may change, and they agree with one another. The legal lengths of the host's buffers are kept. -/
def Obligations.OperationsLeaveTheHostPartUnchanged : Prop :=
  ∀ (i : Instr) (s t : State), exec i s = .next t →
    SameHostPart s t ∧ Inv t ∧ (s.mem.wf = true → t.mem.wf = true)

/-- 20_memory.md R65, 10_state.md R23: in every state inside an operation the host's part stands as at issue, `STATUS`
and `ERR` are not yet written, and `OUT` shows nothing of the operation. That `OUT` is empty there, and not as at issue,
is the model's choice (log 12, DEDUCED). -/
def Obligations.NothingIsReleasedInsideAnOperation : Prop :=
  ∀ (i : Instr) (s u : State), u ∈ (operationOf i).states s →
    SameHostPart s u ∧ u.STATUS = s.STATUS ∧ u.ERR = s.ERR ∧ u.mem.OUT = []

/-- 10_state.md R24: inside an operation `PHASE` is one of the phases its rule lists, and advances only forward through
that list; an operation that ends without an error has passed through every phase of the list. From one state to the
next `BLK` stays, is 0 (the entry to a loop), or advances by 1 (a chunk). How finely the states are cut is the model's
choice (log 13), and so is that PAD, UNPAD and CBCENC copy in a chunk loop and that 33 bits wrap (log 10). -/
def Obligations.PhasesAdvanceForward : Prop :=
  ∀ (i : Instr) (s : State),
    (∀ u ∈ (operationOf i).states s, u.PHASE ∈ phasesOf i) ∧
    (((operationOf i).states s).Pairwise fun u v => (phasesOf i).idxOf u.PHASE ≤ (phasesOf i).idxOf v.PHASE) ∧
    (((operationOf i).states s).IsChain fun u v =>
      v.BLK = u.BLK ∨ v.BLK = some 0 ∨ ∃ b, u.BLK = some b ∧ v.BLK = some (b + 1)) ∧
    ∀ t, exec i s = .next t → t.ERR = none → ∀ p ∈ phasesOf i, ∃ u ∈ (operationOf i).states s, u.PHASE = p

/-- 10_state.md R26: once key expansion has written the round-key file, no later step of the operation writes it. -/
def Obligations.RoundKeysAreImmutableOnceDerived : Prop :=
  ∀ (i : Instr) (s : State),
    ((operationOf i).states s).Pairwise fun u v => u.RK ≠ none → v.RK = u.RK ∧ v.KEY = u.KEY

/-- 70_reset_and_hazards.md R270: no operation, from any state and with any operand missing, reads a working register before
it has written it. A fault is always an operand slot that the command does not carry and the operation reads. -/
def Obligations.NoWorkingRegisterIsReadUnwritten : Prop :=
  ∀ (i : Instr) (s : State) (r : Reg), exec i s = .fault (.noValue r) →
    (r = .P_KEY ∧ .pKey ∈ slotsRead i ∧ s.P_KEY = none) ∨ (r = .P_NONCE ∧ .pNonce ∈ slotsRead i ∧ s.P_NONCE = none) ∨
    (r = .P_A ∧ .pA ∈ slotsRead i ∧ s.P_A = none) ∨ (r = .P_B ∧ .pB ∈ slotsRead i ∧ s.P_B = none)

/-- 70_reset_and_hazards.md R272, R274, 60_exceptions.md R236 to R238: every admitted command ends, with `STATUS = OK`, or
with `STATUS = ERROR` and one of the errors its operation can raise. A command with a buffer that is too long is refused.
A command that is not admitted for want of an operand never releases: it reports an error that the operation finds before
it reads the operand, or stops where it reads it. The model's choices in it: that this stop is a fault (log 1), that a
buffer is looked at before any error (log 11), and that no admitted command is refused for a counter that wraps
(log 4). -/
def Obligations.EveryAdmittedCommandEnds : Prop :=
  (∀ (i : Instr) (s : State), admitted i s = true →
    ∃ t, exec i s = .next t ∧
      ((t.STATUS = .ok ∧ t.ERR = none) ∨
        (t.STATUS = .error ∧ t.mem.OUT = [] ∧ ∃ e ∈ mayRaise i, t.ERR = some e))) ∧
  (∀ (i : Instr) (s : State), (slotsRead i).all (fits s) = false → ∃ b, exec i s = .refused (.bufferTooLong b)) ∧
  ∀ (i : Instr) (s : State), (slotsRead i).all (fits s) = true → admitted i s = false →
    (∃ r, exec i s = .fault (.noValue r)) ∨ ∃ e ∈ mayRaise i, exec i s = .next (enterError e s)

/-- 00_scope.md R8: each operation, run stage by stage on the working registers, answers what its one function of the
operands answers, released or reported, and nothing else of the state changes. The functions of CTRXFRM, GCMENC and
GCMDEC rest on the model's choices of a 32-bit field (log 3) and of the wrap policy (log 4). -/
def Obligations.OperationsRefineTheirFunctions : Prop :=
  ∀ (i : Instr) (s : State), admitted i s = true →
    exec i s = .next (settle (transaction i (operandsOf s)) s)

/-- 60_exceptions.md R238, R236: the error reported is the first in the operation's test order whose cause holds; with
no error reported, no cause holds. -/
def Obligations.TheFirstCauseInTestOrderIsReported : Prop :=
  ∀ (i : Instr) (s t : State), exec i s = .next t →
    (∀ e, t.ERR = some e → ∃ before after, mayRaise i = before ++ e :: after ∧ causeHolds i (operandsOf s) e ∧
      ∀ e' ∈ before, ¬ causeHolds i (operandsOf s) e') ∧
    (t.ERR = none → ∀ e ∈ mayRaise i, ¬ causeHolds i (operandsOf s) e)

/-- 60_exceptions.md R240, R243, 45_gcm.md R224: a failing operation has no effect but
`(STATUS, ERR, OUT) = (ERROR, code, empty)`: the state after it is determined by the command and the code alone,
whatever the cause was. A success changes only the result registers. -/
def Obligations.AFailureTellsOnlyItsCode : Prop :=
  ∀ (i : Instr) (s t : State), exec i s = .next t →
    (∀ e, t.ERR = some e → t = enterError e s) ∧ (t.ERR = none → t = release t.mem.OUT s)

/-- 20_memory.md R65, 10_state.md R21, R34, 60_exceptions.md R235, R240: what release and error entry write, field by
field, with the codes of `STATUS` and `ERR`. -/
def Obligations.ReleaseAndErrorEntryWriteTheResult : Prop :=
  (errCode none = 0x00 ∧ errCode (some .invalidKeyLength) = 0x01 ∧ errCode (some .invalidNonceLength) = 0x02 ∧
    errCode (some .invalidCiphertextLength) = 0x03 ∧ errCode (some .ciphertextTooShort) = 0x04 ∧
    errCode (some .invalidPadding) = 0x05 ∧ errCode (some .counterOverflow) = 0x06 ∧
    errCode (some .authenticationFailed) = 0x07) ∧
  (statusCode .idle = 0 ∧ statusCode .ok = 1 ∧ statusCode .error = 2) ∧
  (∀ (out : Bytes) (s : State),
    (release out s).STATUS = .ok ∧ errCode (release out s).ERR = 0x00 ∧ (release out s).mem.OUT = out ∧
      Quiescent (release out s) ∧ SameHostPart s (release out s)) ∧
  ∀ (e : Err) (s : State),
    (enterError e s).STATUS = .error ∧ (enterError e s).ERR = some e ∧ (enterError e s).mem.OUT = [] ∧
      Quiescent (enterError e s) ∧ SameHostPart s (enterError e s)

/-- 30_encoding.md R83: the slots each operation reads; a slot that an operation does not read has no effect: two states
that agree on the slots it reads get the same result triple, or both none. -/
def Obligations.IgnoredSlotsHaveNoEffect : Prop :=
  (slotsRead .keyexp = [.pKey] ∧ slotsRead .encblk = [.pKey, .pA] ∧ slotsRead .decblk = [.pKey, .pA] ∧
    slotsRead .pad = [.data] ∧ slotsRead .unpad = [.data] ∧ slotsRead .cbcenc = [.pKey, .pA, .data] ∧
    slotsRead .cbcdec = [.pKey, .pA, .data] ∧ slotsRead .ctrxfrm = [.pKey, .pA, .data] ∧
    slotsRead .gfmul = [.pA, .pB] ∧ slotsRead .ghash = [.pA, .aad, .data] ∧
    slotsRead .taggen = [.pKey, .pNonce, .aad, .data] ∧ slotsRead .tagcmp = [.pA, .pB] ∧
    slotsRead .gcmenc = [.pKey, .pNonce, .aad, .data] ∧ slotsRead .gcmdec = [.pKey, .pNonce, .aad, .data]) ∧
  ∀ (i : Instr) (s t : State), (∀ k ∈ slotsRead i, agreeOn s t k) → resultOf (exec i s) = resultOf (exec i t)

/-- 60_exceptions.md R241, R242, 70_reset_and_hazards.md R290: the same command issued again gives the same result, an
error the same error; nothing is left over and nothing need be cleared. -/
def Obligations.ReissueGivesTheSameResult : Prop :=
  ∀ (i : Instr) (s t : State), exec i s = .next t → exec i t = .next t

/-! ### The meanings of the fourteen operations -/

/-- 40_block_cipher.md R129. -/
def Obligations.KeyexpReturnsTheSchedule : Prop :=
  (operationOf .keyexp).phases = [.keychk, .keyexp, .commit] ∧
  ∀ (s : State) (k : Bytes), s.P_KEY = some k →
    (k.length = 16 →
      exec .keyexp s = .next (release (scheduleBytes (keyExpand (blockOf k))) s) ∧
        (scheduleBytes (keyExpand (blockOf k))).length = 176 ∧
        (scheduleBytes (keyExpand (blockOf k))).take 16 = k) ∧
    (k.length ≠ 16 → exec .keyexp s = .next (enterError .invalidKeyLength s))

/-- 40_block_cipher.md R130. -/
def Obligations.EncblkEncryptsTheBlock : Prop :=
  (operationOf .encblk).phases = [.keychk, .keyexp, .rounds, .commit] ∧
  ∀ (s : State) (k : Bytes), s.P_KEY = some k →
    (k.length = 16 → ∀ b : Block, s.P_A = some b →
      exec .encblk s = .next (release (cipher (keyExpand (blockOf k)) b).toList s)) ∧
    (k.length ≠ 16 → exec .encblk s = .next (enterError .invalidKeyLength s))

/-- 40_block_cipher.md R131. -/
def Obligations.DecblkDecryptsTheBlock : Prop :=
  (operationOf .decblk).phases = [.keychk, .keyexp, .rounds, .commit] ∧
  ∀ (s : State) (k : Bytes), s.P_KEY = some k →
    (k.length = 16 → ∀ b : Block, s.P_A = some b →
      exec .decblk s = .next (release (invCipher (keyExpand (blockOf k)) b).toList s)) ∧
    (k.length ≠ 16 → exec .decblk s = .next (enterError .invalidKeyLength s))

/-- 41_padding.md R150. -/
def Obligations.PadAppendsTheCountBytes : Prop :=
  (operationOf .pad).phases = [.pad, .commit] ∧
  ∀ s : State, s.mem.DATA.length ≤ 2 ^ 61 - 1 →
    exec .pad s = .next (release (padBytes 16 s.mem.DATA) s) ∧
      padBytes 16 s.mem.DATA =
        s.mem.DATA ++ List.replicate (16 - s.mem.DATA.length % 16) (BitVec.ofNat 8 (16 - s.mem.DATA.length % 16)) ∧
      (padBytes 16 s.mem.DATA).length = 16 * (s.mem.DATA.length / 16 + 1)

/-- 41_padding.md R152: with `p` the last byte, the data without its last `p` bytes where `p` is 1 to 16, at most the
length, and each of the last `p` bytes is `p`; otherwise, and for empty data, `InvalidPadding`. -/
def Obligations.UnpadStripsConsistentPaddingOnly : Prop :=
  (operationOf .unpad).phases = [.unpad, .commit] ∧
  ∀ s : State, s.mem.DATA.length ≤ 2 ^ 61 - 1 →
    (∀ p : Byte, s.mem.DATA.getLast? = some p → p.toNat ≠ 0 → p.toNat ≤ 16 → p.toNat ≤ s.mem.DATA.length →
      (∀ j, 1 ≤ j → j ≤ p.toNat → s.mem.DATA[s.mem.DATA.length - j]? = some p) →
      exec .unpad s = .next (release (s.mem.DATA.take (s.mem.DATA.length - p.toNat)) s)) ∧
    (s.mem.DATA = [] → exec .unpad s = .next (enterError .invalidPadding s)) ∧
    ∀ p : Byte, s.mem.DATA.getLast? = some p →
      (p.toNat = 0 ∨ p.toNat > 16 ∨ p.toNat > s.mem.DATA.length ∨
        ∃ j, 1 ≤ j ∧ j ≤ p.toNat ∧ s.mem.DATA[s.mem.DATA.length - j]? ≠ some p) →
      exec .unpad s = .next (enterError .invalidPadding s)

/-- 42_cbc.md R162. -/
def Obligations.CbcencChainsThePaddedBlocks : Prop :=
  (operationOf .cbcenc).phases = [.keychk, .keyexp, .pad, .chain, .commit] ∧
  ∀ (s : State) (k : Bytes), s.P_KEY = some k → s.mem.DATA.length ≤ 2 ^ 61 - 1 →
    (k.length = 16 → ∀ iv : Block, s.P_A = some iv →
      exec .cbcenc s =
        .next (release (cbcEncFrom (keyExpand (blockOf k)) iv (chunks (padBytes 16 s.mem.DATA))) s) ∧
      (cbcEncFrom (keyExpand (blockOf k)) iv (chunks (padBytes 16 s.mem.DATA))).length =
        16 * (s.mem.DATA.length / 16 + 1)) ∧
    (k.length ≠ 16 → exec .cbcenc s = .next (enterError .invalidKeyLength s))

/-- 42_cbc.md R165, with its test order. -/
def Obligations.CbcdecUnchainsAndUnpads : Prop :=
  (operationOf .cbcdec).phases = [.len, .keychk, .keyexp, .chain, .unpad, .commit] ∧
  ∀ s : State, s.mem.DATA.length ≤ 2 ^ 61 - 1 →
    ((s.mem.DATA.length = 0 ∨ s.mem.DATA.length % 16 ≠ 0) →
      exec .cbcdec s = .next (enterError .invalidCiphertextLength s)) ∧
    ∀ k : Bytes, s.P_KEY = some k → s.mem.DATA.length ≠ 0 → s.mem.DATA.length % 16 = 0 →
      (k.length ≠ 16 → exec .cbcdec s = .next (enterError .invalidKeyLength s)) ∧
      (k.length = 16 → ∀ iv : Block, s.P_A = some iv →
        (∀ p, unpadBytes 16 (cbcDecFrom (keyExpand (blockOf k)) iv (chunks s.mem.DATA)) = some p →
          exec .cbcdec s = .next (release p s)) ∧
        (unpadBytes 16 (cbcDecFrom (keyExpand (blockOf k)) iv (chunks s.mem.DATA)) = none →
          exec .cbcdec s = .next (enterError .invalidPadding s)))

/-- 43_ctr.md R180, R181, with the model's choices of a 32-bit field (log 3) and of the wrap policy (log 4). -/
def Obligations.CtrxfrmXorsTheKeystream : Prop :=
  (operationOf .ctrxfrm).phases = [.keychk, .count, .keyexp, .ctr, .commit] ∧
  ∀ (s : State) (k : Bytes), s.P_KEY = some k → s.mem.DATA.length ≤ 2 ^ 61 - 1 →
    (k.length ≠ 16 → exec .ctrxfrm s = .next (enterError .invalidKeyLength s)) ∧
    (k.length = 16 → s.mem.DATA.length > 2 ^ 36 → exec .ctrxfrm s = .next (enterError .counterOverflow s)) ∧
    (k.length = 16 → s.mem.DATA.length ≤ 2 ^ 36 → ∀ cb : Block, s.P_A = some cb →
      exec .ctrxfrm s = .next (release (ctrFrom .w32 (keyExpand (blockOf k)) cb (chunks s.mem.DATA)) s) ∧
      (ctrFrom .w32 (keyExpand (blockOf k)) cb (chunks s.mem.DATA)).length = s.mem.DATA.length)

/-- 43_ctr.md R176, R183: CTRXFRM for both values of `CTR_FIELD_BITS` and of `WRAP_POLICY`. Under `refuse` a call whose
field would pass its top has no meaning; every other call, and every call under `wrap`, has the one meaning, the field
taken modulo 2^W; the errors are the same. That under `refuse` a wrong key or more than 2^32 chunks still reports its
error is the model's choice of where the refuse test stands (log 13). -/
def Obligations.CtrxfrmForEveryWidthAndWrapPolicy : Prop :=
  ∀ (W : CtrFieldBits) (policy : WrapPolicy) (s : State) (k : Bytes),
    s.P_KEY = some k → s.mem.DATA.length ≤ 2 ^ 61 - 1 →
    (k.length ≠ 16 → execCtrxfrmWith W policy s = .next (enterError .invalidKeyLength s)) ∧
    (k.length = 16 → nchunks s.mem.DATA.length > 2 ^ 32 →
      execCtrxfrmWith W policy s = .next (enterError .counterOverflow s)) ∧
    (k.length = 16 → nchunks s.mem.DATA.length ≤ 2 ^ 32 → ∀ cb : Block, s.P_A = some cb →
      (policy = .refuse → counterField W cb + nchunks s.mem.DATA.length > 2 ^ W.bits →
        execCtrxfrmWith W policy s = .refused .counterWraps) ∧
      (policy = .wrap ∨ counterField W cb + nchunks s.mem.DATA.length ≤ 2 ^ W.bits →
        execCtrxfrmWith W policy s =
          .next (release (ctrFrom W (keyExpand (blockOf k)) cb (chunks s.mem.DATA)) s)))

/-- 44_gf128_ghash.md R194. -/
def Obligations.GfmulMultiplies : Prop :=
  (operationOf .gfmul).phases = [.mul, .commit] ∧
  ∀ (s : State) (x y : Block), s.P_A = some x → s.P_B = some y →
    exec .gfmul s = .next (release (gfMul x y).toList s)

/-- 44_gf128_ghash.md R198, R197. -/
def Obligations.GhashHashesAadThenCiphertext : Prop :=
  (operationOf .ghash).phases = [.hash, .commit] ∧
  ∀ (s : State) (h : Block), s.P_A = some h → s.mem.AAD.length ≤ 2 ^ 61 - 1 → s.mem.DATA.length ≤ 2 ^ 61 - 1 →
    exec .ghash s = .next (release (ghash h s.mem.AAD s.mem.DATA).toList s)

/-- 45_gcm.md R216, R211. -/
def Obligations.TaggenReturnsTheTag : Prop :=
  (operationOf .taggen).phases = [.keychk, .noncechk, .keyexp, .subkey, .mask, .hash, .tag, .commit] ∧
  ∀ (s : State) (k : Bytes), s.P_KEY = some k → s.mem.AAD.length ≤ 2 ^ 61 - 1 → s.mem.DATA.length ≤ 2 ^ 61 - 1 →
    (k.length ≠ 16 → exec .taggen s = .next (enterError .invalidKeyLength s)) ∧
    (k.length = 16 → ∀ n : Bytes, s.P_NONCE = some n →
      (n.length ≠ 12 → exec .taggen s = .next (enterError .invalidNonceLength s)) ∧
      (n.length = 12 →
        exec .taggen s =
          .next (release
            (xorVec (ghash (cipher (keyExpand (blockOf k)) zeroBlock) s.mem.AAD s.mem.DATA)
              (cipher (keyExpand (blockOf k)) (blockOf (n ++ [0, 0, 0, 1])))).toList s)))

/-- 45_gcm.md R214, R213, 30_encoding.md R95. -/
def Obligations.TagcmpTellsOnlyEquality : Prop :=
  (operationOf .tagcmp).phases = [.compare, .commit] ∧
  ∀ (s : State) (a b : Block), s.P_A = some a → s.P_B = some b →
    (a = b → exec .tagcmp s = .next (release [] s)) ∧
    (a ≠ b → exec .tagcmp s = .next (enterError .authenticationFailed s))

/-- 45_gcm.md R218, with its test order. For the two wrapping counts, 2^32 - 1 and 2^32 chunks, the release is the model's
choice of the wrap policy (log 4). -/
def Obligations.GcmencEncryptsAndTags : Prop :=
  (operationOf .gcmenc).phases =
    [.keychk, .noncechk, .keyexp, .subkey, .j0, .count, .ctr, .mask, .hash, .tag, .commit] ∧
  ∀ (s : State) (k : Bytes), s.P_KEY = some k → s.mem.AAD.length ≤ 2 ^ 61 - 1 → s.mem.DATA.length ≤ 2 ^ 61 - 1 →
    (k.length ≠ 16 → exec .gcmenc s = .next (enterError .invalidKeyLength s)) ∧
    (k.length = 16 → ∀ n : Bytes, s.P_NONCE = some n →
      (n.length ≠ 12 → exec .gcmenc s = .next (enterError .invalidNonceLength s)) ∧
      (n.length = 12 → s.mem.DATA.length > 2 ^ 36 → exec .gcmenc s = .next (enterError .counterOverflow s)) ∧
      (n.length = 12 → s.mem.DATA.length ≤ 2 ^ 36 →
        exec .gcmenc s =
          .next (release
            (gcmStream (keyExpand (blockOf k)) n s.mem.DATA ++
              (gcmTag (keyExpand (blockOf k)) n s.mem.AAD
                (gcmStream (keyExpand (blockOf k)) n s.mem.DATA)).toList) s) ∧
        (gcmStream (keyExpand (blockOf k)) n s.mem.DATA).length = s.mem.DATA.length))

/-- 45_gcm.md R221, R220, with its test order. For the two wrapping counts, 2^32 - 1 and 2^32 chunks, the release is the
model's choice of the wrap policy (log 4). -/
def Obligations.GcmdecVerifiesThenDecrypts : Prop :=
  (operationOf .gcmdec).phases =
    [.len, .keychk, .noncechk, .keyexp, .subkey, .mask, .hash, .tag, .compare, .ctr, .commit] ∧
  ∀ s : State, s.mem.AAD.length ≤ 2 ^ 61 - 1 → s.mem.DATA.length ≤ 2 ^ 61 - 1 →
    (s.mem.DATA.length < 16 → exec .gcmdec s = .next (enterError .ciphertextTooShort s)) ∧
    ∀ k : Bytes, s.P_KEY = some k →
      (16 ≤ s.mem.DATA.length → k.length ≠ 16 → exec .gcmdec s = .next (enterError .invalidKeyLength s)) ∧
      (k.length = 16 → ∀ n : Bytes, s.P_NONCE = some n →
        (16 ≤ s.mem.DATA.length → n.length ≠ 12 → exec .gcmdec s = .next (enterError .invalidNonceLength s)) ∧
        (n.length = 12 → ∀ (c : Bytes) (t : Block), s.mem.DATA = c ++ t.toList →
          (t ≠ gcmTag (keyExpand (blockOf k)) n s.mem.AAD c →
            exec .gcmdec s = .next (enterError .authenticationFailed s)) ∧
          (t = gcmTag (keyExpand (blockOf k)) n s.mem.AAD c → c.length > 2 ^ 36 →
            exec .gcmdec s = .next (enterError .counterOverflow s)) ∧
          (t = gcmTag (keyExpand (blockOf k)) n s.mem.AAD c → c.length ≤ 2 ^ 36 →
            exec .gcmdec s = .next (release (gcmStream (keyExpand (blockOf k)) n c) s))))

/-! ### The micro-operations and the laws of the families -/

/-- 40_block_cipher.md R111: multiplication in GF(2^8). -/
def Obligations.GmulIsFieldMultiplication : Prop :=
  (∀ a b : Byte, gmul a b = gmul b a) ∧ (∀ a b c : Byte, gmul (gmul a b) c = gmul a (gmul b c)) ∧
  (∀ a b c : Byte, gmul a (b ^^^ c) = gmul a b ^^^ gmul a c) ∧ (∀ a : Byte, gmul a 0 = 0) ∧
  (∀ a : Byte, gmul a 1 = a) ∧ (∀ a : Byte, gmul a 2 = xtime a) ∧ ∀ a : Byte, gmul a 3 = xtime a ^^^ a

/-- 40_block_cipher.md R114: the table is the field inverse followed by the affine map. -/
def Obligations.SboxIsInverseThenAffineMap : Prop :=
  ∀ a : Byte, ∃ b : Byte, (a = 0 → b = 0) ∧ (a ≠ 0 → gmul a b = 1) ∧
    sbox a = b ^^^ b.rotateLeft 1 ^^^ b.rotateLeft 2 ^^^ b.rotateLeft 3 ^^^ b.rotateLeft 4 ^^^ 0x63

/-- 40_block_cipher.md R115, R118, R119: the rows of the column-by-column state are rotated left by their number, and
right by the inverse. -/
def Obligations.ShiftRowsRotatesRowByItsNumber : Prop :=
  ∀ (S : Block) (r c : Fin 4),
    (shiftRows S)[r.val + 4 * c.val] = S[r.val + 4 * ((c.val + r.val) % 4)] ∧
    (invShiftRows S)[r.val + 4 * c.val] = S[r.val + 4 * ((c.val + (4 - r.val)) % 4)]

/-- 40_block_cipher.md R113, R117, R119, R121, R122: each transformation of the state is undone by its inverse. -/
def Obligations.TransformationsAreInverted : Prop :=
  (∀ a : Byte, invSbox (sbox a) = a ∧ sbox (invSbox a) = a) ∧
  ∀ (S : Block) (rk : Schedule) (r : Fin 11),
    invSubBytes (subBytes S) = S ∧ invShiftRows (shiftRows S) = S ∧ invMixColumns (mixColumns S) = S ∧
    mixColumns (invMixColumns S) = S ∧ addRoundKey rk r (addRoundKey rk r S) = S

/-- 40_block_cipher.md R125, 10_state.md R26: the schedule's words by their recurrence, read through the word view of
the round-key file. -/
def Obligations.KeyScheduleFollowsItsRecurrence : Prop :=
  ∀ (key : Block) (i : Fin 44),
    (∀ h : i.val < 4, scheduleWord (keyExpand key) i = wordOf key ⟨i.val, h⟩) ∧
    ∀ h : 4 ≤ i.val,
      scheduleWord (keyExpand key) i =
        xorVec (scheduleWord (keyExpand key) ⟨i.val - 4, by omega⟩)
          (if i.val % 4 = 0 then
            xorVec (subWord (rotWord (scheduleWord (keyExpand key) ⟨i.val - 1, by omega⟩)))
              #v[rcon (i.val / 4), 0, 0, 0]
          else scheduleWord (keyExpand key) ⟨i.val - 1, by omega⟩)

/-- 40_block_cipher.md R128: for every schedule, so for every key, the cipher and its inverse undo each other on every
block. -/
def Obligations.CipherAndInvCipherUndoEachOther : Prop :=
  ∀ (rk : Schedule) (b : Block), invCipher rk (cipher rk b) = b ∧ cipher rk (invCipher rk b) = b

/-- 40_block_cipher.md R132: what ENCBLK released, put back as the block of DECBLK under the same key, gives the block,
and the other way round. -/
def Obligations.EncblkAndDecblkUndoEachOther : Prop :=
  ∀ (s t : State) (k : Bytes) (b : Block), s.P_KEY = some k → k.length = 16 → s.P_A = some b →
    (exec .encblk s = .next t →
      exec .decblk { t with P_A := some (blockOf t.mem.OUT) } =
        .next (release b.toList { t with P_A := some (blockOf t.mem.OUT) })) ∧
    (exec .decblk s = .next t →
      exec .encblk { t with P_A := some (blockOf t.mem.OUT) } =
        .next (release b.toList { t with P_A := some (blockOf t.mem.OUT) }))

/-- 41_padding.md R154, R151: unpadding undoes padding for every block size that fits one byte; padding is injective;
padding undoes unpadding on data whose length is a multiple of 16. -/
def Obligations.PadAndUnpadLaws : Prop :=
  (∀ (B : Nat) (d : Bytes), 1 ≤ B → B ≤ 255 → unpadBytes B (padBytes B d) = some d) ∧
  (∀ d d' : Bytes, padBytes 16 d = padBytes 16 d' → d = d') ∧
  ∀ x d : Bytes, unpadBytes 16 x = some d → x.length % 16 = 0 → padBytes 16 d = x

/-- 42_cbc.md R166: what CBCENC released, put back as the data of CBCDEC under the same key and IV, gives the plaintext,
for every plaintext, the empty one included, whose padded form fits the buffer. -/
def Obligations.CbcdecUndoesCbcenc : Prop :=
  ∀ (s t : State) (k : Bytes) (iv : Block), s.P_KEY = some k → k.length = 16 → s.P_A = some iv →
    s.mem.DATA.length + 16 ≤ 2 ^ 61 - 1 → exec .cbcenc s = .next t →
    exec .cbcdec { t with mem := { t.mem with DATA := t.mem.OUT } } =
      .next (release s.mem.DATA { t with mem := { t.mem with DATA := t.mem.OUT } })

/-- 43_ctr.md R177, R178: the counter block of chunk `j`: the field is the start value plus `j` modulo 2^W, the bytes
before it are untouched. -/
def Obligations.CounterBlockOfChunkInClosedForm : Prop :=
  ∀ (W : CtrFieldBits) (cb : Block) (j : Nat),
    counterField W (incN W j cb) = (counterField W cb + j) % 2 ^ W.bits ∧
    ∀ m : Fin 16, m.val < 16 - W.bytes → (incN W j cb)[m] = cb[m]

/-- 43_ctr.md R182: CTRXFRM applied to what it released gives the data back; where the field wraps, with the model's
choices of logs 3 and 4. -/
def Obligations.CtrxfrmIsItsOwnInverse : Prop :=
  ∀ (s t : State) (k : Bytes) (cb : Block), s.P_KEY = some k → k.length = 16 → s.P_A = some cb →
    s.mem.DATA.length ≤ 2 ^ 36 → exec .ctrxfrm s = .next t →
    exec .ctrxfrm { t with mem := { t.mem with DATA := t.mem.OUT } } =
      .next (release s.mem.DATA { t with mem := { t.mem with DATA := t.mem.OUT } })

/-- 20_memory.md R72: counter mode of a long message in two calls, split at a multiple of 16 bytes. -/
def Obligations.CounterModeSplitsAtBlockBoundaries : Prop :=
  ∀ (W : CtrFieldBits) (rk : Schedule) (cb : Block) (d1 d2 : Bytes) (n : Nat), d1.length = 16 * n →
    ctrFrom W rk cb (chunks (d1 ++ d2)) =
      ctrFrom W rk cb (chunks d1) ++ ctrFrom W rk (incN W n cb) (chunks d2)

/-- 43_ctr.md R181: the bound on a call, in chunks and in bytes. -/
def Obligations.CounterOverflowIsMoreThanTwoToTheThirtySixBytes : Prop :=
  ∀ len : Nat, (counterOverflows len = true ↔ nchunks len > 2 ^ 32) ∧ (counterOverflows len = true ↔ len > 2 ^ 36)

/-- 20_memory.md R59: the chunks of a buffer are its bytes in order; every chunk but the last has 16 bytes, the last 1
to 16; each lies inside the buffer; an empty buffer has none. -/
def Obligations.ChunksCoverTheBuffer : Prop :=
  ∀ buf : Bytes,
    (chunks buf).flatten = buf ∧ (chunks buf).length = nchunks buf.length ∧
    (∀ j, j + 1 < nchunks buf.length → (chunk buf j).length = 16) ∧
    (∀ j, j < nchunks buf.length → 1 ≤ (chunk buf j).length ∧ (chunk buf j).length ≤ 16 ∧
      16 * j + (chunk buf j).length ≤ buf.length) ∧
    chunks [] = []

/-- 44_gf128_ghash.md R195: zero absorbs, the product is commutative, `80 00 ... 00` is the identity. -/
def Obligations.GfMulAbsorbsZeroAndCommutes : Prop :=
  ∀ x y : Block, gfMul x zeroBlock = zeroBlock ∧ gfMul zeroBlock x = zeroBlock ∧ gfMul x y = gfMul y x ∧
    gfMul x (blockOf [0x80]) = x

/-- 44_gf128_ghash.md R195: the product is associative and distributes over `⊕`. -/
def Obligations.GfMulIsAssociativeAndDistributes : Prop :=
  ∀ x y z : Block, gfMul (gfMul x y) z = gfMul x (gfMul y z) ∧
    gfMul x (xorVec y z) = xorVec (gfMul x y) (gfMul x z)

/-- 44_gf128_ghash.md R199: GHASH is linear over `⊕` in its blocks for fixed lengths. -/
def Obligations.GhashIsLinearAtFixedLengths : Prop :=
  ∀ (h : Block) (a a' c c' : Bytes), a'.length = a.length → c'.length = c.length →
    xorVec (ghash h a c) (ghash h a' c') =
      xorVec (ghash h (xorBytes a a') (xorBytes c c'))
        (ghash h (List.replicate a.length 0) (List.replicate c.length 0))

/-- 30_encoding.md R86, R87, R90, 20_memory.md R55: the formats that hold big-endian integers. -/
def Obligations.CounterAndLengthFormats : Prop :=
  (∀ n : Bytes, n.length = 12 →
    (j0Of n).toList = n ++ [0, 0, 0, 1] ∧ (firstCounterOf n).toList = n ++ [0, 0, 0, 2]) ∧
  ∀ la lc : Nat, la ≤ 2 ^ 61 - 1 → lc ≤ 2 ^ 61 - 1 →
    intBe ((lengthBlock la lc).toList.take 8) = 8 * la ∧ intBe ((lengthBlock la lc).toList.drop 8) = 8 * lc

/-- 45_gcm.md R213: the comparison, computed from `DIFF` alone, is a match exactly when the tags are equal. -/
def Obligations.TagCmpMatchesExactlyEqualTags : Prop :=
  ∀ a b : Block, tagMatches (tagDiff a b) = true ↔ a = b

/-- 45_gcm.md R217, 43_ctr.md R183: for a message of at most 2^32 - 2 chunks no data counter block is `J0`. Under
`WRAP_POLICY = refuse` GCMENC of 2^32 - 1 or 2^32 chunks, and GCMDEC of as many chunks with a tag that verifies, are
refused; with more chunks both report `CounterOverflow`, under either policy. Where the refuse test stands, after the
other tests, is the model's choice (log 13); so under `refuse` no call uses `J0` for data. -/
def Obligations.DataCountersNeverMeetJ0 : Prop :=
  (∀ (n : Bytes) (j : Nat), n.length = 12 → j < 2 ^ 32 - 2 → incN .w32 j (firstCounterOf n) ≠ j0Of n) ∧
  ∀ (s : State) (k n : Bytes), s.P_KEY = some k → s.P_NONCE = some n → k.length = 16 → n.length = 12 →
    s.mem.AAD.length ≤ 2 ^ 61 - 1 → s.mem.DATA.length ≤ 2 ^ 61 - 1 →
    (nchunks s.mem.DATA.length > 2 ^ 32 - 2 → nchunks s.mem.DATA.length ≤ 2 ^ 32 →
      execGcmencWith .refuse s = .refused .counterWraps) ∧
    (nchunks s.mem.DATA.length > 2 ^ 32 →
      ∀ policy, execGcmencWith policy s = .next (enterError .counterOverflow s)) ∧
    ∀ (c : Bytes) (t : Block), s.mem.DATA = c ++ t.toList → t = gcmTag (keyExpand (blockOf k)) n s.mem.AAD c →
      (nchunks c.length > 2 ^ 32 - 2 → nchunks c.length ≤ 2 ^ 32 →
        execGcmdecWith .refuse s = .refused .counterWraps) ∧
      (nchunks c.length > 2 ^ 32 → ∀ policy, execGcmdecWith policy s = .next (enterError .counterOverflow s))

/-- 45_gcm.md R223: what GCMENC released, put back as the data of GCMDEC under the same key, nonce and AAD, gives the
plaintext. -/
def Obligations.GcmdecUndoesGcmenc : Prop :=
  ∀ (s t : State) (k n : Bytes), s.P_KEY = some k → k.length = 16 → s.P_NONCE = some n → n.length = 12 →
    s.mem.AAD.length ≤ 2 ^ 61 - 1 → nchunks s.mem.DATA.length ≤ 2 ^ 32 - 2 → exec .gcmenc s = .next t →
    exec .gcmdec { t with mem := { t.mem with DATA := t.mem.OUT } } =
      .next (release s.mem.DATA { t with mem := { t.mem with DATA := t.mem.OUT } })

/-- 45_gcm.md R223: any change of the tag part of what GCMENC released, a flipped bit among them, makes GCMDEC fail with
`AuthenticationFailed` and release nothing. For the two wrapping counts what GCMENC released is the model's choice of the
wrap policy (log 4). -/
def Obligations.AnyChangedTagIsRejected : Prop :=
  ∀ (s t : State) (k n c : Bytes) (tag tag' : Block), s.P_KEY = some k → k.length = 16 → s.P_NONCE = some n →
    n.length = 12 → s.mem.AAD.length ≤ 2 ^ 61 - 1 → s.mem.DATA.length ≤ 2 ^ 36 → exec .gcmenc s = .next t →
    t.mem.OUT = c ++ tag.toList → tag' ≠ tag →
    exec .gcmdec { t with mem := { t.mem with DATA := c ++ tag'.toList } } =
      .next (enterError .authenticationFailed { t with mem := { t.mem with DATA := c ++ tag'.toList } })

/-- 45_gcm.md R222: verify, then release. In GCMDEC, from any state and under either wrap policy, every state before the
phase `CTR` has no counter block, no keystream block and no plaintext byte, and `OUT` is empty; every state of the
phases `CTR` and `COMMIT` has a computed tag equal to the received one; and where the comparison finds a difference the
operation ends at once with `AuthenticationFailed`, in no phase after `COMPARE`. That the plaintext bytes stand in `RBUF`
and nowhere else before the release is the model's choice (log 6), and that `OUT` is empty inside the operation, also in
`CTR` and `COMMIT`, is log 12 (DEDUCED). -/
def Obligations.GcmdecVerifiesBeforeAnyPlaintext : Prop :=
  ∀ (policy : WrapPolicy) (s u : State), u ∈ (gcmdecOp policy).states s →
    u.mem.OUT = [] ∧
    (u.PHASE ≠ .ctr → u.PHASE ≠ .commit → u.CB = none ∧ u.KS = none ∧ u.RBUF = none) ∧
    (u.PHASE = .ctr ∨ u.PHASE = .commit → u.TAG = some (tagPart u.mem.DATA) ∧ u.DIFF = some 0) ∧
    ∀ d, u.DIFF = some d → d ≠ 0 →
      (∀ v ∈ (gcmdecOp policy).states s, v.PHASE ≠ .ctr ∧ v.PHASE ≠ .commit) ∧
      (s.mem.AAD.length ≤ 2 ^ 61 - 1 → s.mem.DATA.length ≤ 2 ^ 61 - 1 →
        execGcmdecWith policy s = .next (enterError .authenticationFailed s))

/-- 70_reset_and_hazards.md R280: under one key and one nonce the keystream is the same, so the xor of two ciphertexts of
one length is the xor of the two plaintexts. -/
def Obligations.NonceReuseRevealsTheXorOfPlaintexts : Prop :=
  ∀ (rk : Schedule) (n p q : Bytes), p.length = q.length →
    xorBytes (gcmStream rk n p) (gcmStream rk n q) = xorBytes p q

/-- 30_encoding.md R92, R93, R99: each pseudo-operation is its call, with the bytes or the very error of that call, in any
state without an operation in progress; and a sealed container opens to the message, whatever IV or nonce the host's
random source gave. The CTR and GCM calls are those of a 32-bit field (log 3) that wraps (log 4). -/
def Obligations.SealedContainersOpen : Prop :=
  (∀ (x k : Bytes) (iv : Block) (s : State), s.PHASE = .idle → x.length ≤ 2 ^ 61 - 1 →
    cbcSeal x k iv s = (callOf (apiCbcEncrypt x k iv)).mapOut (iv.toList ++ ·) ∧
    (16 ≤ x.length → cbcOpen x k s = callOf (apiCbcDecrypt (x.drop 16) k (blockOf (x.take 16)))) ∧
    ctrEncrypt x k iv s = callOf (apiCtrTransform .w32 x k iv) ∧
    ctrDecrypt x k iv s = callOf (apiCtrTransform .w32 x k iv)) ∧
  (∀ (x k a n : Bytes) (s : State), s.PHASE = .idle → x.length ≤ 2 ^ 61 - 1 → a.length ≤ 2 ^ 61 - 1 →
    gcmSeal x k a n s = (callOf (apiGcmEncrypt x k n a)).mapOut (n ++ ·) ∧
    gcmOpen x k a s = callOf (apiGcmDecrypt (x.drop 12) k (x.take 12) a)) ∧
  (∀ (p k : Bytes) (iv : Block) (s s' : State), k.length = 16 → p.length + 16 ≤ 2 ^ 61 - 1 →
    s.PHASE = .idle → s'.PHASE = .idle →
    ∃ x, cbcSeal p k iv s = .ok x ∧ x.length = 16 + 16 * (p.length / 16 + 1) ∧ cbcOpen x k s' = .ok p) ∧
  ∀ (p k a n : Bytes) (s s' : State), k.length = 16 → n.length = 12 → a.length ≤ 2 ^ 61 - 1 →
    nchunks p.length ≤ 2 ^ 32 - 2 → s.PHASE = .idle → s'.PHASE = .idle →
    ∃ x, gcmSeal p k a n s = .ok x ∧ x.length = 28 + p.length ∧ gcmOpen x k a s' = .ok p
end

