-- ==== Sys2Proof/Laws/Bytes.lean ====
section
/-! SUPPORT. The laws of byte strings, blocks and buffers that proofs cite instead of unfolding: `xorVec`, `blockOf`,
`be` and `intBe`, reading and writing a buffer, its chunks. -/

namespace Sys2Proof.Machine

/-! ### Blocks -/

@[simp] theorem getElem_xorVec {n : Nat} (a b : Vector Byte n) (i : Nat) (h : i < n) :
    (xorVec a b)[i] = a[i] ^^^ b[i] := by
  simp [xorVec]

theorem xorVec_comm {n : Nat} (a b : Vector Byte n) : xorVec a b = xorVec b a := by
  ext i h
  simp [BitVec.xor_comm]

theorem xorVec_assoc {n : Nat} (a b c : Vector Byte n) : xorVec (xorVec a b) c = xorVec a (xorVec b c) := by
  ext i h
  simp [BitVec.xor_assoc]

@[simp] theorem xorVec_cancel {n : Nat} (a b : Vector Byte n) : xorVec (xorVec a b) b = a := by
  ext i h
  simp

@[simp] theorem getElem_blockOf (b : Bytes) (i : Nat) (h : i < 16) : (blockOf b)[i] = b.getD i 0 := by
  simp [blockOf]

@[simp] theorem getElem_zeroBlock (i : Nat) (h : i < 16) : zeroBlock[i] = 0 := by
  interval_cases i <;> rfl

@[simp] theorem blockOf_toList (b : Block) : blockOf b.toList = b := by
  ext i h
  simp [List.getD_eq_getElem?_getD, h]

theorem toList_blockOf {b : Bytes} (h : b.length = 16) : (blockOf b).toList = b := by
  apply List.ext_getElem
  · simp [h]
  · intro i h1 h2
    have h3 : i < 16 := by simpa using h1
    rw [Vector.getElem_toList, getElem_blockOf b i h3, List.getD_eq_getElem _ _ h2]

/-! ### Integers -/

@[simp] theorem length_be (n v : Nat) : (be n v).length = n := by
  induction n generalizing v with
  | zero => rfl
  | succ n ih => simp [be, ih]

theorem intBe_append (a : Bytes) (x : Byte) : intBe (a ++ [x]) = 256 * intBe a + x.toNat := by
  simp [intBe]

/-- Encoding and reading back, modulo what `n` bytes hold. -/
theorem intBe_be (n v : Nat) : intBe (be n v) = v % 256 ^ n := by
  induction n generalizing v with
  | zero => simp [be, intBe, Nat.mod_one]
  | succ n ih =>
    rw [be, intBe_append, ih]
    have : (BitVec.ofNat 8 v).toNat = v % 256 := by simp
    rw [this, Nat.pow_succ', Nat.mod_mul]
    omega

/-! ### Reading and writing a buffer -/

@[simp] theorem length_memRead (buf : Bytes) (off n : Nat) : (memRead buf off n).length = min n (buf.length - off) := by
  simp [memRead]

theorem memRead_append_left {a b : Bytes} {n : Nat} (h : a.length = n) : memRead (a ++ b) 0 n = a := by
  simp [memRead, ← h]

theorem memRead_append_right {a b : Bytes} {off n : Nat} (ha : a.length = off) (hb : b.length = n) :
    memRead (a ++ b) off n = b := by
  simp [memRead, ← ha, ← hb]

@[simp] theorem memWrite_nil (v : Bytes) : memWrite [] 0 v = v := by
  simp [memWrite]

/-- A read after a write to the same place gives the bytes written. -/
theorem memRead_memWrite_same {buf v : Bytes} {off : Nat} (h : off ≤ buf.length) :
    memRead (memWrite buf off v) off v.length = v := by
  have : (buf.take off).length = off := by simp [h]
  simp only [memRead, memWrite, List.append_assoc]
  rw [List.drop_append_of_le_length (by omega), List.drop_eq_nil_of_le (by omega)]
  simp

/-- A write leaves every other byte alone, and the buffer's length with it. -/
theorem getElem?_memWrite_other {buf v : Bytes} {off a : Nat} (hfit : off + v.length ≤ buf.length)
    (h : a < off ∨ off + v.length ≤ a) : (memWrite buf off v)[a]? = buf[a]? := by
  have hl : (buf.take off).length = off := by simp; omega
  simp only [memWrite, List.append_assoc]
  rcases h with h | h
  · rw [List.getElem?_append_left (by omega), List.getElem?_take_of_lt h]
  · rw [List.getElem?_append_right (by omega), List.getElem?_append_right (by omega), List.getElem?_drop]
    congr 1
    omega

theorem length_memWrite {buf v : Bytes} {off : Nat} (hfit : off + v.length ≤ buf.length) :
    (memWrite buf off v).length = buf.length := by
  simp [memWrite]
  omega

/-! ### Chunks -/

@[simp] theorem chunks_nil : chunks [] = [] := rfl

/-- The chunks of a buffer that is not empty: its first 16 bytes (or fewer, if it is shorter), then the chunks of the
rest. -/
theorem chunks_cons {buf : Bytes} (h : buf ≠ []) : chunks buf = buf.take 16 :: chunks (buf.drop 16) := by
  have hpos : 0 < buf.length := List.length_pos_iff.2 h
  have hn : nchunks buf.length = nchunks (buf.drop 16).length + 1 := by
    simp only [nchunks, List.length_drop]
    omega
  have hc : ∀ j, chunk buf j = (buf.drop (16 * j)).take 16 := by
    intro j
    simp only [chunk, memRead]
    rw [List.take_eq_take_iff]
    simp
  have hc' : ∀ j, chunk (buf.drop 16) j = chunk buf (j + 1) := by
    intro j
    rw [hc (j + 1)]
    have : 16 + 16 * j = 16 * (j + 1) := by omega
    simp only [chunk, memRead, List.drop_drop, this]
    rw [List.take_eq_take_iff]
    simp only [List.length_drop]
    omega
  rw [chunks, hn, List.range_succ_eq_map, List.map_cons, List.map_map, hc 0, chunks]
  simp only [Nat.mul_zero, List.drop_zero, List.cons.injEq, true_and]
  apply List.map_congr_left
  intro j _
  exact (hc' j).symm

@[simp] theorem length_xorBytes (a b : Bytes) : (xorBytes a b).length = min a.length b.length := by
  simp [xorBytes]

/-- Masking twice with the same bytes gives the bytes back, where the mask is long enough. -/
theorem xorBytes_cancel {a b : Bytes} (h : a.length ≤ b.length) : xorBytes (xorBytes a b) b = a := by
  apply List.ext_getElem
  · simp [h]
  · intro i h1 h2
    simp [xorBytes]

end Sys2Proof.Machine
end

