-- ==== Sys2Proof/Laws/State.lean ====
section
/-! SUPPORT. One lemma per field per update of the state, so that no proof unfolds a record update. -/

namespace Sys2Proof.Machine

/-! ### The buffers -/

@[simp] theorem freshOut_AAD (m : Memory) : m.freshOut.AAD = m.AAD := rfl
@[simp] theorem freshOut_DATA (m : Memory) : m.freshOut.DATA = m.DATA := rfl
@[simp] theorem freshOut_OUT (m : Memory) : m.freshOut.OUT = [] := rfl
@[simp] theorem writeOut_AAD (m : Memory) (out : Bytes) : (m.writeOut out).AAD = m.AAD := rfl
@[simp] theorem writeOut_DATA (m : Memory) (out : Bytes) : (m.writeOut out).DATA = m.DATA := rfl
@[simp] theorem writeOut_OUT (m : Memory) (out : Bytes) : (m.writeOut out).OUT = out := by
  simp [Memory.writeOut, memWrite]

/-! ### enterPhase -/

@[simp] theorem enterPhase_OP (p : Phase) (s : State) : (enterPhase p s).OP = s.OP := rfl
@[simp] theorem enterPhase_P_KEY (p : Phase) (s : State) : (enterPhase p s).P_KEY = s.P_KEY := rfl
@[simp] theorem enterPhase_P_NONCE (p : Phase) (s : State) : (enterPhase p s).P_NONCE = s.P_NONCE := rfl
@[simp] theorem enterPhase_P_A (p : Phase) (s : State) : (enterPhase p s).P_A = s.P_A := rfl
@[simp] theorem enterPhase_P_B (p : Phase) (s : State) : (enterPhase p s).P_B = s.P_B := rfl
@[simp] theorem enterPhase_STATUS (p : Phase) (s : State) : (enterPhase p s).STATUS = s.STATUS := rfl
@[simp] theorem enterPhase_ERR (p : Phase) (s : State) : (enterPhase p s).ERR = s.ERR := rfl
@[simp] theorem enterPhase_mem (p : Phase) (s : State) : (enterPhase p s).mem = s.mem := rfl
@[simp] theorem enterPhase_PHASE (p : Phase) (s : State) : (enterPhase p s).PHASE = p := rfl
@[simp] theorem enterPhase_BLK (p : Phase) (s : State) : (enterPhase p s).BLK = s.BLK := rfl
@[simp] theorem enterPhase_KEY (p : Phase) (s : State) : (enterPhase p s).KEY = s.KEY := rfl
@[simp] theorem enterPhase_RK (p : Phase) (s : State) : (enterPhase p s).RK = s.RK := rfl
@[simp] theorem enterPhase_S (p : Phase) (s : State) : (enterPhase p s).S = s.S := rfl
@[simp] theorem enterPhase_CHAIN (p : Phase) (s : State) : (enterPhase p s).CHAIN = s.CHAIN := rfl
@[simp] theorem enterPhase_CB (p : Phase) (s : State) : (enterPhase p s).CB = s.CB := rfl
@[simp] theorem enterPhase_KS (p : Phase) (s : State) : (enterPhase p s).KS = s.KS := rfl
@[simp] theorem enterPhase_H (p : Phase) (s : State) : (enterPhase p s).H = s.H := rfl
@[simp] theorem enterPhase_ACC (p : Phase) (s : State) : (enterPhase p s).ACC = s.ACC := rfl
@[simp] theorem enterPhase_V (p : Phase) (s : State) : (enterPhase p s).V = s.V := rfl
@[simp] theorem enterPhase_Z (p : Phase) (s : State) : (enterPhase p s).Z = s.Z := rfl
@[simp] theorem enterPhase_J0 (p : Phase) (s : State) : (enterPhase p s).J0 = s.J0 := rfl
@[simp] theorem enterPhase_MASK (p : Phase) (s : State) : (enterPhase p s).MASK = s.MASK := rfl
@[simp] theorem enterPhase_TAG (p : Phase) (s : State) : (enterPhase p s).TAG = s.TAG := rfl
@[simp] theorem enterPhase_DIFF (p : Phase) (s : State) : (enterPhase p s).DIFF = s.DIFF := rfl
@[simp] theorem enterPhase_PBUF (p : Phase) (s : State) : (enterPhase p s).PBUF = s.PBUF := rfl
@[simp] theorem enterPhase_RBUF (p : Phase) (s : State) : (enterPhase p s).RBUF = s.RBUF := rfl

/-! ### enterLoop -/

@[simp] theorem enterLoop_OP (p : Phase) (s : State) : (enterLoop p s).OP = s.OP := rfl
@[simp] theorem enterLoop_P_KEY (p : Phase) (s : State) : (enterLoop p s).P_KEY = s.P_KEY := rfl
@[simp] theorem enterLoop_P_NONCE (p : Phase) (s : State) : (enterLoop p s).P_NONCE = s.P_NONCE := rfl
@[simp] theorem enterLoop_P_A (p : Phase) (s : State) : (enterLoop p s).P_A = s.P_A := rfl
@[simp] theorem enterLoop_P_B (p : Phase) (s : State) : (enterLoop p s).P_B = s.P_B := rfl
@[simp] theorem enterLoop_STATUS (p : Phase) (s : State) : (enterLoop p s).STATUS = s.STATUS := rfl
@[simp] theorem enterLoop_ERR (p : Phase) (s : State) : (enterLoop p s).ERR = s.ERR := rfl
@[simp] theorem enterLoop_mem (p : Phase) (s : State) : (enterLoop p s).mem = s.mem := rfl
@[simp] theorem enterLoop_PHASE (p : Phase) (s : State) : (enterLoop p s).PHASE = p := rfl
@[simp] theorem enterLoop_BLK (p : Phase) (s : State) : (enterLoop p s).BLK = some 0 := rfl
@[simp] theorem enterLoop_KEY (p : Phase) (s : State) : (enterLoop p s).KEY = s.KEY := rfl
@[simp] theorem enterLoop_RK (p : Phase) (s : State) : (enterLoop p s).RK = s.RK := rfl
@[simp] theorem enterLoop_S (p : Phase) (s : State) : (enterLoop p s).S = s.S := rfl
@[simp] theorem enterLoop_CHAIN (p : Phase) (s : State) : (enterLoop p s).CHAIN = s.CHAIN := rfl
@[simp] theorem enterLoop_CB (p : Phase) (s : State) : (enterLoop p s).CB = s.CB := rfl
@[simp] theorem enterLoop_KS (p : Phase) (s : State) : (enterLoop p s).KS = s.KS := rfl
@[simp] theorem enterLoop_H (p : Phase) (s : State) : (enterLoop p s).H = s.H := rfl
@[simp] theorem enterLoop_ACC (p : Phase) (s : State) : (enterLoop p s).ACC = s.ACC := rfl
@[simp] theorem enterLoop_V (p : Phase) (s : State) : (enterLoop p s).V = s.V := rfl
@[simp] theorem enterLoop_Z (p : Phase) (s : State) : (enterLoop p s).Z = s.Z := rfl
@[simp] theorem enterLoop_J0 (p : Phase) (s : State) : (enterLoop p s).J0 = s.J0 := rfl
@[simp] theorem enterLoop_MASK (p : Phase) (s : State) : (enterLoop p s).MASK = s.MASK := rfl
@[simp] theorem enterLoop_TAG (p : Phase) (s : State) : (enterLoop p s).TAG = s.TAG := rfl
@[simp] theorem enterLoop_DIFF (p : Phase) (s : State) : (enterLoop p s).DIFF = s.DIFF := rfl
@[simp] theorem enterLoop_PBUF (p : Phase) (s : State) : (enterLoop p s).PBUF = s.PBUF := rfl
@[simp] theorem enterLoop_RBUF (p : Phase) (s : State) : (enterLoop p s).RBUF = s.RBUF := rfl

/-! ### advanceBlk -/

@[simp] theorem advanceBlk_OP (s : State) : (advanceBlk s).OP = s.OP := rfl
@[simp] theorem advanceBlk_P_KEY (s : State) : (advanceBlk s).P_KEY = s.P_KEY := rfl
@[simp] theorem advanceBlk_P_NONCE (s : State) : (advanceBlk s).P_NONCE = s.P_NONCE := rfl
@[simp] theorem advanceBlk_P_A (s : State) : (advanceBlk s).P_A = s.P_A := rfl
@[simp] theorem advanceBlk_P_B (s : State) : (advanceBlk s).P_B = s.P_B := rfl
@[simp] theorem advanceBlk_STATUS (s : State) : (advanceBlk s).STATUS = s.STATUS := rfl
@[simp] theorem advanceBlk_ERR (s : State) : (advanceBlk s).ERR = s.ERR := rfl
@[simp] theorem advanceBlk_mem (s : State) : (advanceBlk s).mem = s.mem := rfl
@[simp] theorem advanceBlk_PHASE (s : State) : (advanceBlk s).PHASE = s.PHASE := rfl
@[simp] theorem advanceBlk_BLK (s : State) : (advanceBlk s).BLK = s.BLK.map (· + 1) := rfl
@[simp] theorem advanceBlk_KEY (s : State) : (advanceBlk s).KEY = s.KEY := rfl
@[simp] theorem advanceBlk_RK (s : State) : (advanceBlk s).RK = s.RK := rfl
@[simp] theorem advanceBlk_S (s : State) : (advanceBlk s).S = s.S := rfl
@[simp] theorem advanceBlk_CHAIN (s : State) : (advanceBlk s).CHAIN = s.CHAIN := rfl
@[simp] theorem advanceBlk_CB (s : State) : (advanceBlk s).CB = s.CB := rfl
@[simp] theorem advanceBlk_KS (s : State) : (advanceBlk s).KS = s.KS := rfl
@[simp] theorem advanceBlk_H (s : State) : (advanceBlk s).H = s.H := rfl
@[simp] theorem advanceBlk_ACC (s : State) : (advanceBlk s).ACC = s.ACC := rfl
@[simp] theorem advanceBlk_V (s : State) : (advanceBlk s).V = s.V := rfl
@[simp] theorem advanceBlk_Z (s : State) : (advanceBlk s).Z = s.Z := rfl
@[simp] theorem advanceBlk_J0 (s : State) : (advanceBlk s).J0 = s.J0 := rfl
@[simp] theorem advanceBlk_MASK (s : State) : (advanceBlk s).MASK = s.MASK := rfl
@[simp] theorem advanceBlk_TAG (s : State) : (advanceBlk s).TAG = s.TAG := rfl
@[simp] theorem advanceBlk_DIFF (s : State) : (advanceBlk s).DIFF = s.DIFF := rfl
@[simp] theorem advanceBlk_PBUF (s : State) : (advanceBlk s).PBUF = s.PBUF := rfl
@[simp] theorem advanceBlk_RBUF (s : State) : (advanceBlk s).RBUF = s.RBUF := rfl

/-! ### begin -/

@[simp] theorem begin_OP (s : State) : (begin s).OP = s.OP := rfl
@[simp] theorem begin_P_KEY (s : State) : (begin s).P_KEY = s.P_KEY := rfl
@[simp] theorem begin_P_NONCE (s : State) : (begin s).P_NONCE = s.P_NONCE := rfl
@[simp] theorem begin_P_A (s : State) : (begin s).P_A = s.P_A := rfl
@[simp] theorem begin_P_B (s : State) : (begin s).P_B = s.P_B := rfl
@[simp] theorem begin_STATUS (s : State) : (begin s).STATUS = s.STATUS := rfl
@[simp] theorem begin_ERR (s : State) : (begin s).ERR = s.ERR := rfl
@[simp] theorem begin_mem (s : State) : (begin s).mem = s.mem.freshOut := rfl
@[simp] theorem begin_PHASE (s : State) : (begin s).PHASE = .idle := rfl
@[simp] theorem begin_BLK (s : State) : (begin s).BLK = none := rfl
@[simp] theorem begin_KEY (s : State) : (begin s).KEY = none := rfl
@[simp] theorem begin_RK (s : State) : (begin s).RK = none := rfl
@[simp] theorem begin_S (s : State) : (begin s).S = none := rfl
@[simp] theorem begin_CHAIN (s : State) : (begin s).CHAIN = none := rfl
@[simp] theorem begin_CB (s : State) : (begin s).CB = none := rfl
@[simp] theorem begin_KS (s : State) : (begin s).KS = none := rfl
@[simp] theorem begin_H (s : State) : (begin s).H = none := rfl
@[simp] theorem begin_ACC (s : State) : (begin s).ACC = none := rfl
@[simp] theorem begin_V (s : State) : (begin s).V = none := rfl
@[simp] theorem begin_Z (s : State) : (begin s).Z = none := rfl
@[simp] theorem begin_J0 (s : State) : (begin s).J0 = none := rfl
@[simp] theorem begin_MASK (s : State) : (begin s).MASK = none := rfl
@[simp] theorem begin_TAG (s : State) : (begin s).TAG = none := rfl
@[simp] theorem begin_DIFF (s : State) : (begin s).DIFF = none := rfl
@[simp] theorem begin_PBUF (s : State) : (begin s).PBUF = none := rfl
@[simp] theorem begin_RBUF (s : State) : (begin s).RBUF = none := rfl

/-! ### release -/

@[simp] theorem release_OP (out : Bytes) (s : State) : (release out s).OP = s.OP := rfl
@[simp] theorem release_P_KEY (out : Bytes) (s : State) : (release out s).P_KEY = s.P_KEY := rfl
@[simp] theorem release_P_NONCE (out : Bytes) (s : State) : (release out s).P_NONCE = s.P_NONCE := rfl
@[simp] theorem release_P_A (out : Bytes) (s : State) : (release out s).P_A = s.P_A := rfl
@[simp] theorem release_P_B (out : Bytes) (s : State) : (release out s).P_B = s.P_B := rfl
@[simp] theorem release_STATUS (out : Bytes) (s : State) : (release out s).STATUS = .ok := rfl
@[simp] theorem release_ERR (out : Bytes) (s : State) : (release out s).ERR = none := rfl
@[simp] theorem release_mem (out : Bytes) (s : State) : (release out s).mem = s.mem.writeOut out := rfl
@[simp] theorem release_PHASE (out : Bytes) (s : State) : (release out s).PHASE = .idle := rfl
@[simp] theorem release_BLK (out : Bytes) (s : State) : (release out s).BLK = none := rfl
@[simp] theorem release_KEY (out : Bytes) (s : State) : (release out s).KEY = none := rfl
@[simp] theorem release_RK (out : Bytes) (s : State) : (release out s).RK = none := rfl
@[simp] theorem release_S (out : Bytes) (s : State) : (release out s).S = none := rfl
@[simp] theorem release_CHAIN (out : Bytes) (s : State) : (release out s).CHAIN = none := rfl
@[simp] theorem release_CB (out : Bytes) (s : State) : (release out s).CB = none := rfl
@[simp] theorem release_KS (out : Bytes) (s : State) : (release out s).KS = none := rfl
@[simp] theorem release_H (out : Bytes) (s : State) : (release out s).H = none := rfl
@[simp] theorem release_ACC (out : Bytes) (s : State) : (release out s).ACC = none := rfl
@[simp] theorem release_V (out : Bytes) (s : State) : (release out s).V = none := rfl
@[simp] theorem release_Z (out : Bytes) (s : State) : (release out s).Z = none := rfl
@[simp] theorem release_J0 (out : Bytes) (s : State) : (release out s).J0 = none := rfl
@[simp] theorem release_MASK (out : Bytes) (s : State) : (release out s).MASK = none := rfl
@[simp] theorem release_TAG (out : Bytes) (s : State) : (release out s).TAG = none := rfl
@[simp] theorem release_DIFF (out : Bytes) (s : State) : (release out s).DIFF = none := rfl
@[simp] theorem release_PBUF (out : Bytes) (s : State) : (release out s).PBUF = none := rfl
@[simp] theorem release_RBUF (out : Bytes) (s : State) : (release out s).RBUF = none := rfl

/-! ### enterError -/

@[simp] theorem enterError_OP (e : Err) (s : State) : (enterError e s).OP = s.OP := rfl
@[simp] theorem enterError_P_KEY (e : Err) (s : State) : (enterError e s).P_KEY = s.P_KEY := rfl
@[simp] theorem enterError_P_NONCE (e : Err) (s : State) : (enterError e s).P_NONCE = s.P_NONCE := rfl
@[simp] theorem enterError_P_A (e : Err) (s : State) : (enterError e s).P_A = s.P_A := rfl
@[simp] theorem enterError_P_B (e : Err) (s : State) : (enterError e s).P_B = s.P_B := rfl
@[simp] theorem enterError_STATUS (e : Err) (s : State) : (enterError e s).STATUS = .error := rfl
@[simp] theorem enterError_ERR (e : Err) (s : State) : (enterError e s).ERR = some e := rfl
@[simp] theorem enterError_mem (e : Err) (s : State) : (enterError e s).mem = s.mem.freshOut := rfl
@[simp] theorem enterError_PHASE (e : Err) (s : State) : (enterError e s).PHASE = .idle := rfl
@[simp] theorem enterError_BLK (e : Err) (s : State) : (enterError e s).BLK = none := rfl
@[simp] theorem enterError_KEY (e : Err) (s : State) : (enterError e s).KEY = none := rfl
@[simp] theorem enterError_RK (e : Err) (s : State) : (enterError e s).RK = none := rfl
@[simp] theorem enterError_S (e : Err) (s : State) : (enterError e s).S = none := rfl
@[simp] theorem enterError_CHAIN (e : Err) (s : State) : (enterError e s).CHAIN = none := rfl
@[simp] theorem enterError_CB (e : Err) (s : State) : (enterError e s).CB = none := rfl
@[simp] theorem enterError_KS (e : Err) (s : State) : (enterError e s).KS = none := rfl
@[simp] theorem enterError_H (e : Err) (s : State) : (enterError e s).H = none := rfl
@[simp] theorem enterError_ACC (e : Err) (s : State) : (enterError e s).ACC = none := rfl
@[simp] theorem enterError_V (e : Err) (s : State) : (enterError e s).V = none := rfl
@[simp] theorem enterError_Z (e : Err) (s : State) : (enterError e s).Z = none := rfl
@[simp] theorem enterError_J0 (e : Err) (s : State) : (enterError e s).J0 = none := rfl
@[simp] theorem enterError_MASK (e : Err) (s : State) : (enterError e s).MASK = none := rfl
@[simp] theorem enterError_TAG (e : Err) (s : State) : (enterError e s).TAG = none := rfl
@[simp] theorem enterError_DIFF (e : Err) (s : State) : (enterError e s).DIFF = none := rfl
@[simp] theorem enterError_PBUF (e : Err) (s : State) : (enterError e s).PBUF = none := rfl
@[simp] theorem enterError_RBUF (e : Err) (s : State) : (enterError e s).RBUF = none := rfl

end Sys2Proof.Machine
end

