-- ==== Sys2Proof/Laws/Ops.lean ====
section
/-! SUPPORT. What the shared operations can do, said once: results, register reads, stages, runs, issue, the buffers. -/

namespace Sys2Proof.Machine

/-! ### Results inside an operation -/

@[simp] theorem Res.bind_val {α β : Type} (a : α) (k : α → Res β) : (Res.val a).bind k = k a := rfl
@[simp] theorem Res.bind_raise {α β : Type} (e : Err) (k : α → Res β) : (Res.raise e : Res α).bind k = .raise e := rfl
@[simp] theorem Res.bind_fault {α β : Type} (f : Fault) (k : α → Res β) : (Res.fault f : Res α).bind k = .fault f := rfl
@[simp] theorem Res.bind_refused {α β : Type} (r : Refusal) (k : α → Res β) :
    (Res.refused r : Res α).bind k = .refused r := rfl

theorem Res.val_eq_val {α : Type} {a b : α} : (Res.val a : Res α) = .val b ↔ b = a := by
  simp [eq_comm]

theorem Res.bind_eq_val {α β : Type} {x : Res α} {k : α → Res β} {b : β} :
    x.bind k = .val b ↔ ∃ a, x = .val a ∧ k a = .val b := by
  cases x <;> simp

theorem Res.bind_eq_fault {α β : Type} {x : Res α} {k : α → Res β} {f : Fault} :
    x.bind k = .fault f ↔ x = .fault f ∨ ∃ a, x = .val a ∧ k a = .fault f := by
  cases x <;> simp

theorem Res.bind_eq_raise {α β : Type} {x : Res α} {k : α → Res β} {e : Err} :
    x.bind k = .raise e ↔ x = .raise e ∨ ∃ a, x = .val a ∧ k a = .raise e := by
  cases x <;> simp

@[simp] theorem need_some {α : Type} (r : Reg) (a : α) : need r (some a) = .val a := rfl
@[simp] theorem need_none {α : Type} (r : Reg) : (need r none : Res α) = .fault (.noValue r) := rfl

theorem need_eq_val {α : Type} {r : Reg} {v : Option α} {a : α} : need r v = .val a ↔ v = some a := by
  cases v <;> simp [need]

@[simp] theorem need_ne_raise {α : Type} {r : Reg} {v : Option α} {e : Err} : need r v ≠ .raise e := by
  cases v <;> simp [need]

/-! ### Running stages -/

@[simp] theorem runStages_nil (s : State) : runStages [] s = .done s := rfl

theorem runStages_cons_done {g : Stage} {gs : List Stage} {s t : State} (h : g.run s = .done t) :
    runStages (g :: gs) s = runStages gs t := by
  simp [runStages, h]

theorem runStages_cons_raised {g : Stage} {gs : List Stage} {s t : State} {e : Err} (h : g.run s = .raised e t) :
    runStages (g :: gs) s = .raised e t := by
  simp [runStages, h]

theorem runStages_append_done {gs gs' : List Stage} {s t : State} (h : runStages gs s = .done t) :
    runStages (gs ++ gs') s = runStages gs' t := by
  induction gs generalizing s with
  | nil =>
    cases h
    rfl
  | cons g gs ih =>
    simp only [runStages, List.cons_append] at h ⊢
    cases hg : g.run s with
    | done u =>
      rw [hg] at h
      exact ih h
    | raised e u => rw [hg] at h; cases h
    | fault f => rw [hg] at h; cases h
    | refused r => rw [hg] at h; cases h

theorem run_act_val {p : Phase} {f : State → Res State} {s t : State} (h : f (enterPhase p s) = .val t) :
    (Stage.act p f).run s = .done t := by
  simp [Stage.run, h]

theorem run_act_raise {p : Phase} {f : State → Res State} {s : State} {e : Err} (h : f (enterPhase p s) = .raise e) :
    (Stage.act p f).run s = .raised e (enterPhase p s) := by
  simp [Stage.run, h]

theorem run_act_fault {p : Phase} {f : State → Res State} {s : State} {r : Fault} (h : f (enterPhase p s) = .fault r) :
    (Stage.act p f).run s = .fault r := by
  simp [Stage.run, h]

theorem run_act_refused {p : Phase} {f : State → Res State} {s : State} {r : Refusal}
    (h : f (enterPhase p s) = .refused r) : (Stage.act p f).run s = .refused r := by
  simp [Stage.run, h]

theorem run_each_val {p : Phase} {items : State → Res (List Bytes)} {f : Bytes → State → Res State} {s : State}
    {l : List Bytes} (h : items (enterLoop p s) = .val l) :
    (Stage.each p items f).run s = runEach f l (enterLoop p s) := by
  simp [Stage.run, h]

/-! ### Properties that a run keeps -/

/-- Each step of the stage keeps `P`. -/
def Stage.Keeps (P : State → Prop) : Stage → Prop
  | .act _ f => ∀ s t, P s → f s = .val t → P t
  | .each _ _ f => ∀ c s t, P s → f c s = .val t → P t

/-- The sequencing registers may change without touching `P`. -/
structure PhaseFree (P : State → Prop) : Prop where
  phase : ∀ p s, P s → P (enterPhase p s)
  loop : ∀ p s, P s → P (enterLoop p s)
  blk : ∀ s, P s → P (advanceBlk s)

/-- `P` holds in the state a run ends in, whether all is done or an error was raised. -/
def Run.Ends (P : State → Prop) : Run → Prop
  | .done t => P t
  | .raised _ t => P t
  | .fault _ => True
  | .refused _ => True

theorem runEach_keeps {P : State → Prop} (hP : PhaseFree P) {f : Bytes → State → Res State}
    (hf : ∀ c s t, P s → f c s = .val t → P t) (cs : List Bytes) (s : State) (hs : P s) :
    (runEach f cs s).Ends P := by
  induction cs generalizing s with
  | nil => exact hs
  | cons c cs ih =>
    simp only [runEach]
    cases hc : f c s with
    | val u => exact ih _ (hP.blk _ (hf c s u hs hc))
    | raise e => exact hs
    | fault r => trivial
    | refused r => trivial

theorem Stage.run_keeps {P : State → Prop} (hP : PhaseFree P) {g : Stage} (hg : g.Keeps P) {s : State} (hs : P s) :
    (g.run s).Ends P := by
  cases g with
  | act p f =>
    simp only [Stage.run]
    cases hc : f (enterPhase p s) with
    | val u => exact hg _ _ (hP.phase p s hs) hc
    | raise e => exact hP.phase p s hs
    | fault r => trivial
    | refused r => trivial
  | each p items f =>
    simp only [Stage.run]
    cases hc : items (enterLoop p s) with
    | val l => exact runEach_keeps hP hg l _ (hP.loop p s hs)
    | raise e => exact hP.loop p s hs
    | fault r => trivial
    | refused r => trivial

theorem runStages_keeps {P : State → Prop} (hP : PhaseFree P) (gs : List Stage) (hgs : ∀ g ∈ gs, g.Keeps P)
    (s : State) (hs : P s) : (runStages gs s).Ends P := by
  induction gs generalizing s with
  | nil => exact hs
  | cons g gs ih =>
    have hg := Stage.run_keeps hP (hgs g (by simp)) hs
    simp only [runStages]
    cases hc : g.run s with
    | done u =>
      rw [hc] at hg
      exact ih (fun g' h' => hgs g' (by simp [h'])) u hg
    | raised e u =>
      rw [hc] at hg
      exact hg
    | fault r => trivial
    | refused r => trivial

theorem eachStates_keeps {P : State → Prop} (hP : PhaseFree P) {f : Bytes → State → Res State}
    (hf : ∀ c s t, P s → f c s = .val t → P t) (cs : List Bytes) (s : State) (hs : P s) :
    ∀ u ∈ eachStates f cs s, P u := by
  induction cs generalizing s with
  | nil => simp [eachStates]
  | cons c cs ih =>
    simp only [eachStates]
    cases hc : f c s with
    | val t =>
      intro u hu
      have ht := hP.blk _ (hf c s t hs hc)
      rcases List.mem_cons.1 hu with rfl | hu
      · exact ht
      · exact ih _ ht u hu
    | raise e => simp
    | fault r => simp
    | refused r => simp

theorem Stage.states_keeps {P : State → Prop} (hP : PhaseFree P) {g : Stage} (hg : g.Keeps P) {s : State} (hs : P s) :
    ∀ u ∈ g.states s, P u := by
  cases g with
  | act p f =>
    simp only [Stage.states]
    intro u hu
    rcases List.mem_cons.1 hu with rfl | hu
    · exact hP.phase p s hs
    · cases hc : f (enterPhase p s) with
      | val t =>
        rw [hc] at hu
        rcases List.mem_cons.1 hu with rfl | hu
        · exact hg _ _ (hP.phase p s hs) hc
        · simp at hu
      | raise e => rw [hc] at hu; simp at hu
      | fault r => rw [hc] at hu; simp at hu
      | refused r => rw [hc] at hu; simp at hu
  | each p items f =>
    simp only [Stage.states]
    intro u hu
    rcases List.mem_cons.1 hu with rfl | hu
    · exact hP.loop p s hs
    · cases hc : items (enterLoop p s) with
      | val l =>
        rw [hc] at hu
        exact eachStates_keeps hP hg l _ (hP.loop p s hs) u hu
      | raise e => rw [hc] at hu; simp at hu
      | fault r => rw [hc] at hu; simp at hu
      | refused r => rw [hc] at hu; simp at hu

theorem stagesStates_keeps {P : State → Prop} (hP : PhaseFree P) (gs : List Stage) (hgs : ∀ g ∈ gs, g.Keeps P)
    (s : State) (hs : P s) : ∀ u ∈ stagesStates gs s, P u := by
  induction gs generalizing s with
  | nil =>
    intro u hu
    rcases List.mem_singleton.1 hu with rfl
    exact hP.phase _ s hs
  | cons g gs ih =>
    intro u hu
    have hg := hgs g (by simp)
    rcases List.mem_append.1 hu with hu | hu
    · exact Stage.states_keeps hP hg hs u hu
    · cases hc : g.run s with
      | done t =>
        rw [hc] at hu
        have ht := Stage.run_keeps hP hg hs
        rw [hc] at ht
        exact ih (fun g' h' => hgs g' (by simp [h'])) t ht u hu
      | raised e t => rw [hc] at hu; simp at hu
      | fault r => rw [hc] at hu; simp at hu
      | refused r => rw [hc] at hu; simp at hu

/-! ### The end of an operation -/

/-- Release and error entry forget the working registers of the state they end in. -/
theorem release_congr {s t : State} (out : Bytes) (hop : t.OP = s.OP) (hk : t.P_KEY = s.P_KEY)
    (hn : t.P_NONCE = s.P_NONCE) (ha : t.P_A = s.P_A) (hb : t.P_B = s.P_B)
    (haad : t.mem.AAD = s.mem.AAD) (hdata : t.mem.DATA = s.mem.DATA) : release out t = release out s := by
  simp [release, State.clearWorking, Memory.writeOut, *]

theorem enterError_congr {s t : State} (e : Err) (hop : t.OP = s.OP) (hk : t.P_KEY = s.P_KEY)
    (hn : t.P_NONCE = s.P_NONCE) (ha : t.P_A = s.P_A) (hb : t.P_B = s.P_B)
    (haad : t.mem.AAD = s.mem.AAD) (hdata : t.mem.DATA = s.mem.DATA) : enterError e t = enterError e s := by
  simp [enterError, State.clearWorking, Memory.freshOut, *]

/-- What issue checks, slot by slot. -/
theorem admitSlot_eq_val {s : State} {k : Slot} : admitSlot s k = .val () ↔ fits s k = true := by
  cases k <;> simp [admitSlot, fits]

theorem admitSlots_eq_val {s : State} {l : List Slot} : admitSlots s l = .val () ↔ l.all (fits s) = true := by
  induction l with
  | nil => simp [admitSlots]
  | cons k ks ih =>
    simp only [admitSlots, Res.bind_eq_val, ih, List.all_cons, Bool.and_eq_true]
    exact ⟨fun ⟨_, h1, h2⟩ => ⟨admitSlot_eq_val.1 h1, h2⟩, fun ⟨h1, h2⟩ => ⟨(), admitSlot_eq_val.2 h1, h2⟩⟩

theorem fits_of_readable {s : State} {k : Slot} (h : readable s k = true) : fits s k = true := by
  cases k <;> first | rfl | exact h

/-- An admitted command passes issue. -/
theorem fits_of_admitted {i : Instr} {s : State} (h : admitted i s = true) : (slotsRead i).all (fits s) = true :=
  List.all_eq_true.2 fun k hk => fits_of_readable (List.all_eq_true.1 h k hk)

theorem admitSlot_refused {s : State} {k : Slot} (h : ¬ fits s k = true) :
    admitSlot s k = .refused (.bufferTooLong k) := by
  cases k <;> simp only [fits, decide_eq_true_eq, not_true_eq_false] at h <;> exact if_neg h

/-- A command that does not pass issue is refused for a buffer. -/
theorem admitSlots_refused {s : State} {l : List Slot} (h : ¬ l.all (fits s) = true) :
    ∃ b, admitSlots s l = .refused (.bufferTooLong b) := by
  induction l with
  | nil => simp at h
  | cons k ks ih =>
    by_cases hk : fits s k = true
    · obtain ⟨b, hb⟩ := ih (by simpa [hk] using h)
      exact ⟨b, by simp [admitSlots, admitSlot_eq_val.2 hk, hb]⟩
    · exact ⟨k, by simp [admitSlots, admitSlot_refused hk]⟩

/-- Issue never raises an error: the checks of a length that has one are the operation's own. -/
theorem admitSlots_ne_raise {s : State} {l : List Slot} {e : Err} : admitSlots s l ≠ .raise e := by
  induction l with
  | nil => simp [admitSlots]
  | cons k ks ih =>
    simp only [admitSlots, ne_eq, Res.bind_eq_raise, not_or, not_exists, not_and]
    refine ⟨?_, fun _ _ => ih⟩
    cases k <;> simp only [admitSlot] <;> (try split) <;> simp

/-- A transaction that answers a next state passed issue, and ended in a release or an error entry. -/
theorem runOperation_next {l : List Slot} {o : Operation} {s t : State} (h : runOperation l o s = .next t) :
    admitSlots s l = .val () ∧
      ((∃ u out, runStages o.stages (begin s) = .done u ∧ o.result (enterPhase .commit u) = .val out ∧
          t = release out u) ∨
        (∃ u e, runStages o.stages (begin s) = .done u ∧ o.result (enterPhase .commit u) = .raise e ∧
          t = enterError e u) ∨
        ∃ u e, runStages o.stages (begin s) = .raised e u ∧ t = enterError e u) := by
  unfold runOperation at h
  cases ha : admitSlots s l with
  | raise e => exact absurd ha admitSlots_ne_raise
  | fault f => rw [ha] at h; cases h
  | refused r => rw [ha] at h; cases h
  | val x =>
    refine ⟨rfl, ?_⟩
    rw [ha] at h
    cases hr : runStages o.stages (begin s) with
    | fault f => rw [hr] at h; cases h
    | refused r => rw [hr] at h; cases h
    | raised e u =>
      rw [hr] at h
      cases h
      exact .inr (.inr ⟨u, e, rfl, rfl⟩)
    | done u =>
      rw [hr] at h
      simp only [commit] at h
      cases hc : o.result (enterPhase .commit u) with
      | val out =>
        rw [hc] at h
        cases h
        exact .inl ⟨u, out, rfl, hc, rfl⟩
      | raise e =>
        rw [hc] at h
        cases h
        exact .inr (.inl ⟨u, e, rfl, hc, rfl⟩)
      | fault f => rw [hc] at h; cases h
      | refused r => rw [hc] at h; cases h

/-- An operation taken at issue whose stages are done and whose result is `out` releases it. -/
theorem runOperation_done {l : List Slot} {o : Operation} {s u : State} {out : Bytes}
    (ha : l.all (fits s) = true) (hr : runStages o.stages (begin s) = .done u)
    (hc : o.result (enterPhase .commit u) = .val out) : runOperation l o s = .next (release out u) := by
  simp [runOperation, admitSlots_eq_val.2 ha, hr, commit, hc]

/-- An operation taken at issue in which an error is raised ends in error entry. -/
theorem runOperation_raised {l : List Slot} {o : Operation} {s u : State} {e : Err}
    (ha : l.all (fits s) = true) (hr : runStages o.stages (begin s) = .raised e u) :
    runOperation l o s = .next (enterError e u) := by
  simp [runOperation, admitSlots_eq_val.2 ha, hr]

/-! ### The buffers keep their form -/

theorem reset_mem_wf : State.reset.mem.wf = true := by decide

@[simp] theorem freshOut_wf (m : Memory) : m.freshOut.wf = m.wf := rfl
@[simp] theorem writeOut_wf (m : Memory) (out : Bytes) : (m.writeOut out).wf = m.wf := rfl

end Sys2Proof.Machine
end

