-- ==== Sys2Proof/Laws/PerInstr.lean ====
section
/-! SUPPORT. Facts about each operation as syntax: its command word and its slots, one lemma per constructor. -/

namespace Sys2Proof.Laws.Encoding

/-- The slots in the order of the command format (30_encoding.md R80). -/
def formatOrder : List Slot := [.pKey, .pNonce, .pA, .pB, .aad, .data]

/-- An operation's command word is one byte with a code that is not reserved (30_encoding.md R80, R82, R96); it reads at
least one slot, each once, in the order of the format (R83); and a command with its code is well-formed exactly when it
carries what the operation reads, no buffer of it too long (70_reset_and_hazards.md R272, 20_memory.md R53). -/
def Statement (i : Instr) : Prop :=
  (encode i).length = 1 ∧ reservedOp (encodeOp i) = false ∧ slotsRead i ≠ [] ∧
    (slotsRead i).Sublist formatOrder ∧
    ∀ c : Command, c.op = encodeOp i →
      c.wellFormed = ((slotsRead i).all c.carries && (slotsRead i).all c.fits)

/-- The last part of the statement, from what the code selects. -/
theorem wellFormed_of_code {i : Instr} (hr : reservedOp (encodeOp i) = false) (hd : decodeOp (encodeOp i) = some i)
    (c : Command) (h : c.op = encodeOp i) :
    c.wellFormed = ((slotsRead i).all c.carries && (slotsRead i).all c.fits) := by
  simp only [Command.wellFormed, h, hr, hd, Bool.not_false, Bool.true_and]

theorem keyexp : Statement .keyexp :=
  ⟨rfl, by decide, by decide, by decide, wellFormed_of_code (by decide) (by decide)⟩
theorem encblk : Statement .encblk :=
  ⟨rfl, by decide, by decide, by decide, wellFormed_of_code (by decide) (by decide)⟩
theorem decblk : Statement .decblk :=
  ⟨rfl, by decide, by decide, by decide, wellFormed_of_code (by decide) (by decide)⟩
theorem pad : Statement .pad :=
  ⟨rfl, by decide, by decide, by decide, wellFormed_of_code (by decide) (by decide)⟩
theorem unpad : Statement .unpad :=
  ⟨rfl, by decide, by decide, by decide, wellFormed_of_code (by decide) (by decide)⟩
theorem cbcenc : Statement .cbcenc :=
  ⟨rfl, by decide, by decide, by decide, wellFormed_of_code (by decide) (by decide)⟩
theorem cbcdec : Statement .cbcdec :=
  ⟨rfl, by decide, by decide, by decide, wellFormed_of_code (by decide) (by decide)⟩
theorem ctrxfrm : Statement .ctrxfrm :=
  ⟨rfl, by decide, by decide, by decide, wellFormed_of_code (by decide) (by decide)⟩
theorem gfmul : Statement .gfmul :=
  ⟨rfl, by decide, by decide, by decide, wellFormed_of_code (by decide) (by decide)⟩
theorem ghash : Statement .ghash :=
  ⟨rfl, by decide, by decide, by decide, wellFormed_of_code (by decide) (by decide)⟩
theorem taggen : Statement .taggen :=
  ⟨rfl, by decide, by decide, by decide, wellFormed_of_code (by decide) (by decide)⟩
theorem tagcmp : Statement .tagcmp :=
  ⟨rfl, by decide, by decide, by decide, wellFormed_of_code (by decide) (by decide)⟩
theorem gcmenc : Statement .gcmenc :=
  ⟨rfl, by decide, by decide, by decide, wellFormed_of_code (by decide) (by decide)⟩
theorem gcmdec : Statement .gcmdec :=
  ⟨rfl, by decide, by decide, by decide, wellFormed_of_code (by decide) (by decide)⟩

end Sys2Proof.Laws.Encoding
end

