-- ==== Sys2Proof/Laws/Stages.lean ====
section
/-! SUPPORT. What the stages do: each keeps the host's part of the state and the result registers, and each chunk loop
has a closed form, the recurrence of its rule. -/

namespace Sys2Proof.Machine

/-! ### The host part and the result registers during an operation -/

/-- The interface of the block as it stands during an operation: nothing of it changes before the end. -/
def interfacePart (s : State) : Option Byte × Option Bytes × Option Bytes × Option Block × Option Block × Status ×
    Option Err × Memory :=
  (s.OP, s.P_KEY, s.P_NONCE, s.P_A, s.P_B, s.STATUS, s.ERR, s.mem)

theorem interfacePart_phaseFree (s : State) : PhaseFree fun u => interfacePart u = interfacePart s :=
  ⟨fun _ _ h => h, fun _ _ h => h, fun _ h => h⟩

theorem encryptInto_eq_val {b : Block} {s t : State} :
    encryptInto b s = .val t ↔ ∃ rk, s.RK = some rk ∧ t = { s with S := some (cipher rk b) } := by
  simp only [encryptInto, Res.bind_eq_val, need_eq_val, Res.val_eq_val]

theorem decryptInto_eq_val {b : Block} {s t : State} :
    decryptInto b s = .val t ↔ ∃ rk, s.RK = some rk ∧ t = { s with S := some (invCipher rk b) } := by
  simp only [decryptInto, Res.bind_eq_val, need_eq_val, Res.val_eq_val]

theorem checkKey_eq_val {s t : State} :
    checkKey s = .val t ↔ ∃ k, s.P_KEY = some k ∧ k.length = 16 ∧ t = s := by
  simp only [checkKey, Res.bind_eq_val, need_eq_val]
  constructor
  · rintro ⟨k, hk, h⟩
    split at h
    next hl =>
      cases h
      exact ⟨k, hk, hl, rfl⟩
    next => cases h
  · rintro ⟨k, hk, hl, rfl⟩
    exact ⟨k, hk, if_pos hl⟩

theorem checkNonce_eq_val {s t : State} :
    checkNonce s = .val t ↔ ∃ n, s.P_NONCE = some n ∧ n.length = 12 ∧ t = s := by
  simp only [checkNonce, Res.bind_eq_val, need_eq_val]
  constructor
  · rintro ⟨k, hk, h⟩
    split at h
    next hl =>
      cases h
      exact ⟨k, hk, hl, rfl⟩
    next => cases h
  · rintro ⟨k, hk, hl, rfl⟩
    exact ⟨k, hk, if_pos hl⟩

theorem expandKey_eq_val {s t : State} :
    expandKey s = .val t ↔
      ∃ k, s.P_KEY = some k ∧ k.length = 16 ∧
        t = { s with KEY := some (blockOf k), RK := some (keyExpand (blockOf k)) } := by
  simp only [expandKey, Res.bind_eq_val, need_eq_val]
  constructor
  · rintro ⟨k, hk, h⟩
    split at h
    next hl =>
      cases h
      exact ⟨k, hk, hl, rfl⟩
    next => cases h
  · rintro ⟨k, hk, hl, rfl⟩
    exact ⟨k, hk, if_pos hl⟩

theorem loadIv_eq_val {s t : State} :
    loadIv s = .val t ↔ ∃ iv, s.P_A = some iv ∧ t = { s with CHAIN := some iv, RBUF := some [] } := by
  simp only [loadIv, Res.bind_eq_val, need_eq_val, Res.val_eq_val]

theorem cbcEncChunk_eq_val {c : Bytes} {s t : State} :
    cbcEncChunk c s = .val t ↔
      ∃ prev out rk, s.CHAIN = some prev ∧ s.RBUF = some out ∧ s.RK = some rk ∧
        t = { s with
          S := some (cipher rk (xorVec (blockOf c) prev)), CHAIN := some (cipher rk (xorVec (blockOf c) prev)),
          RBUF := some (out ++ (cipher rk (xorVec (blockOf c) prev)).toList) } := by
  simp only [cbcEncChunk, Res.bind_eq_val, need_eq_val, encryptInto_eq_val]
  constructor
  · rintro ⟨prev, hp, out, ho, u, ⟨rk, hrk, rfl⟩, b, hb, h⟩
    cases hb
    cases h
    exact ⟨prev, out, rk, hp, ho, hrk, rfl⟩
  · rintro ⟨prev, out, rk, hp, ho, hrk, rfl⟩
    exact ⟨prev, hp, out, ho, _, ⟨rk, hrk, rfl⟩, _, rfl, rfl⟩

theorem cbcDecChunk_eq_val {c : Bytes} {s t : State} :
    cbcDecChunk c s = .val t ↔
      ∃ prev out rk, s.CHAIN = some prev ∧ s.RBUF = some out ∧ s.RK = some rk ∧
        t = { s with
          S := some (invCipher rk (blockOf c)), CHAIN := some (blockOf c),
          RBUF := some (out ++ (xorVec (invCipher rk (blockOf c)) prev).toList) } := by
  simp only [cbcDecChunk, Res.bind_eq_val, need_eq_val, decryptInto_eq_val]
  constructor
  · rintro ⟨prev, hp, out, ho, u, ⟨rk, hrk, rfl⟩, b, hb, h⟩
    cases hb
    cases h
    exact ⟨prev, out, rk, hp, ho, hrk, rfl⟩
  · rintro ⟨prev, out, rk, hp, ho, hrk, rfl⟩
    exact ⟨prev, hp, out, ho, _, ⟨rk, hrk, rfl⟩, _, rfl, rfl⟩

theorem ctrChunk_eq_val {W : CtrFieldBits} {c : Bytes} {s t : State} :
    ctrChunk W c s = .val t ↔
      ∃ cb out rk, s.CB = some cb ∧ s.RBUF = some out ∧ s.RK = some rk ∧
        t = { s with
          S := some (cipher rk cb), KS := some (cipher rk cb), CB := some (inc W cb),
          RBUF := some (out ++ xorBytes c (cipher rk cb).toList) } := by
  simp only [ctrChunk, Res.bind_eq_val, need_eq_val, encryptInto_eq_val]
  constructor
  · rintro ⟨cb, hp, out, ho, u, ⟨rk, hrk, rfl⟩, b, hb, h⟩
    cases hb
    cases h
    exact ⟨cb, out, rk, hp, ho, hrk, rfl⟩
  · rintro ⟨cb, out, rk, hp, ho, hrk, rfl⟩
    exact ⟨cb, hp, out, ho, _, ⟨rk, hrk, rfl⟩, _, rfl, rfl⟩

theorem ghashFold_eq_val {b : Block} {s t : State} :
    ghashFold b s = .val t ↔
      ∃ acc h, s.ACC = some acc ∧ s.H = some h ∧
        t = { s with
          Z := some (gfMul (xorVec acc b) h), V := some (gfMulRegs (xorVec acc b) h).2,
          ACC := some (gfMul (xorVec acc b) h) } := by
  simp only [ghashFold, Res.bind_eq_val, need_eq_val]
  constructor
  · rintro ⟨acc, ha, h, hh, z, hz, ht⟩
    cases hz
    cases ht
    exact ⟨acc, h, ha, hh, rfl⟩
  · rintro ⟨acc, h, ha, hh, rfl⟩
    exact ⟨acc, ha, h, hh, _, rfl, rfl⟩

theorem deriveSubkey_eq_val {s t : State} :
    deriveSubkey s = .val t ↔
      ∃ rk, s.RK = some rk ∧ t = { s with S := some (cipher rk zeroBlock), H := some (cipher rk zeroBlock) } := by
  simp only [deriveSubkey, Res.bind_eq_val, need_eq_val, encryptInto_eq_val]
  constructor
  · rintro ⟨u, ⟨rk, hrk, rfl⟩, h, hh, ht⟩
    cases hh
    cases ht
    exact ⟨rk, hrk, rfl⟩
  · rintro ⟨rk, hrk, rfl⟩
    exact ⟨_, ⟨rk, hrk, rfl⟩, _, rfl, rfl⟩

theorem loadJ0_eq_val {s t : State} :
    loadJ0 s = .val t ↔ ∃ n, s.P_NONCE = some n ∧ t = { s with J0 := some (j0Of n) } := by
  simp only [loadJ0, Res.bind_eq_val, need_eq_val, Res.val_eq_val]

theorem computeMask_eq_val {s t : State} :
    computeMask s = .val t ↔
      ∃ j0 rk, s.J0 = some j0 ∧ s.RK = some rk ∧
        t = { s with S := some (cipher rk j0), MASK := some (cipher rk j0) } := by
  simp only [computeMask, Res.bind_eq_val, need_eq_val, encryptInto_eq_val]
  constructor
  · rintro ⟨j0, hj, u, ⟨rk, hrk, rfl⟩, h, hh, ht⟩
    cases hh
    cases ht
    exact ⟨j0, rk, hj, hrk, rfl⟩
  · rintro ⟨j0, rk, hj, hrk, rfl⟩
    exact ⟨j0, hj, _, ⟨rk, hrk, rfl⟩, _, rfl, rfl⟩

theorem computeTag_eq_val {s t : State} :
    computeTag s = .val t ↔
      ∃ acc m, s.ACC = some acc ∧ s.MASK = some m ∧ t = { s with TAG := some (xorVec acc m) } := by
  simp only [computeTag, Res.bind_eq_val, need_eq_val]
  constructor
  · rintro ⟨acc, ha, m, hm, ht⟩
    cases ht
    exact ⟨acc, m, ha, hm, rfl⟩
  · rintro ⟨acc, m, ha, hm, rfl⟩
    exact ⟨acc, ha, m, hm, rfl⟩

theorem compareTags_eq_val {a b : Block} {s t : State} :
    compareTags a b s = .val t ↔ t = { s with DIFF := some (tagDiff a b) } := by
  simp [compareTags, eq_comm]

theorem judgeDiff_eq_val {s t : State} :
    judgeDiff s = .val t ↔ ∃ d, s.DIFF = some d ∧ tagMatches d = true ∧ t = s := by
  simp only [judgeDiff, Res.bind_eq_val, need_eq_val]
  constructor
  · rintro ⟨d, hd, h⟩
    split at h
    · cases h
      exact ⟨d, hd, ‹_›, rfl⟩
    · cases h
  · rintro ⟨d, hd, hm, rfl⟩
    exact ⟨d, hd, by simp [hm]⟩

theorem checkCount_eq_val {W : CtrFieldBits} {policy : WrapPolicy} {c0 : State → Res Nat} {len : Nat} {s t : State} :
    checkCount W policy c0 len s = .val t ↔
      counterOverflows len = false ∧
        (policy = .refuse → ∃ c, c0 s = .val c ∧ counterPassesTop W c len = false) ∧ t = s := by
  unfold checkCount
  cases counterOverflows len with
  | true => simp
  | false =>
    rw [if_neg Bool.false_ne_true]
    cases policy with
    | wrap => exact ⟨fun h => ⟨rfl, nofun, Res.val_eq_val.1 h⟩, fun h => Res.val_eq_val.2 h.2.2⟩
    | refuse =>
      simp only [Res.bind_eq_val, true_and, forall_const]
      constructor
      · rintro ⟨c, hc, h⟩
        split at h
        next => cases h
        next hw => exact ⟨⟨c, hc, Bool.eq_false_iff.2 hw⟩, Res.val_eq_val.1 h⟩
      · rintro ⟨⟨c, hc, hw⟩, rfl⟩
        exact ⟨c, hc, by rw [hw]; rfl⟩

theorem loadGcmCounter_eq_val {s t : State} :
    loadGcmCounter s = .val t ↔
      ∃ n, s.P_NONCE = some n ∧ t = { s with CB := some (firstCounterOf n), RBUF := some [] } := by
  simp only [loadGcmCounter, loadCounter, Res.bind_eq_val, need_eq_val, Res.val_eq_val]

theorem copyChunk_eq_val {c : Bytes} {s t : State} :
    copyChunk c s = .val t ↔ ∃ out, s.RBUF = some out ∧ t = { s with RBUF := some (out ++ c) } := by
  simp only [copyChunk, Res.bind_eq_val, need_eq_val, Res.val_eq_val]

theorem appendPadding_eq_val {s t : State} :
    appendPadding s = .val t ↔ ∃ data, s.RBUF = some data ∧ t = { s with RBUF := some (padBytes 16 data) } := by
  simp only [appendPadding, Res.bind_eq_val, need_eq_val, Res.val_eq_val]

theorem padForCbc_eq_val {s t : State} :
    padForCbc s = .val t ↔ ∃ data, s.RBUF = some data ∧ t = { s with PBUF := some (padBytes 16 data) } := by
  simp only [padForCbc, Res.bind_eq_val, need_eq_val, Res.val_eq_val]

theorem stripPadding_eq_val {s t : State} :
    stripPadding s = .val t ↔
      ∃ data r, s.RBUF = some data ∧ unpadBytes 16 data = some r ∧ t = { s with RBUF := some r } := by
  simp only [stripPadding, Config.padBlock, Res.bind_eq_val, need_eq_val]
  constructor
  · rintro ⟨data, hd, h⟩
    split at h
    next r hr =>
      cases h
      exact ⟨data, r, hd, hr, rfl⟩
    next => cases h
  · rintro ⟨data, r, hd, hr, rfl⟩
    exact ⟨data, hd, by rw [hr]⟩

theorem splitInput_eq_val {s t : State} :
    splitInput s = .val t ↔
      ¬ s.mem.DATA.length < 16 ∧ t = { s with PBUF := some (ciphertextPart s.mem.DATA) } := by
  unfold splitInput Config.tagBytes
  split <;> simp_all [eq_comm]

theorem checkCiphertextLength_eq_val {s t : State} :
    checkCiphertextLength s = .val t ↔ ¬(s.mem.DATA.length = 0 ∨ s.mem.DATA.length % 16 ≠ 0) ∧ t = s := by
  unfold checkCiphertextLength
  split
  next h => simp only [h, not_true_eq_false, false_and, reduceCtorEq]
  next h => simp only [Res.val_eq_val, h, not_false_eq_true, true_and]

/-- The operation of each meaning for any values of the two open parameters (00_scope.md R10). -/
def operationWith (W : CtrFieldBits) (policy : WrapPolicy) : Instr → Operation
  | .ctrxfrm => ctrxfrmOp W policy
  | .gcmenc => gcmencOp policy
  | .gcmdec => gcmdecOp policy
  | i => operationOf i

theorem operationWith_config (i : Instr) : operationWith Config.ctrFieldBits Config.wrapPolicy i = operationOf i := by
  cases i <;> rfl

/-- Every step of every stage of every operation keeps the interface part. -/
theorem stages_keep_interfacePart (W : CtrFieldBits) (policy : WrapPolicy) (i : Instr) (s : State) :
    ∀ g ∈ (operationWith W policy i).stages, g.Keeps fun u => interfacePart u = interfacePart s := by
  have key : stageKeyCheck.Keeps fun u => interfacePart u = interfacePart s := by
    intro u t hu h
    obtain ⟨k, _, _, rfl⟩ := checkKey_eq_val.1 h
    exact hu
  have nonce : stageNonceCheck.Keeps fun u => interfacePart u = interfacePart s := by
    intro u t hu h
    obtain ⟨k, _, _, rfl⟩ := checkNonce_eq_val.1 h
    exact hu
  have expand : stageKeyExpand.Keeps fun u => interfacePart u = interfacePart s := by
    intro u t hu h
    obtain ⟨k, _, _, rfl⟩ := expandKey_eq_val.1 h
    exact hu
  have subkey : (Stage.act .subkey deriveSubkey).Keeps fun u => interfacePart u = interfacePart s := by
    intro u t hu h
    obtain ⟨k, _, rfl⟩ := deriveSubkey_eq_val.1 h
    exact hu
  have j0 : ∀ p, (Stage.act p loadJ0).Keeps fun u => interfacePart u = interfacePart s := by
    intro p u t hu h
    obtain ⟨k, _, rfl⟩ := loadJ0_eq_val.1 h
    exact hu
  have mask : (Stage.act .mask computeMask).Keeps fun u => interfacePart u = interfacePart s := by
    intro u t hu h
    obtain ⟨k, rk, _, _, rfl⟩ := computeMask_eq_val.1 h
    exact hu
  have tag : (Stage.act .tag computeTag).Keeps fun u => interfacePart u = interfacePart s := by
    intro u t hu h
    obtain ⟨k, rk, _, _, rfl⟩ := computeTag_eq_val.1 h
    exact hu
  have fold : ∀ p items, (Stage.each p items ghashChunk).Keeps fun u => interfacePart u = interfacePart s := by
    intro p items c u t hu h
    obtain ⟨k, rk, _, _, rfl⟩ := ghashFold_eq_val.1 h
    exact hu
  have hash : ∀ c, ∀ g ∈ hashStages c, g.Keeps fun u => interfacePart u = interfacePart s := by
    intro c g hg
    simp only [hashStages, List.mem_cons, List.not_mem_nil, or_false] at hg
    rcases hg with rfl | rfl | rfl | rfl
    · intro u t hu h
      cases h
      exact hu
    · exact fold _ _
    · exact fold _ _
    · intro u t hu h
      obtain ⟨b, _, h⟩ := Res.bind_eq_val.1 h
      obtain ⟨k, rk, _, _, rfl⟩ := ghashFold_eq_val.1 h
      exact hu
  have hashTag : ∀ c, ∀ g ∈ hashTagStages c, g.Keeps fun u => interfacePart u = interfacePart s := by
    intro c g hg
    rcases List.mem_append.1 hg with hg | hg
    · exact hash c g hg
    · rcases List.mem_singleton.1 hg with rfl
      exact tag
  have iv : (Stage.act .chain loadIv).Keeps fun u => interfacePart u = interfacePart s := by
    intro u t hu h
    obtain ⟨k, _, rfl⟩ := loadIv_eq_val.1 h
    exact hu
  have ctr : ∀ items W, (Stage.each .ctr items (ctrChunk W)).Keeps fun u => interfacePart u = interfacePart s := by
    intro items W c u t hu h
    obtain ⟨cb, out, rk, _, _, _, rfl⟩ := ctrChunk_eq_val.1 h
    exact hu
  have gcmCounter : (Stage.act .ctr loadGcmCounter).Keeps fun u => interfacePart u = interfacePart s := by
    intro u t hu h
    obtain ⟨k, _, rfl⟩ := loadGcmCounter_eq_val.1 h
    exact hu
  have judge : (Stage.act .compare judgeDiff).Keeps fun u => interfacePart u = interfacePart s := by
    intro u t hu h
    obtain ⟨k, _, _, rfl⟩ := judgeDiff_eq_val.1 h
    exact hu
  have copy : ∀ p items, (Stage.each p items copyChunk).Keeps fun u => interfacePart u = interfacePart s := by
    intro p items c u t hu h
    obtain ⟨out, _, rfl⟩ := copyChunk_eq_val.1 h
    exact hu
  have start : ∀ p, (Stage.act p startCopy).Keeps fun u => interfacePart u = interfacePart s := by
    intro p u t hu h
    cases h
    exact hu
  have unpad : (Stage.act .unpad stripPadding).Keeps fun u => interfacePart u = interfacePart s := by
    intro u t hu h
    obtain ⟨data, r, _, _, rfl⟩ := stripPadding_eq_val.1 h
    exact hu
  intro g hg
  cases i <;>
    simp only [operationWith, operationOf, copyDataStages, keyexpOp, encblkOp, decblkOp, padOp, unpadOp, cbcencOp,
      cbcdecOp, ctrxfrmOp, gfmulOp, ghashOp, taggenOp, tagcmpOp, gcmencOp, gcmdecOp, List.mem_append, List.mem_cons, List.not_mem_nil,
      or_false] at hg
  case keyexp =>
    rcases hg with rfl | rfl
    exacts [key, expand]
  case encblk =>
    rcases hg with rfl | rfl | rfl
    · exact key
    · exact expand
    · intro u t hu h
      obtain ⟨b, _, h⟩ := Res.bind_eq_val.1 h
      obtain ⟨rk, _, rfl⟩ := encryptInto_eq_val.1 h
      exact hu
  case decblk =>
    rcases hg with rfl | rfl | rfl
    · exact key
    · exact expand
    · intro u t hu h
      obtain ⟨b, _, h⟩ := Res.bind_eq_val.1 h
      obtain ⟨rk, _, rfl⟩ := decryptInto_eq_val.1 h
      exact hu
  case pad =>
    rcases hg with (rfl | rfl) | rfl
    · exact start _
    · exact copy _ _
    · intro u t hu h
      obtain ⟨data, _, rfl⟩ := appendPadding_eq_val.1 h
      exact hu
  case unpad =>
    rcases hg with (rfl | rfl) | rfl
    exacts [start _, copy _ _, unpad]
  case cbcenc =>
    rcases hg with ((rfl | rfl) | rfl | rfl) | rfl | rfl | rfl
    · exact key
    · exact expand
    · exact start _
    · exact copy _ _
    · intro u t hu h
      obtain ⟨data, _, rfl⟩ := padForCbc_eq_val.1 h
      exact hu
    · exact iv
    · intro c u t hu h
      obtain ⟨prev, out, rk, _, _, _, rfl⟩ := cbcEncChunk_eq_val.1 h
      exact hu
  case cbcdec =>
    rcases hg with rfl | rfl | rfl | rfl | rfl | rfl
    · intro u t hu h
      obtain ⟨_, rfl⟩ := checkCiphertextLength_eq_val.1 h
      exact hu
    · exact key
    · exact expand
    · exact iv
    · intro c u t hu h
      obtain ⟨prev, out, rk, _, _, _, rfl⟩ := cbcDecChunk_eq_val.1 h
      exact hu
    · exact unpad
  case ctrxfrm =>
    rcases hg with rfl | rfl | rfl | rfl | rfl
    · exact key
    · intro u t hu h
      obtain ⟨_, _, rfl⟩ := checkCount_eq_val.1 h
      exact hu
    · exact expand
    · intro u t hu h
      obtain ⟨cb, _, h⟩ := Res.bind_eq_val.1 h
      cases h
      exact hu
    · exact ctr _ _
  case gfmul =>
    rcases hg with rfl
    intro u t hu h
    obtain ⟨x, _, h⟩ := Res.bind_eq_val.1 h
    obtain ⟨y, _, h⟩ := Res.bind_eq_val.1 h
    cases h
    exact hu
  case ghash =>
    rcases hg with rfl | hg
    · intro u t hu h
      obtain ⟨x, _, h⟩ := Res.bind_eq_val.1 h
      cases h
      exact hu
    · exact hash _ g hg
  case taggen =>
    rcases hg with (rfl | rfl | rfl | rfl | rfl | rfl) | hg
    exacts [key, nonce, expand, subkey, j0 _, mask, hashTag _ g hg]
  case tagcmp =>
    rcases hg with rfl | rfl
    · intro u t hu h
      obtain ⟨x, _, h⟩ := Res.bind_eq_val.1 h
      obtain ⟨y, _, h⟩ := Res.bind_eq_val.1 h
      cases h
      exact hu
    · exact judge
  case gcmenc =>
    rcases hg with (rfl | rfl | rfl | rfl | rfl | rfl | rfl | rfl | rfl) | hg
    · exact key
    · exact nonce
    · exact expand
    · exact subkey
    · exact j0 _
    · intro u t hu h
      obtain ⟨_, _, rfl⟩ := checkCount_eq_val.1 h
      exact hu
    · exact gcmCounter
    · exact ctr _ _
    · exact mask
    · exact hashTag _ g hg
  case gcmdec =>
    rcases hg with ((rfl | rfl | rfl | rfl | rfl | rfl | rfl) | hg) | (rfl | rfl | rfl | rfl | rfl)
    · intro u t hu h
      obtain ⟨_, rfl⟩ := splitInput_eq_val.1 h
      exact hu
    · exact key
    · exact nonce
    · exact expand
    · exact subkey
    · exact j0 _
    · exact mask
    · exact hashTag _ g hg
    · intro u t hu h
      obtain ⟨x, _, h⟩ := Res.bind_eq_val.1 h
      cases h
      exact hu
    · exact judge
    · intro u t hu h
      obtain ⟨c, _, h⟩ := Res.bind_eq_val.1 h
      obtain ⟨_, _, rfl⟩ := checkCount_eq_val.1 h
      exact hu
    · exact gcmCounter
    · exact ctr _ _

/-! ### The chunk loops in closed form -/

/-- The copying loop of Pad and Unpad. -/
theorem runEach_copyChunk (cs : List Bytes) (s : State) (out : Bytes) (hout : s.RBUF = some out) :
    ∃ BLK, runEach copyChunk cs s = .done { s with BLK := BLK, RBUF := some (out ++ cs.flatten) } := by
  induction cs generalizing s out with
  | nil => exact ⟨s.BLK, by simp [runEach, ← hout]⟩
  | cons c cs ih =>
    let u : State := { s with RBUF := some (out ++ c) }
    have h : copyChunk c s = .val u := copyChunk_eq_val.2 ⟨out, hout, rfl⟩
    obtain ⟨BLK, hr⟩ := ih (advanceBlk u) _ rfl
    exact ⟨BLK, by simp only [runEach, h]; rw [hr]; simp [u]⟩

/-- The loop of CBC encryption is the recurrence of 42_cbc.md R160. -/
theorem runEach_cbcEncChunk (rk : Schedule) (cs : List Bytes) (s : State) (prev : Block) (out : Bytes)
    (hrk : s.RK = some rk) (hchain : s.CHAIN = some prev) (hout : s.RBUF = some out) :
    ∃ S CHAIN BLK, runEach cbcEncChunk cs s =
      .done { s with S := S, CHAIN := CHAIN, BLK := BLK, RBUF := some (out ++ cbcEncFrom rk prev cs) } := by
  induction cs generalizing s prev out with
  | nil => exact ⟨s.S, s.CHAIN, s.BLK, by simp [runEach, cbcEncFrom, ← hout]⟩
  | cons c cs ih =>
    let u : State := { s with
      S := some (cipher rk (xorVec (blockOf c) prev)), CHAIN := some (cipher rk (xorVec (blockOf c) prev)),
      RBUF := some (out ++ (cipher rk (xorVec (blockOf c) prev)).toList) }
    have h : cbcEncChunk c s = .val u := cbcEncChunk_eq_val.2 ⟨prev, out, rk, hchain, hout, hrk, rfl⟩
    obtain ⟨S, CHAIN, BLK, hr⟩ := ih (advanceBlk u) _ _ hrk rfl rfl
    exact ⟨S, CHAIN, BLK, by simp only [runEach, h]; rw [hr]; simp [u, cbcEncFrom]⟩

/-- The loop of CBC decryption is the recurrence of 42_cbc.md R163. -/
theorem runEach_cbcDecChunk (rk : Schedule) (cs : List Bytes) (s : State) (prev : Block) (out : Bytes)
    (hrk : s.RK = some rk) (hchain : s.CHAIN = some prev) (hout : s.RBUF = some out) :
    ∃ S CHAIN BLK, runEach cbcDecChunk cs s =
      .done { s with S := S, CHAIN := CHAIN, BLK := BLK, RBUF := some (out ++ cbcDecFrom rk prev cs) } := by
  induction cs generalizing s prev out with
  | nil => exact ⟨s.S, s.CHAIN, s.BLK, by simp [runEach, cbcDecFrom, ← hout]⟩
  | cons c cs ih =>
    let u : State := { s with
      S := some (invCipher rk (blockOf c)), CHAIN := some (blockOf c),
      RBUF := some (out ++ (xorVec (invCipher rk (blockOf c)) prev).toList) }
    have h : cbcDecChunk c s = .val u := cbcDecChunk_eq_val.2 ⟨prev, out, rk, hchain, hout, hrk, rfl⟩
    obtain ⟨S, CHAIN, BLK, hr⟩ := ih (advanceBlk u) _ _ hrk rfl rfl
    exact ⟨S, CHAIN, BLK, by simp only [runEach, h]; rw [hr]; simp [u, cbcDecFrom]⟩

/-- The loop of counter mode (43_ctr.md R178, R179). -/
theorem runEach_ctrChunk (W : CtrFieldBits) (rk : Schedule) (cs : List Bytes) (s : State) (cb : Block) (out : Bytes)
    (hrk : s.RK = some rk) (hcb : s.CB = some cb) (hout : s.RBUF = some out) :
    ∃ S KS BLK, runEach (ctrChunk W) cs s =
      .done { s with
        S := S, KS := KS, BLK := BLK, CB := some (incN W cs.length cb),
        RBUF := some (out ++ ctrFrom W rk cb cs) } := by
  induction cs generalizing s cb out with
  | nil => exact ⟨s.S, s.KS, s.BLK, by simp [runEach, ctrFrom, incN, ← hout, ← hcb]⟩
  | cons c cs ih =>
    let u : State := { s with
      S := some (cipher rk cb), KS := some (cipher rk cb), CB := some (inc W cb),
      RBUF := some (out ++ xorBytes c (cipher rk cb).toList) }
    have h : ctrChunk W c s = .val u := ctrChunk_eq_val.2 ⟨cb, out, rk, hcb, hout, hrk, rfl⟩
    obtain ⟨S, KS, BLK, hr⟩ := ih (advanceBlk u) _ _ hrk rfl rfl
    exact ⟨S, KS, BLK, by simp only [runEach, h]; rw [hr]; simp [u, ctrFrom, incN]⟩

/-- The loop of GHASH over one byte string (44_gf128_ghash.md R197). -/
theorem runEach_ghashChunk (h : Block) (cs : List Bytes) (s : State) (acc : Block)
    (hh : s.H = some h) (hacc : s.ACC = some acc) :
    ∃ Z V BLK, runEach ghashChunk cs s =
      .done { s with Z := Z, V := V, BLK := BLK, ACC := some (ghashFrom h acc cs) } := by
  induction cs generalizing s acc with
  | nil => exact ⟨s.Z, s.V, s.BLK, by simp [runEach, ghashFrom, ← hacc]⟩
  | cons c cs ih =>
    let u : State := { s with
      Z := some (gfMul (xorVec acc (blockOf c)) h), V := some (gfMulRegs (xorVec acc (blockOf c)) h).2,
      ACC := some (gfMul (xorVec acc (blockOf c)) h) }
    have hf : ghashChunk c s = .val u := ghashFold_eq_val.2 ⟨acc, h, hacc, hh, rfl⟩
    obtain ⟨Z, V, BLK, hr⟩ := ih (advanceBlk u) _ hh rfl
    exact ⟨Z, V, BLK, by simp only [runEach, hf]; rw [hr]; simp [u, ghashFrom]⟩

end Sys2Proof.Machine
end

