-- ==== Sys2Proof/Laws/Runs.lean ====
section
/-! SUPPORT. Reasoning forward through the stages of an operation: one rule per kind of stage, one per chunk loop, and the
rule that turns how a run ends into what `exec` answers. -/

namespace Sys2Proof.Machine

/-! ### From the run of the stages to the answer of `exec` -/

/-- Every meaning is the run of its operation over the slots it reads. -/
theorem exec_eq_runOperation (i : Instr) (s : State) : exec i s = runOperation (slotsRead i) (operationOf i) s := by
  cases i <;> rfl

/-- A state with the interface part of the start of an operation releases, and enters an error, as the state at issue. -/
theorem settle_of_interfacePart {s u : State} (h : interfacePart u = interfacePart (begin s)) (r : ApiResult) :
    settle r u = settle r s := by
  simp only [interfacePart, Prod.mk.injEq] at h
  obtain ⟨h1, h2, h3, h4, h5, -, -, h8⟩ := h
  cases r with
  | ok out => exact release_congr out h1 h2 h3 h4 h5 (by rw [h8]; rfl) (by rw [h8]; rfl)
  | error e => exact enterError_congr e h1 h2 h3 h4 h5 (by rw [h8]; rfl) (by rw [h8]; rfl)

/-- How a run of stages ends, as the host's call sees it: the operation's result, the error raised, or the stop. -/
def Run.Yields (result : State → Res Bytes) (r : CallResult) : Run → Prop
  | .done u =>
    match result (enterPhase .commit u) with
    | .val out => r = .ok out
    | .raise e => r = .error e
    | .fault f => r = .fault f
    | .refused x => r = .refused x
  | .raised e _ => r = .error e
  | .fault f => r = .fault f
  | .refused x => r = .refused x

/-- The end of a transaction: release, error entry, or the stop. -/
def conclude (r : CallResult) (s : State) : Host.Outcome State Fault Refusal :=
  match r with
  | .ok out => .next (release out s)
  | .error e => .next (enterError e s)
  | .fault f => .fault f
  | .refused x => .refused x

@[simp] theorem conclude_callOf (r : ApiResult) (s : State) : conclude (callOf r) s = .next (settle r s) := by
  cases r <;> rfl

/-- An operation whose stages keep the interface part, taken at issue, ends as its stages yield. -/
theorem runOperation_of_yields {l : List Slot} {o : Operation} {s : State} {r : CallResult}
    (ha : l.all (fits s) = true) (ho : ∀ g ∈ o.stages, g.Keeps fun u => interfacePart u = interfacePart (begin s))
    (hr : (runStages o.stages (begin s)).Yields o.result r) : runOperation l o s = conclude r s := by
  have hk := runStages_keeps (interfacePart_phaseFree (begin s)) _ ho (begin s) rfl
  simp only [runOperation, admitSlots_eq_val.2 ha]
  cases hc : runStages o.stages (begin s) with
  | done u =>
    rw [hc] at hr hk
    simp only [Run.Yields] at hr
    simp only [commit]
    cases hres : o.result (enterPhase .commit u) with
    | val out =>
      rw [hres] at hr
      rw [hr]
      exact congrArg Host.Outcome.next (settle_of_interfacePart hk (.ok out))
    | raise e =>
      rw [hres] at hr
      rw [hr]
      exact congrArg Host.Outcome.next (settle_of_interfacePart hk (.error e))
    | fault f => rw [hres] at hr; rw [hr]; rfl
    | refused x => rw [hres] at hr; rw [hr]; rfl
  | raised e u =>
    rw [hc] at hr hk
    cases hr
    exact congrArg Host.Outcome.next (settle_of_interfacePart hk (.error e))
  | fault f => rw [hc] at hr; cases hr; rfl
  | refused x => rw [hc] at hr; cases hr; rfl

/-- A command taken at issue ends as the stages of its operation yield. -/
theorem exec_of_yields {i : Instr} {s : State} {r : CallResult} (ha : (slotsRead i).all (fits s) = true)
    (hr : (runStages (operationOf i).stages (begin s)).Yields (operationOf i).result r) :
    exec i s = conclude r s := by
  rw [exec_eq_runOperation]
  exact runOperation_of_yields ha (operationWith_config i ▸ stages_keep_interfacePart _ _ i (begin s)) hr

/-- The same for any values of the two open parameters: `execCtrxfrmWith`, `execGcmencWith` and `execGcmdecWith` are
such runs by definition. -/
theorem runOperation_of_yieldsWith {W : CtrFieldBits} {policy : WrapPolicy} {i : Instr} {s : State} {r : CallResult}
    (ha : (slotsRead i).all (fits s) = true)
    (hr : (runStages (operationWith W policy i).stages (begin s)).Yields (operationWith W policy i).result r) :
    runOperation (slotsRead i) (operationWith W policy i) s = conclude r s :=
  runOperation_of_yields ha (stages_keep_interfacePart W policy i (begin s)) hr

/-- A command with a longer buffer than is legal is refused, whatever else it carries (20_memory.md R53). -/
theorem exec_refused {i : Instr} {s : State} (ha : ¬ (slotsRead i).all (fits s) = true) :
    ∃ b, exec i s = .refused (.bufferTooLong b) := by
  obtain ⟨b, hb⟩ := admitSlots_refused ha
  exact ⟨b, by rw [exec_eq_runOperation]; simp [runOperation, hb]⟩

/-! ### One rule per kind of stage -/

theorem yields_act {o : State → Res Bytes} {r : CallResult} {p : Phase} {f : State → Res State} {gs : List Stage}
    {s t : State} (h : f (enterPhase p s) = .val t) (ht : (runStages gs t).Yields o r) :
    (runStages (.act p f :: gs) s).Yields o r := by
  rwa [runStages_cons_done (run_act_val h)]

theorem yields_raise {o : State → Res Bytes} {p : Phase} {f : State → Res State} {gs : List Stage} {s : State} {e : Err}
    (h : f (enterPhase p s) = .raise e) : (runStages (.act p f :: gs) s).Yields o (.error e) := by
  rw [runStages_cons_raised (run_act_raise h)]
  rfl

theorem yields_fault {o : State → Res Bytes} {p : Phase} {f : State → Res State} {gs : List Stage} {s : State} {x : Fault}
    (h : f (enterPhase p s) = .fault x) : (runStages (.act p f :: gs) s).Yields o (.fault x) := by
  simp [runStages, run_act_fault h, Run.Yields]

theorem yields_refused {o : State → Res Bytes} {p : Phase} {f : State → Res State} {gs : List Stage} {s : State}
    {x : Refusal} (h : f (enterPhase p s) = .refused x) : (runStages (.act p f :: gs) s).Yields o (.refused x) := by
  simp [runStages, run_act_refused h, Run.Yields]

theorem yields_each {o : State → Res Bytes} {r : CallResult} {p : Phase} {items : State → Res (List Bytes)}
    {f : Bytes → State → Res State} {gs : List Stage} {s t : State} {l : List Bytes}
    (hi : items (enterLoop p s) = .val l) (h : runEach f l (enterLoop p s) = .done t)
    (ht : (runStages gs t).Yields o r) : (runStages (.each p items f :: gs) s).Yields o r := by
  rwa [runStages_cons_done ((run_each_val hi).trans h)]

theorem yields_end {o : State → Res Bytes} {s : State} {out : Bytes} (h : o (enterPhase .commit s) = .val out) :
    (runStages [] s).Yields o (.ok out) := by
  simp [Run.Yields, h]

/-- Forgetting what the rest of the run does not need: `P` is what is kept of the state reached so far. -/
theorem yields_forall {o : State → Res Bytes} {r : CallResult} {gs : List Stage} {s : State} (P : State → Prop) (hs : P s)
    (h : ∀ u, P u → (runStages gs u).Yields o r) : (runStages gs s).Yields o r := h s hs

/-! ### One rule per chunk loop -/

theorem yields_copyChunks {o : State → Res Bytes} {r : CallResult} {p : Phase} {items : State → Res (List Bytes)}
    {gs : List Stage} {s : State} (l : List Bytes) (out : Bytes) (hi : items (enterLoop p s) = .val l)
    (hout : s.RBUF = some out)
    (ht : ∀ BLK, (runStages gs { s with
      PHASE := p, BLK := BLK, RBUF := some (out ++ l.flatten) }).Yields o r) :
    (runStages (.each p items copyChunk :: gs) s).Yields o r := by
  obtain ⟨BLK, h⟩ := runEach_copyChunk l (enterLoop p s) out hout
  exact yields_each hi h (ht BLK)

/-- The stages in which `DATA` is copied (41_padding.md R150, R152). -/
theorem yields_copyDataStages {o : State → Res Bytes} {r : CallResult} {p : Phase} {gs : List Stage} {s : State}
    (ht : ∀ BLK, (runStages gs { s with
      PHASE := p, BLK := BLK, RBUF := some (chunks s.mem.DATA).flatten }).Yields o r) :
    (runStages (copyDataStages p ++ gs) s).Yields o r :=
  yields_act rfl (yields_copyChunks (chunks s.mem.DATA) [] rfl rfl ht)

theorem yields_cbcEncChunks {o : State → Res Bytes} {r : CallResult} {p : Phase} {items : State → Res (List Bytes)}
    {gs : List Stage} {s : State} (l : List Bytes) (rk : Schedule) (prev : Block) (out : Bytes)
    (hi : items (enterLoop p s) = .val l) (hrk : s.RK = some rk) (hchain : s.CHAIN = some prev)
    (hout : s.RBUF = some out)
    (ht : ∀ S CHAIN BLK, (runStages gs { s with
      PHASE := p, S := S, CHAIN := CHAIN, BLK := BLK, RBUF := some (out ++ cbcEncFrom rk prev l) }).Yields o r) :
    (runStages (.each p items cbcEncChunk :: gs) s).Yields o r := by
  obtain ⟨S, CHAIN, BLK, h⟩ := runEach_cbcEncChunk rk l (enterLoop p s) prev out hrk hchain hout
  exact yields_each hi h (ht S CHAIN BLK)

theorem yields_cbcDecChunks {o : State → Res Bytes} {r : CallResult} {p : Phase} {items : State → Res (List Bytes)}
    {gs : List Stage} {s : State} (l : List Bytes) (rk : Schedule) (prev : Block) (out : Bytes)
    (hi : items (enterLoop p s) = .val l) (hrk : s.RK = some rk) (hchain : s.CHAIN = some prev)
    (hout : s.RBUF = some out)
    (ht : ∀ S CHAIN BLK, (runStages gs { s with
      PHASE := p, S := S, CHAIN := CHAIN, BLK := BLK, RBUF := some (out ++ cbcDecFrom rk prev l) }).Yields o r) :
    (runStages (.each p items cbcDecChunk :: gs) s).Yields o r := by
  obtain ⟨S, CHAIN, BLK, h⟩ := runEach_cbcDecChunk rk l (enterLoop p s) prev out hrk hchain hout
  exact yields_each hi h (ht S CHAIN BLK)

theorem yields_ctrChunks {o : State → Res Bytes} {r : CallResult} {p : Phase} {items : State → Res (List Bytes)}
    {gs : List Stage} {s : State} {W : CtrFieldBits} (l : List Bytes) (rk : Schedule) (cb : Block) (out : Bytes)
    (hi : items (enterLoop p s) = .val l) (hrk : s.RK = some rk) (hcb : s.CB = some cb) (hout : s.RBUF = some out)
    (ht : ∀ S KS BLK, (runStages gs { s with
      PHASE := p, S := S, KS := KS, BLK := BLK, CB := some (incN W l.length cb),
      RBUF := some (out ++ ctrFrom W rk cb l) }).Yields o r) :
    (runStages (.each p items (ctrChunk W) :: gs) s).Yields o r := by
  obtain ⟨S, KS, BLK, h⟩ := runEach_ctrChunk W rk l (enterLoop p s) cb out hrk hcb hout
  exact yields_each hi h (ht S KS BLK)

theorem yields_ghashChunks {o : State → Res Bytes} {r : CallResult} {p : Phase} {items : State → Res (List Bytes)}
    {gs : List Stage} {s : State} (l : List Bytes) (h acc : Block)
    (hi : items (enterLoop p s) = .val l) (hh : s.H = some h) (hacc : s.ACC = some acc)
    (ht : ∀ Z V BLK, (runStages gs { s with
      PHASE := p, Z := Z, V := V, BLK := BLK, ACC := some (ghashFrom h acc l) }).Yields o r) :
    (runStages (.each p items ghashChunk :: gs) s).Yields o r := by
  obtain ⟨Z, V, BLK, hr⟩ := runEach_ghashChunk h l (enterLoop p s) acc hh hacc
  exact yields_each hi hr (ht Z V BLK)

/-- The stages of GHASH over the AAD and a ciphertext `b` that no GHASH step changes (44_gf128_ghash.md R197). -/
theorem yields_hashStages {o : State → Res Bytes} {r : CallResult} {gs : List Stage} {s : State} (c : State → Res Bytes)
    (h : Block) (b : Bytes) (hh : s.H = some h)
    (hc : ∀ PHASE BLK ACC Z V, c { s with PHASE := PHASE, BLK := BLK, ACC := ACC, Z := Z, V := V } = .val b)
    (ht : ∀ Z V BLK, (runStages gs { s with
      PHASE := .hash, Z := Z, V := V, BLK := BLK, ACC := some (ghash h s.mem.AAD b) }).Yields o r) :
    (runStages (hashStages c ++ gs) s).Yields o r := by
  refine yields_act rfl (yields_ghashChunks (chunks s.mem.AAD) h zeroBlock rfl hh rfl fun Z V BLK => ?_)
  refine yields_ghashChunks (chunks b) h (ghashFrom h zeroBlock (chunks s.mem.AAD)) ?_ hh rfl fun Z' V' BLK' => ?_
  · exact Res.bind_eq_val.2 ⟨b, hc _ _ _ _ _, rfl⟩
  · exact yields_act (Res.bind_eq_val.2 ⟨b, hc _ _ _ _ _, ghashFold_eq_val.2 ⟨_, h, rfl, hh, rfl⟩⟩) (ht _ _ BLK')

/-- The hash and the tag of GCM (45_gcm.md R212). -/
theorem yields_hashTagStages {o : State → Res Bytes} {r : CallResult} {gs : List Stage} {s : State}
    (c : State → Res Bytes) (h m : Block) (b : Bytes) (hh : s.H = some h) (hm : s.MASK = some m)
    (hc : ∀ PHASE BLK ACC Z V, c { s with PHASE := PHASE, BLK := BLK, ACC := ACC, Z := Z, V := V } = .val b)
    (ht : ∀ Z V BLK, (runStages gs { s with
      PHASE := .tag, Z := Z, V := V, BLK := BLK, ACC := some (ghash h s.mem.AAD b),
      TAG := some (xorVec (ghash h s.mem.AAD b) m) }).Yields o r) :
    (runStages (hashTagStages c ++ gs) s).Yields o r := by
  unfold hashTagStages
  rw [List.append_assoc]
  refine yields_hashStages c h b hh hc fun Z V BLK => ?_
  exact yields_act (computeTag_eq_val.2 ⟨_, m, rfl, hm, rfl⟩) (ht Z V BLK)

/-! ### What the checks raise -/

theorem checkKey_raise {s : State} {k : Bytes} (h : s.P_KEY = some k) (hl : k.length ≠ 16) :
    checkKey s = .raise .invalidKeyLength := by
  simp [checkKey, h, Config.keyBytes, hl]

theorem checkNonce_raise {s : State} {n : Bytes} (h : s.P_NONCE = some n) (hl : n.length ≠ 12) :
    checkNonce s = .raise .invalidNonceLength := by
  simp [checkNonce, h, Config.nonceBytes, hl]

theorem checkCiphertextLength_raise {s : State} (h : s.mem.DATA.length = 0 ∨ s.mem.DATA.length % 16 ≠ 0) :
    checkCiphertextLength s = .raise .invalidCiphertextLength := if_pos h

theorem splitInput_raise {s : State} (h : s.mem.DATA.length < 16) : splitInput s = .raise .ciphertextTooShort := if_pos h

theorem checkCount_raise {W : CtrFieldBits} {policy : WrapPolicy} {c0 : State → Res Nat} {len : Nat} {s : State}
    (h : counterOverflows len = true) : checkCount W policy c0 len s = .raise .counterOverflow := if_pos h

theorem checkCount_refused {W : CtrFieldBits} {c0 : State → Res Nat} {len c : Nat} {s : State}
    (h : counterOverflows len = false) (hc : c0 s = .val c) (hw : counterPassesTop W c len = true) :
    checkCount W .refuse c0 len s = .refused .counterWraps := by
  simp [checkCount, h, hc, hw]

theorem stripPadding_raise {data : Bytes} {s : State} (h : s.RBUF = some data) (hu : unpadBytes 16 data = none) :
    stripPadding s = .raise .invalidPadding := by
  simp [stripPadding, Config.padBlock, h, hu]

theorem judgeDiff_raise {s : State} {d : Byte} (h : s.DIFF = some d) (hd : tagMatches d = false) :
    judgeDiff s = .raise .authenticationFailed := by
  simp [judgeDiff, h, hd]

/-! ### What a missing operand slot does where it is read -/

theorem checkKey_fault {s : State} (h : s.P_KEY = none) : checkKey s = .fault (.noValue .P_KEY) := by
  simp [checkKey, h]

theorem checkNonce_fault {s : State} (h : s.P_NONCE = none) : checkNonce s = .fault (.noValue .P_NONCE) := by
  simp [checkNonce, h]

theorem loadIv_fault {s : State} (h : s.P_A = none) : loadIv s = .fault (.noValue .P_A) := by
  simp [loadIv, h]

theorem startField_fault {W : CtrFieldBits} {s : State} (h : s.P_A = none) :
    startField W s = .fault (.noValue .P_A) := by
  simp [startField, h]

end Sys2Proof.Machine
end

