-- ==== Sys2Proof/Tests/Slice0.lean ====
section
/-! SUPPORT. Tests. The expected values are the spec's (95_test_vectors.md), named per test. -/

namespace Sys2Proof.Tests

/-! One test after another: side by side, the threads that evaluate them take more memory than a check has. -/

set_option Elab.async false

open Sys2Proof.Machine

/-! ### Decoding: each operation's word of 30_encoding.md R82, written out bit by bit -/

theorem test_decode_block_cipher :
    decode [0b00000001#8] = .ok (.keyexp, []) ∧ decode [0b00000010#8] = .ok (.encblk, []) ∧
      decode [0b00000011#8] = .ok (.decblk, []) := by decide

theorem test_decode_padding :
    decode [0b00000100#8] = .ok (.pad, []) ∧ decode [0b00000101#8] = .ok (.unpad, []) := by decide

theorem test_decode_cbc_ctr :
    decode [0b00000110#8] = .ok (.cbcenc, []) ∧ decode [0b00000111#8] = .ok (.cbcdec, []) ∧
      decode [0b00001000#8] = .ok (.ctrxfrm, []) := by decide

theorem test_decode_ghash :
    decode [0b00001001#8] = .ok (.gfmul, []) ∧ decode [0b00001010#8] = .ok (.ghash, []) := by decide

theorem test_decode_gcm :
    decode [0b00001011#8] = .ok (.taggen, []) ∧ decode [0b00001100#8] = .ok (.tagcmp, []) ∧
      decode [0b00001101#8] = .ok (.gcmenc, []) ∧ decode [0b00001110#8] = .ok (.gcmdec, []) := by decide

/-- 30_encoding.md R96: the boundary values of the reserved ranges, and no byte at all. -/
theorem test_decode_reserved :
    decode [0x00] = .error (.reservedCode 0x00) ∧ decode [0x0F] = .error (.reservedCode 0x0F) ∧
      decode [0xFF] = .error (.reservedCode 0xFF) ∧ decode [] = .error .noCommandWord := by decide

/-- Bits above the word's length are taken as zero, and bytes after the command word are no command word. -/
theorem test_decodeTableWord :
    decodeTableWord 8 0x10E = some .gcmdec ∧ decodeTableWord 16 0x010E = none ∧ decodeTableWord 8 0x0F = none := by
  decide

/-! ### WellFormed: a well-formed command, and one ill-formed command for each check -/

/-- ENCBLK with a key and a block (95_test_vectors.md V15). -/
def goodCommand : Command where
  op := 0x02
  pKey := some (List.replicate 16 0)
  pNonce := none
  pA := some zeroBlock
  pB := none
  aad := []
  data := []

theorem test_wellFormed : goodCommand.wellFormed = true := by decide
theorem test_illFormed_reserved_low : ({ goodCommand with op := 0x00 } : Command).wellFormed = false := by decide
theorem test_illFormed_reserved_high : ({ goodCommand with op := 0x0F } : Command).wellFormed = false := by decide
theorem test_illFormed_no_key : ({ goodCommand with pKey := none } : Command).wellFormed = false := by decide
theorem test_illFormed_no_block : ({ goodCommand with pA := none } : Command).wellFormed = false := by decide
theorem test_illFormed_no_nonce : ({ goodCommand with op := 0x0D } : Command).wellFormed = false := by decide
theorem test_illFormed_no_second_block : ({ goodCommand with op := 0x09 } : Command).wellFormed = false := by decide

/-- A buffer one byte longer than `MAX_LEN_BYTES` (20_memory.md R53), whichever buffer it is. -/
theorem test_illFormed_long_buffer :
    ∃ d : Bytes, d.length = 2 ^ 61 ∧ ({ goodCommand with op := 0x04, data := d } : Command).wellFormed = false ∧
      ({ goodCommand with op := 0x0A, aad := d } : Command).wellFormed = false := by
  obtain ⟨d, h⟩ : ∃ d : Bytes, d.length = 2 ^ 61 := ⟨List.replicate _ 0, List.length_replicate⟩
  refine ⟨d, h, ?_⟩
  simp [Command.wellFormed, reservedOp, decodeOp, slotsRead, Command.fits, Config.maxLenBytes, h]

/-! ### Small states -/

/-- The state after reset with operands in its slots. -/
def st (key nonce : Bytes) (a b : Block) (aad data : Bytes) : State :=
  { State.reset with
    P_KEY := some key, P_NONCE := some nonce, P_A := some a, P_B := some b
    mem := { AAD := aad, DATA := data, OUT := [] } }

/-- A block written as a hexadecimal number. -/
def blk (v : Nat) : Block := blockOf (be 16 v)

/-- The result triple `(OK, 0x00, out)`. -/
def okay (out : Bytes) : Option ResultTriple := some { status := .ok, err := none, out := out }

/-- The result triple `(ERROR, code, empty)`. -/
def failed (e : Err) : Option ResultTriple := some { status := .error, err := some e, out := [] }

/-- Sixteen, and twelve, zero bytes. -/
def key0 : Bytes := List.replicate 16 0
def nonce0 : Bytes := List.replicate 12 0

/-- The key `"1234567890123456"` and the nonce `"123456789012"` (V5). -/
def keyV5 : Bytes := be 16 0x31323334353637383930313233343536
def nonceV5 : Bytes := be 12 0x313233343536373839303132

/-- The key of V1. -/
def keyV1 : Bytes := be 16 0x2b7e151628aed2a6abf7158809cf4f3c

/-! ### Micro-operations (V23, V36, V33) -/

theorem test_gf256 :
    xtime 0x57 = 0xae ∧ xtime 0x80 = 0x1b ∧ gmul 0x57 0x13 = 0xfe ∧ gmul 0x02 0x8d = 0x01 := by decide

theorem test_sbox :
    sbox 0x00 = 0x63 ∧ sbox 0x53 = 0xed ∧ sbox 0xff = 0x16 ∧ invSbox 0x00 = 0x52 ∧ invSbox 0x63 = 0x00 ∧
      invSbox 0xff = 0x7d := by decide

theorem test_shiftRows :
    shiftRows (blk 0x000102030405060708090a0b0c0d0e0f) = blk 0x00050a0f04090e03080d02070c01060b ∧
      invShiftRows (blk 0x000102030405060708090a0b0c0d0e0f) = blk 0x000d0a0704010e0b0805020f0c090603 := by
  decide +kernel

theorem test_mixColumns :
    mixColumns (blk 0xdb135345f20a225c01010101c6c6c6c6) = blk 0x8e4da1bc9fdc589d01010101c6c6c6c6 ∧
      invMixColumns (blk 0x000102030405060708090a0b0c0d0e0f) = blk 0x0a0f080d0e0b0c090207000506030401 := by
  decide +kernel

theorem test_words :
    rotWord #v[0x09, 0xcf, 0x4f, 0x3c] = #v[0xcf, 0x4f, 0x3c, 0x09] ∧
      subWord #v[0xcf, 0x4f, 0x3c, 0x09] = #v[0x8a, 0x84, 0xeb, 0x01] := by decide +kernel

/-- V36: the carry out of the 32-bit field is dropped, that out of byte 12 of the 128-bit one is not. -/
theorem test_inc :
    inc .w32 (blk 0x0102030405060708090a0b0cffffffff) = blk 0x0102030405060708090a0b0c00000000 ∧
      inc .w128 (blk 0x0102030405060708090a0b0cffffffff) = blk 0x0102030405060708090a0b0d00000000 := by
  decide +kernel

/-- V37: the bound on the chunks of one call. -/
theorem test_counterOverflow_bound :
    counterOverflows (2 ^ 36) = false ∧ counterOverflows (2 ^ 36 + 1) = true ∧ nchunks (2 ^ 36 - 15) = 2 ^ 32 := by
  decide

/-! ### KEYEXP, ENCBLK, DECBLK -/

/-- V4: round key 10, the last 16 bytes of the result. -/
theorem test_keyexp :
    (resultOf (exec .keyexp (st keyV1 nonce0 zeroBlock zeroBlock [] []))).map (fun r => r.out.drop 160) =
      some (be 16 0xd014f9a8c9ee2589e13f0cc8b6630ca6) := by decide +kernel

/-- V22: lengths next to 16. -/
theorem test_keyexp_key_length :
    resultOf (exec .keyexp (st (List.replicate 15 0) nonce0 zeroBlock zeroBlock [] [])) = failed .invalidKeyLength ∧
      resultOf (exec .keyexp (st (List.replicate 17 0) nonce0 zeroBlock zeroBlock [] [])) = failed .invalidKeyLength := by
  decide +kernel

/-- V1, the source's known-answer vector. -/
theorem test_encblk :
    resultOf (exec .encblk (st keyV1 nonce0 (blk 0x3243f6a8885a308d313198a2e0370734) zeroBlock [] [])) =
      okay (be 16 0x3925841d02dc09fbdc118597196a0b32) := by decide +kernel

/-- V3. -/
theorem test_decblk :
    resultOf (exec .decblk (st keyV1 nonce0 (blk 0x3925841d02dc09fbdc118597196a0b32) zeroBlock [] [])) =
      okay (be 16 0x3243f6a8885a308d313198a2e0370734) := by decide +kernel

/-! ### PAD, UNPAD -/

/-- V24: a partial block and a whole one. -/
theorem test_pad :
    resultOf (exec .pad (st key0 nonce0 zeroBlock zeroBlock [] [0x41])) =
        okay (be 16 0x410f0f0f0f0f0f0f0f0f0f0f0f0f0f0f) ∧
      resultOf (exec .pad (st key0 nonce0 zeroBlock zeroBlock [] (be 16 0x0102030405060708090a0b0c0d0e0f))) =
        okay (be 32 0x0102030405060708090a0b0c0d0e0f10101010101010101010101010101010) := by decide +kernel

/-- V25: a length that is no multiple of 16, and a pad of the whole length. -/
theorem test_unpad :
    resultOf (exec .unpad (st key0 nonce0 zeroBlock zeroBlock [] [0x41, 0x42, 0x02, 0x02])) = okay [0x41, 0x42] ∧
      resultOf (exec .unpad (st key0 nonce0 zeroBlock zeroBlock [] [0x01])) = okay [] := by decide +kernel

/-- R24, R61: UNPAD of 20 bytes copies two chunks, then strips the padding. -/
theorem test_unpad_loop :
    (unpadOp.states (st key0 nonce0 zeroBlock zeroBlock [] (List.replicate 17 0x07 ++ List.replicate 3 0x03))).map
        (fun u => (u.BLK, u.RBUF.map List.length)) =
      [(none, none), (none, some 0), (some 0, some 0), (some 1, some 16), (some 2, some 20), (some 2, some 20),
        (some 2, some 17), (some 2, some 17)] := by decide +kernel

/-- R249: UNPAD of 18 bytes goes through the same phases and chunks with `p` = 1 and with `p` = 2. -/
theorem test_unpad_passes :
    (unpadOp.states (st key0 nonce0 zeroBlock zeroBlock [] (List.replicate 17 0x07 ++ [0x01]))).map
        (fun u => (u.PHASE, u.BLK)) =
      (unpadOp.states (st key0 nonce0 zeroBlock zeroBlock [] (List.replicate 16 0x07 ++ [0x02, 0x02]))).map
        (fun u => (u.PHASE, u.BLK)) := by decide +kernel

/-- V25: empty data, `p` = 0, 17, longer than the data, and an inconsistent byte. -/
theorem test_unpad_rejects :
    ∀ d ∈ ([[], List.replicate 16 0x00, List.replicate 32 0x11, [0x03, 0x03], [0x41, 0x42, 0x03, 0x02]] : List Bytes),
      resultOf (exec .unpad (st key0 nonce0 zeroBlock zeroBlock [] d)) = failed .invalidPadding := by decide +kernel

/-! ### CBCENC, CBCDEC -/

/-- V28. -/
theorem test_cbcenc :
    resultOf (exec .cbcenc (st keyV5 nonce0 (blk 0x6162636465666768696a6b6c6d6e6f70) zeroBlock []
      (be 15 0x48656c6c6f2c204145532d43424321))) = okay (be 16 0x2e5449c627c4d700930b1149eb542659) := by decide +kernel

/-- V30, and P1 command 7: the last ciphertext byte changed. -/
theorem test_cbcdec :
    resultOf (exec .cbcdec (st keyV5 nonce0 (blk 0x6162636465666768696a6b6c6d6e6f70) zeroBlock []
      (be 16 0x2e5449c627c4d700930b1149eb542659))) = okay (be 15 0x48656c6c6f2c204145532d43424321) := by decide +kernel

/-- V31: the order of the length test and the key test. -/
theorem test_cbcdec_errors :
    resultOf (exec .cbcdec (st [] nonce0 zeroBlock zeroBlock [] (List.replicate 17 0))) =
        failed .invalidCiphertextLength ∧
      resultOf (exec .cbcdec (st [] nonce0 zeroBlock zeroBlock [] (List.replicate 32 0))) = failed .invalidKeyLength := by
  decide +kernel

/-! ### CTRXFRM -/

/-- V35: seventeen zero bytes, so the keystream itself over a block boundary. -/
theorem test_ctrxfrm :
    resultOf (exec .ctrxfrm (st keyV1 nonce0 (blk 0xf0f1f2f3f4f5f6f7f8f9fafbfcfdfeff) zeroBlock []
      (List.replicate 17 0))) = okay (be 17 0xec8cdf7398607cb0f2d21675ea9ea1e436) := by decide +kernel

/-- V33: under `WRAP_POLICY = refuse` 48 bytes from the field `fffffffe` have no meaning; no error is raised. -/
theorem test_ctrxfrm_refuse :
    resultOf (execCtrxfrmWith .w32 .refuse (st keyV1 nonce0 (blk 0xaabbccddeeff001122334455fffffffe) zeroBlock []
        (List.replicate 48 0))) = none ∧
      (resultOf (execCtrxfrmWith .w32 .refuse (st keyV1 nonce0 (blk 0xaabbccddeeff001122334455fffffffe) zeroBlock []
        (List.replicate 32 0)))).map (fun r => r.status) = some .ok := by decide +kernel

/-! ### GFMUL, GHASH -/

/-- V39: x^127 squared, and a product of two whole blocks. -/
theorem test_gfmul :
    resultOf (exec .gfmul (st key0 nonce0 (blk 1) (blk 1) [] [])) = okay (be 16 0xe6080000000000000000000000000003) ∧
      resultOf (exec .gfmul (st key0 nonce0 (blk 0x0388dace60b6a392f328c2b971b2fe78)
        (blk 0x66e94bd4ef8a2c3b884cfa59ca342b2e) [] [])) = okay (be 16 0x5e2ec746917062882c85b0685353deb7) := by
  decide +kernel

/-- V40: one byte of AAD, one of ciphertext, then the length block. -/
theorem test_ghash :
    resultOf (exec .ghash (st key0 nonce0 (blk 0x66e94bd4ef8a2c3b884cfa59ca342b2e) zeroBlock [0x01] [0x02])) =
      okay (be 16 0xef25d719284e7198dae76be4c5458891) := by decide +kernel

/-! ### TAGGEN, TAGCMP, GCMENC, GCMDEC -/

/-- V45: the tag of V5. -/
theorem test_taggen :
    resultOf (exec .taggen (st keyV5 nonceV5 zeroBlock zeroBlock [] (be 15 0xf91402c4b7bd7449e2a236f2157c7b))) =
      okay (be 16 0xe08019e02d0657ed28b64848b124684e) := by decide +kernel

/-- V45: equal tags; the last byte different in bit 0; the first in bit 7. -/
theorem test_tagcmp :
    resultOf (exec .tagcmp (st key0 nonce0 (blk 0xe08019e02d0657ed28b64848b124684e)
        (blk 0xe08019e02d0657ed28b64848b124684e) [] [])) = okay [] ∧
      resultOf (exec .tagcmp (st key0 nonce0 (blk 0xe08019e02d0657ed28b64848b124684f)
        (blk 0xe08019e02d0657ed28b64848b124684e) [] [])) = failed .authenticationFailed ∧
      resultOf (exec .tagcmp (st key0 nonce0 (blk 0x608019e02d0657ed28b64848b124684e)
        (blk 0xe08019e02d0657ed28b64848b124684e) [] [])) = failed .authenticationFailed := by decide +kernel

/-- V45: the values of `DIFF`. -/
theorem test_tagDiff :
    tagDiff (blk 0xe08019e02d0657ed28b64848b124684f) (blk 0xe08019e02d0657ed28b64848b124684e) = 0x01 ∧
      tagDiff (blk 0x608019e02d0657ed28b64848b124684e) (blk 0xe08019e02d0657ed28b64848b124684e) = 0x80 := by
  decide +kernel

/-- V5. -/
theorem test_gcmenc :
    resultOf (exec .gcmenc (st keyV5 nonceV5 zeroBlock zeroBlock [] (be 15 0x48656c6c6f2c204145532d47434d21))) =
      okay (be 31 0xf91402c4b7bd7449e2a236f2157c7be08019e02d0657ed28b64848b124684e) := by decide +kernel

/-- V6. -/
theorem test_gcmdec :
    resultOf (exec .gcmdec (st keyV5 nonceV5 zeroBlock zeroBlock []
      (be 31 0xf91402c4b7bd7449e2a236f2157c7be08019e02d0657ed28b64848b124684e))) =
      okay (be 15 0x48656c6c6f2c204145532d47434d21) := by decide +kernel

/-- V6 with aad = one zero byte, and V47's order of the length test and the key test. -/
theorem test_gcmdec_errors :
    resultOf (exec .gcmdec (st keyV5 nonceV5 zeroBlock zeroBlock [0x00]
        (be 31 0xf91402c4b7bd7449e2a236f2157c7be08019e02d0657ed28b64848b124684e))) = failed .authenticationFailed ∧
      resultOf (exec .gcmdec (st [] [] zeroBlock zeroBlock [] (List.replicate 15 0))) = failed .ciphertextTooShort := by
  decide +kernel

/-! ### Pseudo-operations -/

/-- 30_encoding.md R99: each is its call, so it ends with that call's error; 60_exceptions.md R236 for the causes. -/
theorem test_pseudo_operation_errors :
    gcmOpen [] key0 [] State.reset = .error .ciphertextTooShort ∧
      cbcOpen [] key0 State.reset = .error .invalidCiphertextLength ∧
      cbcSeal [] [] zeroBlock State.reset = .error .invalidKeyLength ∧
      gcmSeal [] key0 [] [] State.reset = .error .invalidNonceLength := by decide +kernel

/-- V6: the container of V5, and the same with another AAD. -/
theorem test_gcmOpen :
    gcmOpen (nonceV5 ++ be 31 0xf91402c4b7bd7449e2a236f2157c7be08019e02d0657ed28b64848b124684e) keyV5 [] State.reset =
        .ok (be 15 0x48656c6c6f2c204145532d47434d21) ∧
      gcmOpen (nonceV5 ++ be 31 0xf91402c4b7bd7449e2a236f2157c7be08019e02d0657ed28b64848b124684e) keyV5 [0x00]
        State.reset = .error .authenticationFailed := by decide +kernel

/-! ### Steps -/

/-- After reset, with the word of each operation presented, the step runs it. -/
theorem test_step_withFetchWord :
    resultOf (step (State.reset.withFetchWord 8 0x04)) = okay (List.replicate 16 0x10) ∧
      resultOf (step (State.reset.withFetchWord 8 0x09)) = okay (List.replicate 16 0x00) ∧
      resultOf (step (State.reset.withFetchWord 8 0x0E)) = failed .ciphertextTooShort ∧
      resultOf (step (State.reset.withFetchWord 8 0x0F)) = none := by decide +kernel

/-- 00_scope.md R16: reading an operand that the command does not carry is a fault of the model, not a zero. -/
theorem test_no_value : exec .gfmul State.reset = .fault (.noValue .P_A) := rfl

/-- R236, R238: an error that is tested before a missing operand is read is reported. -/
theorem test_error_before_missing_operand :
    resultOf (exec .encblk { State.reset with P_KEY := some [] }) = failed .invalidKeyLength ∧
      resultOf (exec .cbcdec State.reset) = failed .invalidCiphertextLength ∧
      resultOf (exec .gcmdec State.reset) = failed .ciphertextTooShort := by decide +kernel


/-! ### Witnesses: for each statement with hypotheses, a state and operands that meet them, clause by clause, at the
boundary values of the ranges -/

/-- The small state of the witnesses: every slot has a value of its legal length; 32 bytes of data, one of AAD. -/
def w : State := st key0 nonce0 zeroBlock zeroBlock [0] (List.replicate 32 1)

/-- A byte string of a given length. -/
theorem exists_length (n : Nat) : ∃ d : Bytes, d.length = n := ⟨List.replicate n 0, List.length_replicate⟩

/-- The transaction answers a next state. -/
def answers (x : Host.Outcome State Fault Refusal) : Bool :=
  match x with
  | .next _ => true
  | .fault _ => false
  | .refused _ => false

theorem exists_of_answers {x : Host.Outcome State Fault Refusal} (h : answers x = true) : ∃ t, x = .next t := by
  cases x with
  | next t => exact ⟨t, rfl⟩
  | fault f => cases h
  | refused r => cases h

/-- Every operation is admitted in `w`, so `exec` answers a next state there. -/
theorem test_admitted (i : Instr) : admitted i w = true := by
  cases i <;> decide

theorem test_hyps_DecodeAndEncodeAgree :
    decode [0x01, 0x02] = .ok (.keyexp, [0x02]) ∧ decode [0x0E] = .ok (.gcmdec, []) := by decide

theorem test_hyps_ReservedCodesAreRefused :
    ∀ op ∈ ([0x00, 0x0F, 0xFF] : List Byte), ({ w with OP := some op } : State).PHASE = .idle ∧
      ({ w with OP := some op } : State).OP = some op ∧ (op.toNat = 0x00 ∨ 0x0F ≤ op.toNat) := by decide

theorem test_hyps_StepRunsTheDecodedOperation :
    ({ w with OP := some 0x0E } : State).PHASE = .idle ∧ ({ w with OP := some 0x0E } : State).OP = some 0x0E ∧
      decode [0x0E] = .ok (.gcmdec, []) := by decide

theorem test_hyps_StepWaitsWithoutCommandAndRefusesWhileBusy :
    (State.reset.PHASE = .idle ∧ State.reset.OP = none) ∧ ({ w with PHASE := .keychk } : State).PHASE ≠ .idle := by decide

/-- A step that runs an operation, from a state with the invariant. -/
theorem test_hyps_StepKeepsTheInvariant :
    Inv { w with OP := some 0x04 } ∧ ∃ t, step { w with OP := some 0x04 } = .next t := by
  refine ⟨⟨by constructor <;> rfl, ⟨by decide, fun _ => rfl⟩⟩, _, rfl⟩

/-- An operation that releases, and one that fails; the buffers in their legal lengths. -/
theorem test_hyps_exec_answers_next :
    (∃ t, exec .pad w = .next t ∧ t.ERR = none) ∧ (∃ t, exec .unpad { w with mem := w.mem.freshOut } = .next t) ∧
      (∃ t, exec .keyexp { w with P_KEY := some [] } = .next t ∧ t.ERR = some .invalidKeyLength) ∧ w.mem.wf = true :=
  ⟨⟨_, rfl, rfl⟩, ⟨_, rfl⟩, ⟨_, rfl, rfl⟩, by decide⟩

/-- States inside an operation. -/
theorem test_hyps_states_inside :
    ((operationOf .keyexp).states w).map (fun u => u.PHASE) =
      [.keychk, .keychk, .keyexp, .keyexp, .commit] := by decide +kernel

/-- Each slot register, missing in a command whose operation reads it. -/
theorem test_hyps_NoWorkingRegisterIsReadUnwritten :
    exec .keyexp { w with P_KEY := none } = .fault (.noValue .P_KEY) ∧
      exec .taggen { w with P_NONCE := none } = .fault (.noValue .P_NONCE) ∧
      exec .gfmul { w with P_A := none } = .fault (.noValue .P_A) ∧
      exec .gfmul { w with P_B := none } = .fault (.noValue .P_B) := ⟨rfl, rfl, rfl, rfl⟩

/-- Not admitted: an operand missing; a buffer one byte too long. -/
theorem test_hyps_EveryAdmittedCommandEnds :
    ((slotsRead .gfmul).all (fits State.reset) = true ∧ admitted .gfmul State.reset = false) ∧
      ∃ d : Bytes, (slotsRead .pad).all (fits { w with mem := { w.mem with DATA := d } }) = false := by
  refine ⟨by decide, ?_⟩
  obtain ⟨d, hd⟩ := exists_length (2 ^ 61)
  exact ⟨d, by simp [slotsRead, fits, Config.maxLenBytes, hd]⟩

/-- Two states that differ in slots ENCBLK does not read. -/
theorem test_hyps_IgnoredSlotsHaveNoEffect :
    ∀ k ∈ slotsRead .encblk, agreeOn w { w with P_B := none, P_NONCE := some [] } k := by
  simp [slotsRead, agreeOn]

/-- The keyed meanings: a key of 16 bytes, and the lengths next to it. -/
theorem test_hyps_keys :
    (w.P_KEY = some key0 ∧ key0.length = 16 ∧ w.P_A = some zeroBlock ∧ w.P_B = some zeroBlock ∧ w.P_NONCE = some nonce0 ∧
      nonce0.length = 12) ∧
    ((List.replicate 15 (0 : Byte)).length ≠ 16 ∧ (List.replicate 17 (0 : Byte)).length ≠ 16 ∧
      (List.replicate 11 (0 : Byte)).length ≠ 12 ∧ (List.replicate 13 (0 : Byte)).length ≠ 12) ∧
    w.mem.AAD.length ≤ 2 ^ 61 - 1 ∧ w.mem.DATA.length ≤ 2 ^ 61 - 1 := by decide

/-- The longest legal buffer. -/
theorem test_hyps_longest_buffer :
    ∃ d : Bytes, ({ w with mem := { AAD := d, DATA := d, OUT := [] } } : State).mem.DATA.length = 2 ^ 61 - 1 :=
  exists_length (2 ^ 61 - 1)

/-- Padding accepted with `p` = 1 and 16; empty data; `p` = 0, 17, longer than the data, and an inconsistent byte. -/
theorem test_hyps_UnpadStripsConsistentPaddingOnly :
    (([0x07, 0x01] : Bytes).getLast? = some 0x01 ∧ ∀ j, 1 ≤ j → j ≤ 1 → ([0x07, 0x01] : Bytes)[2 - j]? = some 0x01) ∧
    ((List.replicate 16 (0x10 : Byte)).getLast? = some 0x10 ∧
      ∀ j, 1 ≤ j → j ≤ 16 → (List.replicate 16 (0x10 : Byte))[16 - j]? = some 0x10) ∧
    (([0x00] : Bytes).getLast? = some 0x00 ∧ (0x00 : Byte).toNat = 0) ∧
    ((List.replicate 32 (0x11 : Byte)).getLast? = some 0x11 ∧ (0x11 : Byte).toNat > 16) ∧
    (([0x03, 0x03] : Bytes).getLast? = some 0x03 ∧ (0x03 : Byte).toNat > 2) ∧
    (([0x41, 0x42, 0x03, 0x02] : Bytes).getLast? = some 0x02 ∧ ([0x41, 0x42, 0x03, 0x02] : Bytes)[4 - 2]? ≠ some 0x02) := by
  refine ⟨⟨by decide, fun j h1 h2 => ?_⟩, ⟨by decide, fun j h1 h2 => ?_⟩, by decide, by decide, by decide, by decide⟩
  · obtain rfl : j = 1 := by omega
    rfl
  · interval_cases j <;> rfl

/-- An IV that makes one ciphertext block decrypt to a given block. -/
theorem test_hyps_CbcdecUnchainsAndUnpads (rk : Schedule) :
    (∃ iv : Block, unpadBytes 16 (cbcDecFrom rk iv [List.replicate 16 0]) = some []) ∧
      ∃ iv : Block, unpadBytes 16 (cbcDecFrom rk iv [List.replicate 16 0]) = none := by
  have key : ∀ b : Block,
      cbcDecFrom rk (xorVec b (invCipher rk (blockOf (List.replicate 16 0)))) [List.replicate 16 0] = b.toList := by
    intro b
    simp only [cbcDecFrom, List.append_nil]
    rw [xorVec_comm, xorVec_cancel]
  exact ⟨⟨_, by rw [key (blk 0x10101010101010101010101010101010)]; decide +kernel⟩,
    ⟨_, by rw [key zeroBlock]; decide +kernel⟩⟩

/-- CBCDEC: empty data, 15 and 17 bytes, and the legal 16. -/
theorem test_hyps_ciphertext_lengths :
    ([] : Bytes).length = 0 ∧ (List.replicate 15 (0 : Byte)).length % 16 ≠ 0 ∧
      (List.replicate 17 (0 : Byte)).length % 16 ≠ 0 ∧
      ((List.replicate 16 (0 : Byte)).length ≠ 0 ∧ (List.replicate 16 (0 : Byte)).length % 16 = 0) := by decide

/-- Counter mode at its bound: 2^36 bytes are accepted, one more is an overflow; 2^32 and 2^32 + 1 chunks. -/
theorem test_hyps_counter_bound :
    (∃ d : Bytes, d.length ≤ 2 ^ 36 ∧ d.length ≤ 2 ^ 61 - 1 ∧ nchunks d.length ≤ 2 ^ 32) ∧
      ∃ d : Bytes, d.length > 2 ^ 36 ∧ d.length ≤ 2 ^ 61 - 1 ∧ nchunks d.length > 2 ^ 32 := by
  obtain ⟨d, hd⟩ := exists_length (2 ^ 36)
  obtain ⟨d', hd'⟩ := exists_length (2 ^ 36 + 1)
  exact ⟨⟨d, by simp [hd, nchunks]⟩, ⟨d', by simp [hd', nchunks]⟩⟩

/-- Both sides of the wrap, for both widths: the field all ones, and one or two chunks. -/
theorem test_hyps_CtrxfrmForEveryWidthAndWrapPolicy :
    ∀ W : CtrFieldBits, counterField W (blk (2 ^ 128 - 1)) + nchunks 1 ≤ 2 ^ W.bits ∧
      counterField W (blk (2 ^ 128 - 1)) + nchunks 17 > 2 ^ W.bits := by
  intro W
  cases W <;> decide +kernel

/-- A tag that is wrong, beside the right one, for any ciphertext. -/
theorem test_hyps_GcmdecVerifiesThenDecrypts (right : Block) :
    (∃ t : Block, t ≠ right) ∧ (∃ c : Bytes, c.length ≤ 2 ^ 36) ∧ ∃ c : Bytes, c.length > 2 ^ 36 := by
  refine ⟨⟨xorVec right (blk 1), fun h => ?_⟩, ⟨[], by decide⟩, ?_⟩
  · have := congrArg (fun b => (xorVec b right)[15]) h
    simp only [xorVec_comm right (blk 1), xorVec_cancel] at this
    simp [blk, be] at this
  · obtain ⟨d, hd⟩ := exists_length (2 ^ 36 + 1)
    exact ⟨d, by omega⟩

/-- GCMDEC: 15 bytes are too short, 16 are not. -/
theorem test_hyps_GcmdecTooShort :
    (List.replicate 15 (0 : Byte)).length < 16 ∧ 16 ≤ (List.replicate 16 (0 : Byte)).length := by decide

/-- The operations that undo each other answer a next state where their laws need one. -/
theorem test_hyps_round_trips :
    (∃ t, exec .encblk w = .next t) ∧ (∃ t, exec .decblk w = .next t) ∧ (∃ t, exec .cbcenc w = .next t) ∧
      (∃ t, exec .ctrxfrm w = .next t) ∧ (∃ t, exec .gcmenc w = .next t) ∧
      w.mem.DATA.length + 16 ≤ 2 ^ 61 - 1 ∧ w.mem.DATA.length ≤ 2 ^ 36 ∧ nchunks w.mem.DATA.length ≤ 2 ^ 32 - 2 :=
  ⟨exists_of_answers (by decide +kernel), exists_of_answers (by decide +kernel), exists_of_answers (by decide +kernel),
    exists_of_answers (by decide +kernel), exists_of_answers (by decide +kernel), by decide, by decide, by decide⟩

/-- What GCMENC releases is a ciphertext and a tag, and there is another tag. -/
theorem test_hyps_AnyChangedTagIsRejected :
    ∃ (t : State) (c : Bytes) (tag tag' : Block), exec .gcmenc w = .next t ∧ t.mem.OUT = c ++ tag.toList ∧ tag' ≠ tag := by
  have hlen : (match exec .gcmenc w with
      | .next t => decide (t.mem.OUT.length = 48)
      | .fault _ => false
      | .refused _ => false) = true := by decide +kernel
  obtain ⟨t, ht⟩ : ∃ t, exec .gcmenc w = .next t := exists_of_answers (by decide +kernel)
  rw [ht] at hlen
  have hout : t.mem.OUT.length = 48 := by simpa using hlen
  obtain ⟨⟨tag', htag⟩, -⟩ := test_hyps_GcmdecVerifiesThenDecrypts (blockOf (t.mem.OUT.drop 32))
  refine ⟨t, t.mem.OUT.take 32, blockOf (t.mem.OUT.drop 32), tag', ht, ?_, htag⟩
  rw [toList_blockOf (by simp [hout]), List.take_append_drop]

theorem test_hyps_KeyScheduleFollowsItsRecurrence :
    (3 : Fin 44).val < 4 ∧ 4 ≤ (4 : Fin 44).val ∧ (43 : Fin 44).val % 4 ≠ 0 := by decide

/-- Block sizes 1 and 255, and padded data of a whole block. -/
theorem test_hyps_PadAndUnpadLaws :
    unpadBytes 1 (padBytes 1 [0x05]) = some [0x05] ∧ unpadBytes 255 (padBytes 255 [0x05]) = some [0x05] ∧
      (List.replicate 16 (0x10 : Byte)).length % 16 = 0 ∧ unpadBytes 16 (List.replicate 16 0x10) = some [] := by
  decide +kernel

theorem test_hyps_CounterBlockOfChunkInClosedForm :
    (11 : Fin 16).val < 16 - CtrFieldBits.w32.bytes ∧ ¬ (12 : Fin 16).val < 16 - CtrFieldBits.w32.bytes ∧
      ∀ m : Fin 16, ¬ m.val < 16 - CtrFieldBits.w128.bytes := by decide

theorem test_hyps_CounterModeSplitsAtBlockBoundaries :
    ([] : Bytes).length = 16 * 0 ∧ (List.replicate 32 (0 : Byte)).length = 16 * 2 := by decide

/-- The chunks of 17 bytes: chunk 0 is not the last, chunk 1 is. -/
theorem test_hyps_ChunksCoverTheBuffer :
    0 + 1 < nchunks (List.replicate 17 (0 : Byte)).length ∧ 1 < nchunks (List.replicate 17 (0 : Byte)).length ∧
      (chunk (List.replicate 17 0) 1).length = 1 := by decide

theorem test_hyps_GhashIsLinearAtFixedLengths : ([0x01] : Bytes).length = ([0x02] : Bytes).length := rfl

/-- The two ends of the data counters; then, for GCMENC and for GCMDEC with its tag, the two chunk counts that only wrap
and the count above them. -/
theorem test_hyps_DataCountersNeverMeetJ0 :
    (0 < 2 ^ 32 - 2 ∧ 2 ^ 32 - 3 < 2 ^ 32 - 2) ∧
    ∀ m ∈ [2 ^ 32 - 1, 2 ^ 32, 2 ^ 32 + 1],
      (m > 2 ^ 32 - 2 ∧ (m ≤ 2 ^ 32 ∨ m > 2 ^ 32)) ∧
      ∃ c : Bytes, nchunks c.length = m ∧ ∀ tag : Block, c.length ≤ 2 ^ 61 - 1 ∧ (c ++ tag.toList).length ≤ 2 ^ 61 - 1 := by
  refine ⟨by decide, fun m hm => ⟨by simp at hm; omega, ?_⟩⟩
  obtain ⟨c, hc⟩ := exists_length (16 * m)
  refine ⟨c, by simp only [hc, nchunks]; omega, fun tag => ?_⟩
  simp only [List.length_append, Vector.length_toList, hc]
  simp at hm
  omega

/-- V8: a message that verifies passes through both sides of the comparison. -/
theorem test_hyps_GcmdecVerifiesBeforeAnyPlaintext :
    let us := (gcmdecOp .wrap).states (st keyV5 nonceV5 zeroBlock zeroBlock [] (be 16 0x0adb70aa823354fd215dad08296adefc))
    (us.any fun u => u.PHASE == .compare) = true ∧ (us.any fun u => u.PHASE == .ctr) = true ∧
      (us.any fun u => u.PHASE == .commit) = true := by decide +kernel

/-- The same command with a tag of zeros: the comparison finds a difference. -/
theorem test_hyps_GcmdecVerifiesBeforeAnyPlaintext_difference :
    (((gcmdecOp .wrap).states (st keyV5 nonceV5 zeroBlock zeroBlock [] (List.replicate 16 0))).any fun u =>
        u.DIFF.any (· != 0)) = true ∧
      ([] : Bytes).length ≤ 2 ^ 61 - 1 ∧ (List.replicate 16 (0 : Byte)).length ≤ 2 ^ 61 - 1 := by decide +kernel

theorem test_hyps_NonceReuseRevealsTheXorOfPlaintexts : ([0x01] : Bytes).length = ([0x02] : Bytes).length := rfl

/-- The shortest and the longest strings of the calls, and the shortest and the longest message of each container. -/
theorem test_hyps_SealedContainersOpen :
    (key0.length = 16 ∧ nonce0.length = 12 ∧ State.reset.PHASE = .idle ∧ ([] : Bytes).length + 16 ≤ 2 ^ 61 - 1 ∧
      nchunks ([] : Bytes).length ≤ 2 ^ 32 - 2) ∧
    (∃ x : Bytes, 16 ≤ x.length ∧ x.length = 16) ∧ (∃ x : Bytes, x.length ≤ 2 ^ 61 - 1 ∧ x.length = 2 ^ 61 - 1) ∧
    (∃ p : Bytes, p.length + 16 ≤ 2 ^ 61 - 1 ∧ p.length + 16 = 2 ^ 61 - 1) ∧
    ∃ p : Bytes, nchunks p.length ≤ 2 ^ 32 - 2 ∧ nchunks p.length = 2 ^ 32 - 2 := by
  obtain ⟨p, hp⟩ := exists_length (2 ^ 61 - 17)
  obtain ⟨p', hp'⟩ := exists_length (16 * (2 ^ 32 - 2))
  obtain ⟨x, hx⟩ := exists_length (2 ^ 61 - 1)
  exact ⟨by decide, ⟨key0, by decide⟩, ⟨x, by omega, hx⟩, ⟨p, by simp [hp]⟩, ⟨p', by simp [hp', nchunks]⟩⟩

/-- The longest buffers whose lengths a length block holds. -/
theorem test_hyps_CounterAndLengthFormats : nonce0.length = 12 ∧ 2 ^ 61 - 1 ≤ 2 ^ 61 - 1 ∧ 0 ≤ 2 ^ 61 - 1 := by decide

end Sys2Proof.Tests
end

section
/-! SUPPORT. Reset (10_state.md R33, 70_reset_and_hazards.md R270, R271): what it leaves in each register and buffer, and
the obligation about it. -/

namespace Sys2Proof.Machine

/-! ### No working register holds a value -/

theorem quiescent_reset : Quiescent State.reset := by constructor <;> rfl

/-- Whether a phase is in progress or a working register holds a value does not depend on the buffers. -/
theorem Quiescent.withMem {s : State} (h : Quiescent s) (m : Memory) : Quiescent { s with mem := m } := { h with }

theorem quiescent_applyReset (s : State) : Quiescent (applyReset s) := quiescent_reset.withMem _

/-! ### What a reset leaves at the interface -/

section
variable (s : State)

@[simp] theorem applyReset_OP : (applyReset s).OP = none := rfl
@[simp] theorem applyReset_P_KEY : (applyReset s).P_KEY = none := rfl
@[simp] theorem applyReset_P_NONCE : (applyReset s).P_NONCE = none := rfl
@[simp] theorem applyReset_P_A : (applyReset s).P_A = none := rfl
@[simp] theorem applyReset_P_B : (applyReset s).P_B = none := rfl
@[simp] theorem applyReset_STATUS : (applyReset s).STATUS = .idle := rfl
@[simp] theorem applyReset_ERR : (applyReset s).ERR = none := rfl
@[simp] theorem applyReset_OUT : (applyReset s).mem.OUT = [] := rfl
@[simp] theorem applyReset_AAD : (applyReset s).mem.AAD = s.mem.AAD := rfl
@[simp] theorem applyReset_DATA : (applyReset s).mem.DATA = s.mem.DATA := rfl

end

@[simp] theorem errCode_none : errCode none = 0x00 := rfl

/-- The state after reset is what a reset leaves of itself: its buffers `AAD` and `DATA`, which stay, are its own. -/
@[simp] theorem applyReset_reset : applyReset State.reset = State.reset := rfl

/-- Settles O6: the interface registers and the buffers read as the equations of `applyReset` say, whatever the state
was, and the working registers and `PHASE` are those of the state after reset. -/
theorem resetLeavesNoValueAndTouchesNoHostBuffer : Obligations.ResetLeavesNoValueAndTouchesNoHostBuffer := by
  refine ⟨fun s => ⟨?slots, ?result, quiescent_applyReset s, ?buffers⟩, applyReset_reset⟩
  case slots => simp
  case result => simp
  case buffers => simp

end Sys2Proof.Machine
end

section
/-! SUPPORT. Memory (20_memory.md R59, R67, R72): the frame of the fourteen operations, the chunks of a buffer, counter
mode over them, and the obligations about them. -/

namespace Sys2Proof.Machine

/-! ### What a transaction leaves -/

theorem quiescent_release (out : Bytes) (s : State) : Quiescent (release out s) := by constructor <;> rfl

theorem quiescent_enterError (e : Err) (s : State) : Quiescent (enterError e s) := by constructor <;> rfl

theorem resultConsistent_release (out : Bytes) (s : State) : ResultConsistent (release out s) where
  err := by simp
  out := by simp

theorem resultConsistent_enterError (e : Err) (s : State) : ResultConsistent (enterError e s) where
  err := by simp
  out := by simp

theorem inv_settle (r : ApiResult) (s : State) : Inv (settle r s) :=
  match r with
  | .ok out => ⟨quiescent_release out s, resultConsistent_release out s⟩
  | .error e => ⟨quiescent_enterError e s, resultConsistent_enterError e s⟩

theorem sameHostPart_settle (r : ApiResult) (s : State) : SameHostPart s (settle r s) := by
  cases r with
  | ok out => exact ⟨rfl, rfl, rfl, rfl, rfl, fun _ => rfl, fun _ => rfl⟩
  | error e => exact ⟨rfl, rfl, rfl, rfl, rfl, fun _ => rfl, fun _ => rfl⟩

@[simp] theorem settle_mem_wf (r : ApiResult) (s : State) : (settle r s).mem.wf = s.mem.wf := by
  cases r with
  | ok out => exact writeOut_wf s.mem out
  | error e => exact freshOut_wf s.mem

/-! ### What an operation can answer -/

/-- Wherever the stages of an operation end, the interface part is the one they began with. -/
theorem runStages_ends_with_interfacePart (i : Instr) (s : State) :
    (runStages (operationOf i).stages (begin s)).Ends fun u => interfacePart u = interfacePart (begin s) :=
  runStages_keeps (interfacePart_phaseFree (begin s)) _
    (operationWith_config i ▸ stages_keep_interfacePart _ _ i (begin s)) (begin s) rfl

/-- A next state that an operation answers is a release or an error entry of the state at issue: nothing else of what
the stages did is left in it. -/
theorem exec_next {i : Instr} {s t : State} (h : exec i s = .next t) : ∃ r : ApiResult, t = settle r s := by
  have hends := runStages_ends_with_interfacePart i s
  rw [exec_eq_runOperation] at h
  obtain ⟨-, ⟨u, out, hrun, -, rfl⟩ | ⟨u, e, hrun, -, rfl⟩ | ⟨u, e, hrun, rfl⟩⟩ := runOperation_next h
  all_goals rw [hrun] at hends
  · exact ⟨.ok out, settle_of_interfacePart hends (.ok out)⟩
  · exact ⟨.error e, settle_of_interfacePart hends (.error e)⟩
  · exact ⟨.error e, settle_of_interfacePart hends (.error e)⟩

/-- Settles O9: each next state is a release or an error entry of the state at issue, and both write `STATUS`, `ERR` and
`OUT` only, consistently, and leave no working register. -/
theorem operationsLeaveTheHostPartUnchanged : Obligations.OperationsLeaveTheHostPartUnchanged := by
  intro i s t h
  obtain ⟨r, rfl⟩ := exec_next h
  exact ⟨sameHostPart_settle r s, inv_settle r s, fun hwf => (settle_mem_wf r s).trans hwf⟩

/-! ### The chunks of a buffer -/

@[simp] theorem length_chunks (buf : Bytes) : (chunks buf).length = nchunks buf.length := by
  simp [chunks]

@[simp] theorem length_chunk (buf : Bytes) (j : Nat) : (chunk buf j).length = min 16 (buf.length - 16 * j) := by
  simp [chunk]

theorem lt_nchunks_iff {len j : Nat} : j < nchunks len ↔ 16 * j < len := by
  unfold nchunks
  omega

@[simp] theorem nchunks_mul (n : Nat) : nchunks (16 * n) = n := by
  unfold nchunks
  omega

@[simp] theorem flatten_chunks (buf : Bytes) : (chunks buf).flatten = buf := by
  by_cases h : buf = []
  · simp [h]
  · have hpos : 0 < buf.length := List.length_pos_iff.2 h
    rw [chunks_cons h, List.flatten_cons, flatten_chunks (buf.drop 16), List.take_append_drop]
termination_by buf.length
decreasing_by
  rw [List.length_drop]
  omega

/-- A buffer cut at a multiple of 16 bytes: no chunk lies across the cut. -/
theorem chunks_append {d₁ : Bytes} {n : Nat} (h : d₁.length = 16 * n) (d₂ : Bytes) :
    chunks (d₁ ++ d₂) = chunks d₁ ++ chunks d₂ := by
  induction n generalizing d₁ with
  | zero =>
    obtain rfl : d₁ = [] := List.length_eq_zero_iff.1 h
    rfl
  | succ n ih =>
    have hle : 16 ≤ d₁.length := by omega
    have hne : d₁ ≠ [] := List.length_pos_iff.1 (by omega)
    have hrest : (d₁.drop 16).length = 16 * n := by
      rw [List.length_drop]
      omega
    rw [chunks_cons hne, chunks_cons (List.append_ne_nil_of_left_ne_nil hne d₂), List.take_append_of_le_length hle,
      List.drop_append_of_le_length hle, ih hrest, List.cons_append]

/-- Settles O49: the joined chunks by recursion on the buffer 16 bytes at a time, the lengths from where each chunk
begins, since chunk `j` exists exactly when offset `16 j` lies inside the buffer. -/
theorem chunksCoverTheBuffer : Obligations.ChunksCoverTheBuffer := by
  intro buf
  refine ⟨flatten_chunks buf, length_chunks buf, fun j hj => ?full, fun j hj => ?inside, chunks_nil⟩
  case full =>
    rw [lt_nchunks_iff] at hj
    rw [length_chunk]
    omega
  case inside =>
    rw [lt_nchunks_iff] at hj
    rw [length_chunk]
    omega

/-! ### Counter mode over a list of chunks -/

/-- The counter block of the first chunk of `ds` is the start block incremented once for each chunk before it. -/
theorem ctrFrom_append (W : CtrFieldBits) (rk : Schedule) (cb : Block) (cs ds : List Bytes) :
    ctrFrom W rk cb (cs ++ ds) = ctrFrom W rk cb cs ++ ctrFrom W rk (incN W cs.length cb) ds := by
  induction cs generalizing cb with
  | nil => rfl
  | cons c cs ih => simp only [List.cons_append, ctrFrom, List.length_cons, incN, ih, List.append_assoc]

/-- Settles O47: a cut at a multiple of 16 bytes cuts the list of chunks after chunk `n - 1`. -/
theorem counterModeSplitsAtBlockBoundaries : Obligations.CounterModeSplitsAtBlockBoundaries := by
  intro W rk cb d₁ d₂ n h
  have hcount : (chunks d₁).length = n := by rw [length_chunks, h, nchunks_mul]
  rw [chunks_append h, ctrFrom_append, hcount]

end Sys2Proof.Machine
end

section
/-! SUPPORT. Encoding (30_encoding.md R83, R86, R87, R90, R96): the codes that select no operation, the formats that
hold big-endian integers, what an operation can see of the state, and the obligations about them. -/

namespace Sys2Proof.Machine

/-! ### The reserved codes -/

theorem decodeOp_eq_none_iff {op : Byte} : decodeOp op = none ↔ op.toNat = 0x00 ∨ 0x0F ≤ op.toNat := by
  unfold decodeOp
  split
  case h_15 => simp only [imp_false, true_iff] at *; omega
  all_goals simp only [reduceCtorEq, false_iff]; omega

/-- A code that selects no operation is rejected by name where it is taken at issue. -/
theorem fetch_of_decodeOp_none {op : Byte} (h : decodeOp op = none) : fetch op = .error (.reservedCode op) := by
  simp only [fetch, decode, h]

/-- With a command at issue and no operation in progress, a rejected code ends the step. -/
theorem step_of_fetch_error {s : State} {op : Byte} {r : Refusal} (hphase : s.PHASE = .idle) (hop : s.OP = some op)
    (h : fetch op = .error r) : step s = .refused r := by
  simp only [step, hphase, hop, h]

/-- Settles O3: the default arm of the operation map is reached by the reserved codes alone, and a code it answers is
refused at issue. -/
theorem reservedCodesAreRefused : Obligations.ReservedCodesAreRefused := by
  refine ⟨fun op => ?selectNone, fun s op hphase hop hres => ?refused⟩
  case selectNone =>
    have hmax : op.toNat ≤ 0xFF := Nat.le_of_lt_succ op.isLt
    rw [decodeOp_eq_none_iff, and_iff_left hmax]
  case refused => exact step_of_fetch_error hphase hop (fetch_of_decodeOp_none (decodeOp_eq_none_iff.2 hres))

/-! ### Counter blocks and the length block -/

theorem toList_j0Of {n : Bytes} (h : n.length = 12) : (j0Of n).toList = n ++ [0, 0, 0, 1] :=
  toList_blockOf (by simp [h])

theorem toList_firstCounterOf {n : Bytes} (h : n.length = 12) : (firstCounterOf n).toList = n ++ [0, 0, 0, 2] :=
  toList_blockOf (by simp [h])

theorem toList_lengthBlock (la lc : Nat) : (lengthBlock la lc).toList = be 8 (8 * la) ++ be 8 (8 * lc) :=
  toList_blockOf (by simp)

/-- The bit length of a buffer of legal length fits the eight bytes of its field. -/
theorem intBe_be_bitLength {len : Nat} (h : len ≤ 2 ^ 61 - 1) : intBe (be 8 (8 * len)) = 8 * len := by
  rw [intBe_be]
  exact Nat.mod_eq_of_lt (by omega)

/-- Settles O53: each block is the 16 bytes its format lists, and eight bytes hold eight times a legal length. -/
theorem counterAndLengthFormats : Obligations.CounterAndLengthFormats := by
  refine ⟨fun n hn => ⟨toList_j0Of hn, toList_firstCounterOf hn⟩, fun la lc hla hlc => ?_⟩
  rw [toList_lengthBlock, List.take_left' (length_be 8 _), List.drop_left' (length_be 8 _)]
  exact ⟨intBe_be_bitLength hla, intBe_be_bitLength hlc⟩

/-! ### What an operation can see of the state -/

/-- The state with everything hidden that an operation reading the slots `l` has no use for: the other slots, `OP` and
the result registers. The sequencing and the working registers stay. -/
def visible (l : List Slot) (s : State) : State :=
  { s with
    OP := none
    P_KEY := if .pKey ∈ l then s.P_KEY else none
    P_NONCE := if .pNonce ∈ l then s.P_NONCE else none
    P_A := if .pA ∈ l then s.P_A else none
    P_B := if .pB ∈ l then s.P_B else none
    STATUS := .idle
    ERR := none
    mem := { AAD := if .aad ∈ l then s.mem.AAD else [], DATA := if .data ∈ l then s.mem.DATA else [], OUT := [] } }

section
variable {l : List Slot} (s : State)

theorem visible_P_KEY (h : .pKey ∈ l) : (visible l s).P_KEY = s.P_KEY := if_pos h
theorem visible_P_NONCE (h : .pNonce ∈ l) : (visible l s).P_NONCE = s.P_NONCE := if_pos h
theorem visible_P_A (h : .pA ∈ l) : (visible l s).P_A = s.P_A := if_pos h
theorem visible_P_B (h : .pB ∈ l) : (visible l s).P_B = s.P_B := if_pos h
theorem visible_AAD (h : .aad ∈ l) : (visible l s).mem.AAD = s.mem.AAD := if_pos h
theorem visible_DATA (h : .data ∈ l) : (visible l s).mem.DATA = s.mem.DATA := if_pos h

end

/-- States that agree on the slots an operation reads look the same to it once it has begun. -/
theorem visible_begin_eq {l : List Slot} {s t : State} (h : ∀ k ∈ l, agreeOn s t k) :
    visible l (begin s) = visible l (begin t) := by
  have key : (visible l s).P_KEY = (visible l t).P_KEY := if_ctx_congr .rfl (h .pKey) fun _ => rfl
  have nonce : (visible l s).P_NONCE = (visible l t).P_NONCE := if_ctx_congr .rfl (h .pNonce) fun _ => rfl
  have a : (visible l s).P_A = (visible l t).P_A := if_ctx_congr .rfl (h .pA) fun _ => rfl
  have b : (visible l s).P_B = (visible l t).P_B := if_ctx_congr .rfl (h .pB) fun _ => rfl
  have aad : (visible l s).mem.AAD = (visible l t).mem.AAD := if_ctx_congr .rfl (h .aad) fun _ => rfl
  have data : (visible l s).mem.DATA = (visible l t).mem.DATA := if_ctx_congr .rfl (h .data) fun _ => rfl
  simp only [visible] at key nonce a b aad data
  simp only [visible, begin, State.clearWorking, Memory.freshOut, key, nonce, a, b, aad, data]

/-! ### Values and steps that depend on the visible part only -/

/-- The value of `x` is the same in the visible part of a state as in the state. -/
def DependsOn {α : Type} (l : List Slot) (x : State → α) : Prop := ∀ s, x (visible l s) = x s

/-- The result with its value mapped; a stop stays as it is. -/
def Res.map {α β : Type} (v : α → β) (x : Res α) : Res β := x.bind fun a => .val (v a)

/-- The step does in the visible part of a state what it does in the state. -/
def Respects (l : List Slot) (f : State → Res State) : Prop := ∀ s, f (visible l s) = (f s).map (visible l)

section
variable {l : List Slot}

theorem DependsOn.bind {α β : Type} {x : State → Res α} {g : α → State → Res β} (hx : DependsOn l x)
    (hg : ∀ a, DependsOn l (g a)) : DependsOn l fun s => (x s).bind fun a => g a s := by
  intro s
  simp only [hx s, hg _ s]

theorem Respects.val : Respects l .val := fun _ => rfl

theorem Respects.raise (e : Err) : Respects l fun _ => .raise e := fun _ => rfl

theorem Respects.refused (r : Refusal) : Respects l fun _ => .refused r := fun _ => rfl

theorem Respects.ite {p : Prop} [Decidable p] {f g : State → Res State} (hf : Respects l f) (hg : Respects l g) :
    Respects l fun s => if p then f s else g s := by
  split
  · exact hf
  · exact hg

/-- A step that works on a value it takes from the visible part. -/
theorem Respects.reading {α : Type} {x : State → α} {g : α → State → Res State} (hx : DependsOn l x)
    (hg : ∀ a, Respects l (g a)) : Respects l fun s => g (x s) s := by
  intro s
  simp only [hx s, hg _ s]

theorem Respects.bind {α : Type} {x : State → Res α} {g : α → State → Res State} (hx : DependsOn l x)
    (hg : ∀ a, Respects l (g a)) : Respects l fun s => (x s).bind fun a => g a s := by
  intro s
  simp only [hx s]
  cases x s with
  | val a => exact hg a s
  | raise e => rfl
  | fault f => rfl
  | refused r => rfl

/-- One step after another. -/
theorem Respects.seq {f g : State → Res State} (hf : Respects l f) (hg : Respects l g) :
    Respects l fun s => (f s).bind g := by
  intro s
  simp only [hf s]
  cases f s with
  | val t => exact hg t
  | raise e => rfl
  | fault f => rfl
  | refused r => rfl

end

/-! ### Reading a slot or a buffer -/

section
variable {l : List Slot}

theorem dependsOn_need_P_KEY (h : .pKey ∈ l) : DependsOn l fun s => need .P_KEY s.P_KEY :=
  fun s => congrArg (need .P_KEY) (visible_P_KEY s h)

theorem dependsOn_need_P_NONCE (h : .pNonce ∈ l) : DependsOn l fun s => need .P_NONCE s.P_NONCE :=
  fun s => congrArg (need .P_NONCE) (visible_P_NONCE s h)

theorem dependsOn_need_P_A (h : .pA ∈ l) : DependsOn l fun s => need .P_A s.P_A :=
  fun s => congrArg (need .P_A) (visible_P_A s h)

theorem dependsOn_need_P_B (h : .pB ∈ l) : DependsOn l fun s => need .P_B s.P_B :=
  fun s => congrArg (need .P_B) (visible_P_B s h)

theorem dependsOn_aadChunks (h : .aad ∈ l) : DependsOn l fun s => Res.val (chunks s.mem.AAD) :=
  fun s => congrArg (Res.val <| chunks ·) (visible_AAD s h)

theorem dependsOn_dataBuffer (h : .data ∈ l) : DependsOn l dataBuffer :=
  fun s => congrArg Res.val (visible_DATA s h)

theorem dependsOn_dataChunks (h : .data ∈ l) : DependsOn l dataChunks :=
  fun s => congrArg (Res.val <| chunks ·) (visible_DATA s h)

theorem dependsOn_startField (W : CtrFieldBits) (h : .pA ∈ l) : DependsOn l (startField W) :=
  .bind (dependsOn_need_P_A h) fun _ _ => rfl

theorem dependsOn_pbufChunks : DependsOn l pbufChunks := fun _ => rfl

theorem dependsOn_resultPbuf : DependsOn l resultPbuf := fun _ => rfl

theorem dependsOn_resultRbuf : DependsOn l resultRbuf := fun _ => rfl

end

/-! ### Running stages that respect the visible part -/

/-- The stage does in the visible part of a state what it does in the state. -/
def Stage.Respects (l : List Slot) : Stage → Prop
  | .act _ f => Machine.Respects l f
  | .each _ items f => DependsOn l items ∧ ∀ c, Machine.Respects l (f c)

@[simp] theorem Stage.respects_act {l : List Slot} {p : Phase} {f : State → Res State} :
    (Stage.act p f).Respects l ↔ Machine.Respects l f := Iff.rfl

@[simp] theorem Stage.respects_each {l : List Slot} {p : Phase} {items : State → Res (List Bytes)}
    {f : Bytes → State → Res State} :
    (Stage.each p items f).Respects l ↔ DependsOn l items ∧ ∀ c, Machine.Respects l (f c) := Iff.rfl

/-- The run, seen in the visible part of the state it ends in. -/
def Run.map (v : State → State) : Run → Run
  | .done t => .done (v t)
  | .raised e t => .raised e (v t)
  | .fault f => .fault f
  | .refused r => .refused r

section
variable {l : List Slot}

theorem runEach_visible {f : Bytes → State → Res State} (hf : ∀ c, Respects l (f c)) (cs : List Bytes) (s : State) :
    runEach f cs (visible l s) = (runEach f cs s).map (visible l) := by
  induction cs generalizing s with
  | nil => rfl
  | cons c cs ih =>
    simp only [runEach, hf c s]
    cases f c s with
    | val t => exact ih (advanceBlk t)
    | raise e => rfl
    | fault r => rfl
    | refused r => rfl

theorem Stage.run_visible {g : Stage} (hg : g.Respects l) (s : State) :
    g.run (visible l s) = (g.run s).map (visible l) := by
  cases g with
  | act p f =>
    have hf : f (enterPhase p (visible l s)) = (f (enterPhase p s)).map (visible l) := hg (enterPhase p s)
    simp only [Stage.run, hf]
    cases f (enterPhase p s) <;> rfl
  | each p items f =>
    obtain ⟨hi, hf⟩ := hg
    have hitems : items (enterLoop p (visible l s)) = items (enterLoop p s) := hi (enterLoop p s)
    simp only [Stage.run, hitems]
    cases items (enterLoop p s) with
    | val cs => exact runEach_visible hf cs (enterLoop p s)
    | raise e => rfl
    | fault r => rfl
    | refused r => rfl

theorem runStages_visible {gs : List Stage} (hgs : ∀ g ∈ gs, g.Respects l) (s : State) :
    runStages gs (visible l s) = (runStages gs s).map (visible l) := by
  induction gs generalizing s with
  | nil => rfl
  | cons g gs ih =>
    obtain ⟨hg, hgs⟩ := List.forall_mem_cons.1 hgs
    simp only [runStages, Stage.run_visible hg s]
    cases g.run s with
    | done t => exact ih hgs t
    | raised e t => rfl
    | fault r => rfl
    | refused r => rfl

end

/-! ### The shared steps

A working register is in the visible part as it is, so a step that reads one depends on the visible part by `rfl`, and a
step that writes one respects it by `rfl`; membership of `l` is asked for where a slot is read. -/

section
variable {l : List Slot}

theorem respects_checkKey (h : .pKey ∈ l) : Respects l checkKey :=
  .bind (dependsOn_need_P_KEY h) fun _ => .ite .val (.raise _)

theorem respects_checkNonce (h : .pNonce ∈ l) : Respects l checkNonce :=
  .bind (dependsOn_need_P_NONCE h) fun _ => .ite .val (.raise _)

theorem respects_expandKey (h : .pKey ∈ l) : Respects l expandKey :=
  .bind (dependsOn_need_P_KEY h) fun _ => .ite (fun _ => rfl) (.raise _)

theorem respects_encryptInto (b : Block) : Respects l (encryptInto b) :=
  .bind (fun _ => rfl) fun _ _ => rfl

theorem respects_decryptInto (b : Block) : Respects l (decryptInto b) :=
  .bind (fun _ => rfl) fun _ _ => rfl

theorem respects_copyDataStages (p : Phase) (h : .data ∈ l) : ∀ g ∈ copyDataStages p, g.Respects l := by
  simp only [copyDataStages, List.forall_mem_cons, Stage.respects_act, Stage.respects_each]
  exact ⟨fun _ => rfl, ⟨dependsOn_dataChunks h, fun _ => .bind (fun _ => rfl) fun _ _ => rfl⟩, nofun⟩

theorem respects_stripPadding : Respects l stripPadding :=
  .bind (fun _ => rfl) fun data s => by cases unpadBytes Config.padBlock data <;> rfl

theorem respects_appendPadding : Respects l appendPadding :=
  .bind (fun _ => rfl) fun _ _ => rfl

theorem respects_padForCbc : Respects l padForCbc :=
  .bind (fun _ => rfl) fun _ _ => rfl

theorem respects_loadIv (h : .pA ∈ l) : Respects l loadIv :=
  .bind (dependsOn_need_P_A h) fun _ _ => rfl

theorem respects_cbcEncChunk (c : Bytes) : Respects l (cbcEncChunk c) :=
  .bind (fun _ => rfl) fun _ => .bind (fun _ => rfl) fun _ =>
    .seq (respects_encryptInto _) (.bind (fun _ => rfl) fun _ _ => rfl)

theorem respects_cbcDecChunk (c : Bytes) : Respects l (cbcDecChunk c) :=
  .bind (fun _ => rfl) fun _ => .bind (fun _ => rfl) fun _ =>
    .seq (respects_decryptInto _) (.bind (fun _ => rfl) fun _ _ => rfl)

theorem respects_checkCount {W : CtrFieldBits} {policy : WrapPolicy} {c0 : State → Res Nat} (len : Nat)
    (h : DependsOn l c0) : Respects l (checkCount W policy c0 len) :=
  .ite (.raise _) <|
    match policy with
    | .wrap => .val
    | .refuse => .bind h fun _ => .ite (.refused _) .val

/-- The count is taken of `DATA`, which the operation reads. -/
theorem respects_checkCount_data {W : CtrFieldBits} {policy : WrapPolicy} {c0 : State → Res Nat} (hdata : .data ∈ l)
    (h : DependsOn l c0) : Respects l fun s => checkCount W policy c0 s.mem.DATA.length s :=
  .reading (x := fun s => s.mem.DATA.length) (g := checkCount W policy c0)
    (fun s => congrArg List.length (visible_DATA s hdata)) fun len => respects_checkCount len h

theorem respects_ctrChunk (W : CtrFieldBits) (c : Bytes) : Respects l (ctrChunk W c) :=
  .bind (fun _ => rfl) fun _ => .bind (fun _ => rfl) fun _ =>
    .seq (respects_encryptInto _) (.bind (fun _ => rfl) fun _ _ => rfl)

theorem respects_ghashFold (b : Block) : Respects l (ghashFold b) :=
  .bind (fun _ => rfl) fun _ => .bind (fun _ => rfl) fun _ _ => rfl

theorem respects_hashStages {c : State → Res Bytes} (haad : .aad ∈ l) (hc : DependsOn l c) :
    ∀ g ∈ hashStages c, g.Respects l := by
  simp only [hashStages, List.forall_mem_cons, Stage.respects_act, Stage.respects_each]
  refine ⟨fun _ => rfl, ⟨dependsOn_aadChunks haad, fun _ => respects_ghashFold _⟩,
    ⟨?cChunks, fun _ => respects_ghashFold _⟩, .bind hc fun b => ?lengths, nofun⟩
  case cChunks => exact .bind hc fun _ _ => rfl
  case lengths =>
    exact .reading (x := fun s => s.mem.AAD.length) (g := fun n => ghashFold (lengthBlock n b.length))
      (fun s => congrArg List.length (visible_AAD s haad)) fun _ => respects_ghashFold _

theorem respects_computeTag : Respects l computeTag :=
  .bind (fun _ => rfl) fun _ => .bind (fun _ => rfl) fun _ _ => rfl

theorem respects_hashTagStages {c : State → Res Bytes} (haad : .aad ∈ l) (hc : DependsOn l c) :
    ∀ g ∈ hashTagStages c, g.Respects l :=
  List.forall_mem_append.2 ⟨respects_hashStages haad hc, List.forall_mem_singleton.2 respects_computeTag⟩

theorem respects_deriveSubkey : Respects l deriveSubkey :=
  .seq (respects_encryptInto _) (.bind (fun _ => rfl) fun _ _ => rfl)

theorem respects_loadJ0 (h : .pNonce ∈ l) : Respects l loadJ0 :=
  .bind (dependsOn_need_P_NONCE h) fun _ _ => rfl

theorem respects_computeMask : Respects l computeMask :=
  .bind (fun _ => rfl) fun _ => .seq (respects_encryptInto _) (.bind (fun _ => rfl) fun _ _ => rfl)

theorem respects_loadGcmCounter (h : .pNonce ∈ l) : Respects l loadGcmCounter :=
  .bind (dependsOn_need_P_NONCE h) fun _ _ => rfl

theorem respects_judgeDiff : Respects l judgeDiff :=
  .bind (fun _ => rfl) fun _ => .ite .val (.raise _)

theorem respects_splitInput (h : .data ∈ l) : Respects l splitInput :=
  .reading (x := fun s => s.mem.DATA)
    (g := fun d s => if d.length < Config.tagBytes then .raise .ciphertextTooShort
      else .val { s with PBUF := some (ciphertextPart d) })
    (visible_DATA · h) fun _ => .ite (.raise _) fun _ => rfl

theorem respects_checkCiphertextLength (h : .data ∈ l) : Respects l checkCiphertextLength :=
  .reading (x := fun s => s.mem.DATA)
    (g := fun d s => if d.length = 0 ∨ d.length % 16 ≠ 0 then .raise .invalidCiphertextLength else .val s)
    (visible_DATA · h) fun _ => .ite (.raise _) .val

theorem respects_compareReceivedTag (h : .data ∈ l) : Respects l compareReceivedTag :=
  .bind (fun _ => rfl) fun expected =>
    .reading (x := fun s => s.mem.DATA) (g := fun d => compareTags (tagPart d) expected) (visible_DATA · h)
      fun _ _ => rfl

end

/-! ### The fourteen operations -/

theorem operationOf_result_dependsOn (i : Instr) (l : List Slot) : DependsOn l (operationOf i).result := by
  cases i <;> exact fun _ => rfl

/-- Every stage of every operation works on the visible part of the state alone. -/
theorem stages_respect (i : Instr) : ∀ g ∈ (operationOf i).stages, g.Respects (slotsRead i) := by
  cases i <;>
    simp only [operationOf, keyexpOp, encblkOp, decblkOp, padOp, unpadOp, cbcencOp, cbcdecOp, ctrxfrmOp, gfmulOp,
      ghashOp, taggenOp, tagcmpOp, gcmencOp, gcmdecOp, stageKeyCheck, stageNonceCheck, stageKeyExpand,
      List.forall_mem_append, List.forall_mem_cons, Stage.respects_act, Stage.respects_each,
      List.not_mem_nil, false_implies, implies_true, and_true, and_assoc]
  case keyexp => exact ⟨respects_checkKey (by decide), respects_expandKey (by decide)⟩
  case encblk =>
    exact ⟨respects_checkKey (by decide), respects_expandKey (by decide),
      .bind (dependsOn_need_P_A (by decide)) respects_encryptInto⟩
  case decblk =>
    exact ⟨respects_checkKey (by decide), respects_expandKey (by decide),
      .bind (dependsOn_need_P_A (by decide)) respects_decryptInto⟩
  case pad => exact ⟨respects_copyDataStages _ (by decide), respects_appendPadding⟩
  case unpad => exact ⟨respects_copyDataStages _ (by decide), respects_stripPadding⟩
  case cbcenc =>
    exact ⟨respects_checkKey (by decide), respects_expandKey (by decide), respects_copyDataStages _ (by decide),
      respects_padForCbc, respects_loadIv (by decide), dependsOn_pbufChunks, respects_cbcEncChunk⟩
  case cbcdec =>
    exact ⟨respects_checkCiphertextLength (by decide), respects_checkKey (by decide), respects_expandKey (by decide),
      respects_loadIv (by decide), dependsOn_dataChunks (by decide), respects_cbcDecChunk, respects_stripPadding⟩
  case ctrxfrm =>
    exact ⟨respects_checkKey (by decide), respects_checkCount_data (by decide) (dependsOn_startField _ (by decide)),
      respects_expandKey (by decide), .bind (dependsOn_need_P_A (by decide)) fun _ _ => rfl,
      dependsOn_dataChunks (by decide), respects_ctrChunk _⟩
  case gfmul =>
    exact .bind (dependsOn_need_P_A (by decide)) fun _ => .bind (dependsOn_need_P_B (by decide)) fun _ _ => rfl
  case ghash =>
    exact ⟨.bind (dependsOn_need_P_A (by decide)) fun _ _ => rfl,
      respects_hashStages (by decide) (dependsOn_dataBuffer (by decide))⟩
  case taggen =>
    exact ⟨respects_checkKey (by decide), respects_checkNonce (by decide), respects_expandKey (by decide),
      respects_deriveSubkey, respects_loadJ0 (by decide), respects_computeMask,
      respects_hashTagStages (by decide) (dependsOn_dataBuffer (by decide))⟩
  case tagcmp =>
    exact ⟨.bind (dependsOn_need_P_A (by decide)) fun _ => .bind (dependsOn_need_P_B (by decide)) fun _ _ => rfl,
      respects_judgeDiff⟩
  case gcmenc =>
    exact ⟨respects_checkKey (by decide), respects_checkNonce (by decide), respects_expandKey (by decide),
      respects_deriveSubkey, respects_loadJ0 (by decide), respects_checkCount_data (by decide) fun _ => rfl,
      respects_loadGcmCounter (by decide), dependsOn_dataChunks (by decide), respects_ctrChunk _, respects_computeMask,
      respects_hashTagStages (by decide) dependsOn_resultRbuf⟩
  case gcmdec =>
    exact ⟨respects_splitInput (by decide), respects_checkKey (by decide), respects_checkNonce (by decide),
      respects_expandKey (by decide), respects_deriveSubkey, respects_loadJ0 (by decide), respects_computeMask,
      respects_hashTagStages (by decide) dependsOn_resultPbuf, respects_compareReceivedTag (by decide),
      respects_judgeDiff, .bind dependsOn_resultPbuf fun _ => respects_checkCount _ fun _ => rfl,
      respects_loadGcmCounter (by decide), dependsOn_pbufChunks, respects_ctrChunk _⟩

/-! ### From the visible part to the result triple -/

/-- Every run of stages ends in some way the host's call can see. -/
theorem Run.exists_yields (result : State → Res Bytes) (x : Run) : ∃ r, x.Yields result r := by
  cases x with
  | done u =>
    simp only [Run.Yields]
    cases result (enterPhase .commit u) <;> exact ⟨_, rfl⟩
  | raised e u => exact ⟨_, rfl⟩
  | fault f => exact ⟨_, rfl⟩
  | refused r => exact ⟨_, rfl⟩

/-- What a run yields is settled by the visible part of the state it ends in. -/
theorem Run.yields_map_visible {l : List Slot} {result : State → Res Bytes} (h : DependsOn l result) (x : Run)
    (r : CallResult) : (x.map (visible l)).Yields result r ↔ x.Yields result r := by
  cases x with
  | done u =>
    have hu : result (enterPhase .commit (visible l u)) = result (enterPhase .commit u) := h (enterPhase .commit u)
    simp only [Run.map, Run.Yields, hu]
  | raised e u => rfl
  | fault f => rfl
  | refused r => rfl

/-- States that agree on the slots an operation reads let its stages yield the same. -/
theorem yields_of_agreeOn {i : Instr} {s t : State} {r : CallResult} (h : ∀ k ∈ slotsRead i, agreeOn s t k)
    (hs : (runStages (operationOf i).stages (begin s)).Yields (operationOf i).result r) :
    (runStages (operationOf i).stages (begin t)).Yields (operationOf i).result r := by
  have hresult := operationOf_result_dependsOn i (slotsRead i)
  rw [← Run.yields_map_visible hresult, ← runStages_visible (stages_respect i)] at hs ⊢
  rwa [← visible_begin_eq h]

theorem fits_eq_of_agreeOn {s t : State} {k : Slot} (h : agreeOn s t k) : fits s k = fits t k := by
  cases k
  case aad => exact congrArg (fun b : Bytes => decide (b.length ≤ Config.maxLenBytes)) h
  case data => exact congrArg (fun b : Bytes => decide (b.length ≤ Config.maxLenBytes)) h
  all_goals rfl

theorem all_fits_iff_of_agreeOn {l : List Slot} {s t : State} (h : ∀ k ∈ l, agreeOn s t k) :
    l.all (fits s) = true ↔ l.all (fits t) = true := by
  simp only [List.all_eq_true]
  exact forall₂_congr fun k hk => by rw [fits_eq_of_agreeOn (h k hk)]

/-- The result triple that a transaction leaves does not show the state it was issued in. -/
theorem resultOf_conclude (r : CallResult) (s t : State) : resultOf (conclude r s) = resultOf (conclude r t) := by
  cases r <;> rfl

theorem resultOf_exec_of_agreeOn {i : Instr} {s t : State} (h : ∀ k ∈ slotsRead i, agreeOn s t k) :
    resultOf (exec i s) = resultOf (exec i t) := by
  have hfits := all_fits_iff_of_agreeOn h
  by_cases hs : (slotsRead i).all (fits s) = true
  · obtain ⟨r, hr⟩ := Run.exists_yields (operationOf i).result (runStages (operationOf i).stages (begin s))
    rw [exec_of_yields hs hr, exec_of_yields (hfits.1 hs) (yields_of_agreeOn h hr)]
    exact resultOf_conclude r s t
  · obtain ⟨b, hb⟩ := exec_refused hs
    obtain ⟨b', hb'⟩ := exec_refused (hfits.not.1 hs)
    rw [hb, hb']
    rfl

/-- Settles O19: a simulation between a state and what the operation can see of it. Each stage does in the visible part
what it does in the state, and `begin` leaves states that agree on the slots read with one visible part. -/
theorem ignoredSlotsHaveNoEffect : Obligations.IgnoredSlotsHaveNoEffect :=
  ⟨by decide, fun _ _ _ => resultOf_exec_of_agreeOn⟩

end Sys2Proof.Machine
end

section
/-! SUPPORT. The block cipher (40_block_cipher.md R125, R129, R130, R131): words and blocks, the words of key expansion and
the round-key file they are read from, KEYEXP, ENCBLK and DECBLK, and the obligations about them. -/

namespace Sys2Proof.Machine

/-! ### Words and blocks -/

@[simp] theorem getElem_wordOf (b : Block) (j : Fin 4) (k : Nat) (h : k < 4) : (wordOf b j)[k] = b[4 * j.val + k] := by
  simp [wordOf]

@[simp] theorem getElem_blockOfWords (w : Fin 4 → Word) (i : Nat) (h : i < 16) :
    (blockOfWords w)[i] = (w ⟨i / 4, by omega⟩)[i % 4] := by
  simp [blockOfWords]

@[simp] theorem wordOf_blockOfWords (w : Fin 4 → Word) (j : Fin 4) : wordOf (blockOfWords w) j = w j := by
  ext k hk
  have hword : (4 * j.val + k) / 4 = j.val := by omega
  have hbyte : (4 * j.val + k) % 4 = k := by omega
  simp only [getElem_wordOf, getElem_blockOfWords, hword, hbyte]

@[simp] theorem blockOfWords_wordOf (b : Block) : blockOfWords (wordOf b) = b := by
  ext i hi
  simp only [getElem_blockOfWords, getElem_wordOf, Nat.div_add_mod]

/-! ### The words of key expansion -/

@[simp] theorem length_expandFrom (n i : Nat) (ws : List Word) : (expandFrom n i ws).length = ws.length + n := by
  induction n generalizing i ws with
  | zero => rfl
  | succ n ih =>
    rw [expandFrom, ih, List.length_append, List.length_singleton]
    omega

/-- Expansion only appends: the words written before it stay. -/
theorem getD_expandFrom_of_lt {n i j : Nat} {ws : List Word} (d : Word) (h : j < ws.length) :
    (expandFrom n i ws).getD j d = ws.getD j d := by
  induction n generalizing i ws with
  | zero => rfl
  | succ n ih =>
    rw [expandFrom, ih (by rw [List.length_append]; omega), List.getD_append _ _ _ _ h]

/-- The word that an expansion writes first, at the index it has reached. -/
theorem getD_expandFrom_length (n : Nat) (ws : List Word) (d : Word) :
    (expandFrom (n + 1) ws.length ws).getD ws.length d =
      xorVec (ws.getD (ws.length - 4) #v[0, 0, 0, 0])
        (scheduleTerm ws.length (ws.getD (ws.length - 1) #v[0, 0, 0, 0])) := by
  rw [expandFrom, getD_expandFrom_of_lt d (by simp), List.getD_append_right _ _ _ _ le_rfl, Nat.sub_self,
    List.getD_cons_zero]

/-- The recurrence of R125, from the index the expansion has reached: word `j` is made of the words `j - 4` and `j - 1`
of the list that the expansion ends with. -/
theorem getD_expandFrom_of_le {n i j : Nat} {ws : List Word} (hlen : ws.length = i) (hpos : 0 < i) (hij : i ≤ j)
    (hjn : j < i + n) :
    (expandFrom n i ws).getD j #v[0, 0, 0, 0] =
      xorVec ((expandFrom n i ws).getD (j - 4) #v[0, 0, 0, 0])
        (scheduleTerm j ((expandFrom n i ws).getD (j - 1) #v[0, 0, 0, 0])) := by
  induction n generalizing i ws with
  | zero => omega
  | succ n ih =>
    rcases Nat.eq_or_lt_of_le hij with rfl | hlt
    · subst hlen
      rw [getD_expandFrom_length, getD_expandFrom_of_lt _ (by omega), getD_expandFrom_of_lt _ (by omega)]
    · exact ih (by rw [List.length_append, hlen, List.length_singleton]) (by omega) hlt (by omega)

theorem getD_scheduleWords_of_lt (key : Block) {i : Nat} (h : i < 4) :
    (scheduleWords key).getD i #v[0, 0, 0, 0] = wordOf key ⟨i, h⟩ := by
  rw [scheduleWords, getD_expandFrom_of_lt _ h]
  interval_cases i <;> rfl

theorem getD_scheduleWords_of_le (key : Block) {i : Nat} (h : 4 ≤ i) (hi : i < 44) :
    (scheduleWords key).getD i #v[0, 0, 0, 0] =
      xorVec ((scheduleWords key).getD (i - 4) #v[0, 0, 0, 0])
        (scheduleTerm i ((scheduleWords key).getD (i - 1) #v[0, 0, 0, 0])) :=
  getD_expandFrom_of_le rfl (by omega) h hi

/-! ### The round-key file -/

@[simp] theorem getElem_keyExpand (key : Block) (r : Nat) (h : r < 11) :
    (keyExpand key)[r] = blockOfWords fun j => (scheduleWords key).getD (4 * r + j.val) #v[0, 0, 0, 0] := by
  simp [keyExpand]

/-- The word view of the file (10_state.md R26) reads the words that key expansion wrote, in order. -/
@[simp] theorem scheduleWord_keyExpand (key : Block) (i : Fin 44) :
    scheduleWord (keyExpand key) i = (scheduleWords key).getD i.val #v[0, 0, 0, 0] := by
  simp only [scheduleWord, getElem_keyExpand, wordOf_blockOfWords, Nat.div_add_mod]

/-- Settles O40: the word view of the round-key file is the list that key expansion ends with, and that list keeps the
four words it began with and satisfies the recurrence at each further one. -/
theorem keyScheduleFollowsItsRecurrence : Obligations.KeyScheduleFollowsItsRecurrence := by
  intro key i
  simp only [scheduleWord_keyExpand]
  exact ⟨getD_scheduleWords_of_lt key, fun h => getD_scheduleWords_of_le key h i.isLt⟩

/-- Round key 0 is the key. -/
theorem getElem_zero_keyExpand (key : Block) : (keyExpand key)[0] = key := by
  have hwords : (fun j : Fin 4 => (scheduleWords key).getD (4 * 0 + j.val) #v[0, 0, 0, 0]) = wordOf key :=
    funext fun j => by rw [Nat.mul_zero, Nat.zero_add, getD_scheduleWords_of_lt key j.isLt]
  rw [getElem_keyExpand, hwords, blockOfWords_wordOf]

@[simp] theorem length_scheduleBytes (rk : Schedule) : (scheduleBytes rk).length = 176 := by
  simp [scheduleBytes, List.length_flatMap]

theorem take_scheduleBytes (rk : Schedule) : (scheduleBytes rk).take 16 = rk[0].toList := by
  obtain ⟨k, ks, hk⟩ : ∃ k ks, rk.toList = k :: ks := List.exists_cons_of_length_eq_add_one rk.length_toList
  have hhead : rk[0] = k := by
    rw [← Vector.getElem_toList (h := by simp)]
    simp [hk]
  rw [scheduleBytes, hk, List.flatMap_cons, hhead, List.take_left' k.length_toList]

/-- The first 16 bytes of the schedule are the key it was expanded from (R129). -/
theorem take_scheduleBytes_keyExpand {k : Bytes} (h : k.length = 16) :
    (scheduleBytes (keyExpand (blockOf k))).take 16 = k := by
  rw [take_scheduleBytes, getElem_zero_keyExpand, toList_blockOf h]

/-! ### The key stages

KEYEXP, ENCBLK and DECBLK begin with the key check and key expansion, and read no buffer. -/

theorem yields_keyStages {o : State → Res Bytes} {r : CallResult} {gs : List Stage} {s : State} {k : Bytes}
    (hk : s.P_KEY = some k) (hl : k.length = 16)
    (ht : (runStages gs { s with
      PHASE := .keyexp, KEY := some (blockOf k), RK := some (keyExpand (blockOf k)) }).Yields o r) :
    (runStages (stageKeyCheck :: stageKeyExpand :: gs) s).Yields o r :=
  yields_act (checkKey_eq_val.2 ⟨k, hk, hl, rfl⟩) (yields_act (expandKey_eq_val.2 ⟨k, hk, hl, rfl⟩) ht)

/-- An operation that tests the key first ends a command with a key of another length in `InvalidKeyLength`. -/
theorem exec_of_key_length_ne {i : Instr} {s : State} {k : Bytes} {gs : List Stage}
    (hi : (operationOf i).stages = stageKeyCheck :: gs) (ha : (slotsRead i).all (fits s) = true)
    (hk : s.P_KEY = some k) (hl : k.length ≠ 16) : exec i s = .next (enterError .invalidKeyLength s) :=
  exec_of_yields (r := .error .invalidKeyLength) ha (hi ▸ yields_raise (checkKey_raise hk hl))

/-- The stages of a block operation: under the schedule `rk` of the key, the block in `P_A` goes through `f rk`, where
`into` is the act that leaves the outcome in `S`. -/
theorem yields_blockStages {f : Schedule → Block → Block} {into : Block → State → Res State} {s : State} {k : Bytes}
    {b : Block} (hinto : ∀ (u : State) (rk : Schedule), u.RK = some rk → into b u = .val { u with S := some (f rk b) })
    (hk : s.P_KEY = some k) (hl : k.length = 16) (hb : s.P_A = some b) :
    (runStages [stageKeyCheck, stageKeyExpand, .act .rounds fun u => (need .P_A u.P_A).bind fun a => into a u] s).Yields
      resultS (.ok (f (keyExpand (blockOf k)) b).toList) := by
  refine yields_keyStages hk hl (yields_act (Res.bind_eq_val.2 ⟨b, need_eq_val.2 hb, hinto _ _ rfl⟩) ?_)
  exact yields_end rfl

/-! ### KEYEXP, ENCBLK and DECBLK -/

/-- Settles O21: the stages leave the schedule in `RK`, whose eleven round keys are its 176 bytes, round key 0 being the
key. -/
theorem keyexpReturnsTheSchedule : Obligations.KeyexpReturnsTheSchedule := by
  refine ⟨rfl, fun s k hk => ⟨fun hl => ⟨?released, ?length, ?keyFirst⟩, exec_of_key_length_ne rfl rfl hk⟩⟩
  case released => exact exec_of_yields (i := .keyexp) rfl (yields_keyStages (s := begin s) hk hl (yields_end rfl))
  case length => exact length_scheduleBytes _
  case keyFirst => exact take_scheduleBytes_keyExpand hl

/-- Settles O22: the block stages with the cipher as the act on the block. -/
theorem encblkEncryptsTheBlock : Obligations.EncblkEncryptsTheBlock := by
  refine ⟨rfl, fun s k hk => ⟨fun hl b hb => ?released, exec_of_key_length_ne rfl rfl hk⟩⟩
  exact exec_of_yields (i := .encblk) rfl <| yields_blockStages (f := cipher) (s := begin s)
    (fun _ rk hrk => encryptInto_eq_val.2 ⟨rk, hrk, rfl⟩) hk hl hb

/-- Settles O23: the block stages with the inverse cipher as the act on the block. -/
theorem decblkDecryptsTheBlock : Obligations.DecblkDecryptsTheBlock := by
  refine ⟨rfl, fun s k hk => ⟨fun hl b hb => ?released, exec_of_key_length_ne rfl rfl hk⟩⟩
  exact exec_of_yields (i := .decblk) rfl <| yields_blockStages (f := invCipher) (s := begin s)
    (fun _ rk hrk => decryptInto_eq_val.2 ⟨rk, hrk, rfl⟩) hk hl hb

end Sys2Proof.Machine
end

section
/-! SUPPORT. Padding (41_padding.md R150, R151, R152, R154): what `Unpad` accepts, that it and `Pad` undo each other, PAD
and UNPAD as commands, and the obligations about them. -/

namespace Sys2Proof.Machine

/-! ### The last bytes of a buffer -/

@[simp] theorem memRead_zero (buf : Bytes) (n : Nat) : memRead buf 0 n = buf.take n := rfl

/-- A read up to the end of the buffer. -/
theorem memRead_length_sub {buf : Bytes} {n : Nat} (h : n ≤ buf.length) :
    memRead buf (buf.length - n) n = buf.drop (buf.length - n) :=
  List.take_of_length_le (by simp; omega)

/-- Counted back from the end, the pad bytes are the bytes 1 to `n`. -/
theorem getElem?_append_replicate (d : Bytes) {n j : Nat} (p : Byte) (hpos : 1 ≤ j) (hj : j ≤ n) :
    (d ++ List.replicate n p)[(d ++ List.replicate n p).length - j]? = some p := by
  rw [List.length_append, List.length_replicate, List.getElem?_append_right (by omega)]
  exact List.getElem?_replicate_of_lt (by omega)

/-- The bytes from `n` before the end on, where each of them is `p`. -/
theorem drop_eq_replicate {x : Bytes} {n : Nat} {p : Byte} (hn : n ≤ x.length)
    (h : ∀ j, 1 ≤ j → j ≤ n → x[x.length - j]? = some p) : x.drop (x.length - n) = List.replicate n p := by
  refine List.ext_getElem? fun i => ?_
  rw [List.getElem?_drop, List.getElem?_replicate]
  by_cases hi : i < n
  · have hindex : x.length - n + i = x.length - (n - i) := by omega
    rw [if_pos hi, hindex]
    exact h (n - i) (by omega) (by omega)
  · rw [if_neg hi]
    exact List.getElem?_eq_none (by omega)

/-! ### Pad and Unpad -/

/-- `Unpad` answers `d` exactly for `d` followed by `p` bytes of value `p`, where `p` is 1 to `B`: the tests of R152 are
the converse of an append. -/
theorem unpadBytes_eq_some_iff {B : Nat} {x d : Bytes} :
    unpadBytes B x = some d ↔ ∃ p : Byte, p.toNat ≠ 0 ∧ p.toNat ≤ B ∧ x = d ++ List.replicate p.toNat p := by
  unfold unpadBytes
  constructor
  · intro h
    split at h
    next => cases h
    next =>
      dsimp only at h
      generalize x.getD (x.length - 1) 0 = p at h
      split at h
      next => cases h
      next hp =>
        split at h
        next hall =>
          cases h
          push Not at hp
          obtain ⟨hpos, hB, hlen⟩ := hp
          rw [memRead_length_sub hlen] at hall
          have hpad : x.drop (x.length - p.toNat) = List.replicate p.toNat p :=
            List.eq_replicate_iff.2 ⟨by simp; omega, fun b hb => by simpa using List.all_eq_true.1 hall b hb⟩
          exact ⟨p, hpos, hB, by rw [← hpad]; exact (List.take_append_drop _ x).symm⟩
        next => cases h
  · rintro ⟨p, hpos, hB, rfl⟩
    have hlast : (d ++ List.replicate p.toNat p).getD ((d ++ List.replicate p.toNat p).length - 1) 0 = p := by
      rw [List.getD_eq_getElem?_getD, getElem?_append_replicate d p le_rfl (by omega), Option.getD_some]
    have hlen : p.toNat ≤ (d ++ List.replicate p.toNat p).length := by simp
    dsimp only
    rw [hlast, if_neg (by omega), if_neg (by omega), memRead_length_sub hlen]
    simp

theorem padLength_pos {B : Nat} (h : 1 ≤ B) (len : Nat) : 1 ≤ padLength B len :=
  Nat.sub_pos_of_lt (Nat.mod_lt len h)

theorem padLength_le (B len : Nat) : padLength B len ≤ B := Nat.sub_le _ _

theorem toNat_padLength {B : Nat} (h : B ≤ 255) (len : Nat) :
    (BitVec.ofNat 8 (padLength B len)).toNat = padLength B len := by
  have := padLength_le B len
  rw [BitVec.toNat_ofNat]
  omega

/-- `Unpad` undoes `Pad` for every block size that fits one byte (R154). -/
theorem unpadBytes_padBytes {B : Nat} (hpos : 1 ≤ B) (hB : B ≤ 255) (d : Bytes) :
    unpadBytes B (padBytes B d) = some d := by
  have hn := padLength_pos hpos d.length
  refine unpadBytes_eq_some_iff.2 ⟨BitVec.ofNat 8 (padLength B d.length), ?_⟩
  rw [toNat_padLength hB]
  exact ⟨by omega, padLength_le B d.length, rfl⟩

theorem padBytes_injective {B : Nat} (hpos : 1 ≤ B) (hB : B ≤ 255) : Function.Injective (padBytes B) := fun d d' h =>
  Option.some.inj ((unpadBytes_padBytes hpos hB d).symm.trans (h ▸ unpadBytes_padBytes hpos hB d'))

/-- `Pad` undoes a successful `Unpad` of whole blocks: from 1 to 16 there is one pad length that fills the last block. -/
theorem padBytes_of_unpadBytes {x d : Bytes} (h : unpadBytes 16 x = some d) (hx : x.length % 16 = 0) :
    padBytes 16 d = x := by
  obtain ⟨p, hpos, hp, rfl⟩ := unpadBytes_eq_some_iff.1 h
  rw [List.length_append, List.length_replicate] at hx
  have hn : padLength 16 d.length = p.toNat := by
    unfold padLength
    omega
  rw [padBytes, hn, BitVec.ofNat_toNat, BitVec.setWidth_eq]

theorem length_padBytes (d : Bytes) : (padBytes 16 d).length = 16 * (d.length / 16 + 1) := by
  rw [padBytes, List.length_append, List.length_replicate, padLength]
  omega

/-- Settles O43: what `Unpad` accepts is an append of pad bytes, and `Pad` appends the one run of them that fills the
last block. -/
theorem padAndUnpadLaws : Obligations.PadAndUnpadLaws :=
  ⟨fun _ d hpos hB => unpadBytes_padBytes hpos hB d, padBytes_injective (by decide) (by decide),
    fun _ _ => padBytes_of_unpadBytes⟩

/-! ### PAD -/

/-- A command that reads `DATA` alone is taken at issue where `DATA` has a legal length. -/
theorem all_fits_data {s : State} (h : s.mem.DATA.length ≤ 2 ^ 61 - 1) : [Slot.data].all (fits s) = true := by
  simpa [fits, Config.maxLenBytes] using h

theorem exec_pad {s : State} (h : s.mem.DATA.length ≤ 2 ^ 61 - 1) :
    exec .pad s = .next (release (padBytes 16 s.mem.DATA) s) := by
  refine exec_of_yields (i := .pad) (r := .ok _) (all_fits_data h) (yields_copyDataStages fun BLK => ?_)
  rw [flatten_chunks]
  exact yields_act (appendPadding_eq_val.2 ⟨_, rfl, rfl⟩) (yields_end rfl)

/-- Settles O24: the copying stages leave `DATA` in `RBUF`, and the pad bytes are appended to it. -/
theorem padAppendsTheCountBytes : Obligations.PadAppendsTheCountBytes :=
  ⟨rfl, fun s h => ⟨exec_pad h, rfl, length_padBytes s.mem.DATA⟩⟩

/-! ### UNPAD -/

theorem exec_unpad_of_some {s : State} {d : Bytes} (h : s.mem.DATA.length ≤ 2 ^ 61 - 1)
    (hd : unpadBytes 16 s.mem.DATA = some d) : exec .unpad s = .next (release d s) := by
  refine exec_of_yields (i := .unpad) (r := .ok d) (all_fits_data h) (yields_copyDataStages fun BLK => ?_)
  rw [flatten_chunks]
  exact yields_act (stripPadding_eq_val.2 ⟨_, d, rfl, hd, rfl⟩) (yields_end rfl)

theorem exec_unpad_of_none {s : State} (h : s.mem.DATA.length ≤ 2 ^ 61 - 1)
    (hd : unpadBytes 16 s.mem.DATA = none) : exec .unpad s = .next (enterError .invalidPadding s) := by
  refine exec_of_yields (i := .unpad) (r := .error _) (all_fits_data h) (yields_copyDataStages fun BLK => ?_)
  rw [flatten_chunks]
  exact yields_raise (stripPadding_raise rfl hd)

/-- The accepting side of R152, byte by byte. -/
theorem unpadBytes_eq_some_take {B : Nat} {x : Bytes} {p : Byte} (hpos : p.toNat ≠ 0) (hB : p.toNat ≤ B)
    (hlen : p.toNat ≤ x.length) (hpad : ∀ j, 1 ≤ j → j ≤ p.toNat → x[x.length - j]? = some p) :
    unpadBytes B x = some (x.take (x.length - p.toNat)) :=
  unpadBytes_eq_some_iff.2 ⟨p, hpos, hB, by rw [← drop_eq_replicate hlen hpad, List.take_append_drop]⟩

/-- The rejecting side of R152: padding that is accepted passes each of the four tests of the last byte. -/
theorem unpadBytes_eq_none {B : Nat} {x : Bytes} {p : Byte} (hlast : x.getLast? = some p)
    (hbad : p.toNat = 0 ∨ p.toNat > B ∨ p.toNat > x.length ∨
      ∃ j, 1 ≤ j ∧ j ≤ p.toNat ∧ x[x.length - j]? ≠ some p) : unpadBytes B x = none := by
  refine Option.eq_none_iff_forall_ne_some.2 fun d h => ?_
  obtain ⟨q, hpos, hB, rfl⟩ := unpadBytes_eq_some_iff.1 h
  rw [List.getLast?_eq_getElem?, getElem?_append_replicate d q le_rfl (by omega)] at hlast
  obtain rfl : q = p := Option.some.inj hlast
  rcases hbad with hzero | hbig | hlong | ⟨j, hj, hjp, hne⟩
  · exact hpos hzero
  · omega
  · rw [List.length_append, List.length_replicate] at hlong
    omega
  · exact hne (getElem?_append_replicate d q hj hjp)

@[simp] theorem unpadBytes_nil (B : Nat) : unpadBytes B [] = none := rfl

/-- Settles O25: UNPAD ends as `Unpad` of `DATA` answers, which is the append of pad bytes it accepts. -/
theorem unpadStripsConsistentPaddingOnly : Obligations.UnpadStripsConsistentPaddingOnly := by
  refine ⟨rfl, fun s h => ⟨fun p _ hpos hB hlen hpad => ?consistent, fun hnil => ?empty, fun p hlast hbad => ?other⟩⟩
  case consistent => exact exec_unpad_of_some h (unpadBytes_eq_some_take hpos hB hlen hpad)
  case empty => exact exec_unpad_of_none h (by rw [hnil, unpadBytes_nil])
  case other => exact exec_unpad_of_none h (unpadBytes_eq_none hlast hbad)

end Sys2Proof.Machine
end

section
/-! SUPPORT. The inverse cipher (40_block_cipher.md R111, R113, R117, R119, R121, R122, R128): each transformation of
the state is undone by its inverse, and so are the rounds, the last one first. -/

namespace Sys2Proof.Machine

/-! ### Multiplication by a constant is linear -/

theorem xtime_eq_xor (a : Byte) : xtime a = (a <<< 1) ^^^ (if a.getLsbD 7 then 0x1b else 0) := by
  unfold xtime
  split
  · rfl
  · exact BitVec.xor_zero.symm

theorem xtime_xor (a b : Byte) : xtime (a ^^^ b) = xtime a ^^^ xtime b := by
  have reduction : ∀ p q : Bool,
      (if p ^^ q then (0x1b : Byte) else 0) = (if p then 0x1b else 0) ^^^ (if q then 0x1b else 0) := by decide
  simp only [xtime_eq_xor, BitVec.getLsbD_xor, BitVec.shiftLeft_xor_distrib, reduction]
  ac_rfl

theorem gmulFrom_xor (n i : Nat) (a a' b r r' : Byte) :
    gmulFrom n i (a ^^^ a') b (r ^^^ r') = gmulFrom n i a b r ^^^ gmulFrom n i a' b r' := by
  induction n generalizing i a a' r r' with
  | zero => rfl
  | succ n ih =>
    rw [gmulFrom, gmulFrom, gmulFrom, xtime_xor, ← ih]
    split
    · congr 1
      ac_rfl
    · rfl

theorem gmul_xor (a a' b : Byte) : gmul (a ^^^ a') b = gmul a b ^^^ gmul a' b := gmulFrom_xor 8 0 a a' b 0 0

/-! ### The transformations and their inverses -/

theorem invSbox_sbox : ∀ a : Byte, invSbox (sbox a) = a := by decide +kernel

@[simp] theorem invSubBytes_subBytes (S : Block) : invSubBytes (subBytes S) = S := by
  ext i hi
  simp [invSubBytes, subBytes, invSbox_sbox]

@[simp] theorem invShiftRows_shiftRows (S : Block) : invShiftRows (shiftRows S) = S := by
  ext i hi
  interval_cases i <;> rfl

/-- Row 0 of the inverse column matrix applied to the four rows of the column matrix: the factors of `a` add up to 1,
those of each other byte to 0. -/
theorem invMixRow_mixRows (a b c d : Byte) :
    gmul (gmul a 2 ^^^ gmul b 3 ^^^ c ^^^ d) 0x0e ^^^ gmul (a ^^^ gmul b 2 ^^^ gmul c 3 ^^^ d) 0x0b ^^^
      gmul (a ^^^ b ^^^ gmul c 2 ^^^ gmul d 3) 0x0d ^^^ gmul (gmul a 3 ^^^ b ^^^ c ^^^ gmul d 2) 0x09 = a := by
  have ha : ∀ x : Byte, gmul (gmul x 2) 0x0e ^^^ gmul x 0x0b ^^^ gmul x 0x0d ^^^ gmul (gmul x 3) 0x09 = x := by
    decide +kernel
  have hb : ∀ x : Byte, gmul (gmul x 3) 0x0e ^^^ gmul (gmul x 2) 0x0b ^^^ gmul x 0x0d ^^^ gmul x 0x09 = 0 := by
    decide +kernel
  have hc : ∀ x : Byte, gmul x 0x0e ^^^ gmul (gmul x 3) 0x0b ^^^ gmul (gmul x 2) 0x0d ^^^ gmul x 0x09 = 0 := by
    decide +kernel
  have hd : ∀ x : Byte, gmul x 0x0e ^^^ gmul x 0x0b ^^^ gmul (gmul x 3) 0x0d ^^^ gmul (gmul x 2) 0x09 = 0 := by
    decide +kernel
  calc
    _ = (gmul (gmul a 2) 0x0e ^^^ gmul a 0x0b ^^^ gmul a 0x0d ^^^ gmul (gmul a 3) 0x09) ^^^
        (gmul (gmul b 3) 0x0e ^^^ gmul (gmul b 2) 0x0b ^^^ gmul b 0x0d ^^^ gmul b 0x09) ^^^
        (gmul c 0x0e ^^^ gmul (gmul c 3) 0x0b ^^^ gmul (gmul c 2) 0x0d ^^^ gmul c 0x09) ^^^
        (gmul d 0x0e ^^^ gmul d 0x0b ^^^ gmul (gmul d 3) 0x0d ^^^ gmul (gmul d 2) 0x09) := by
      simp only [gmul_xor]
      ac_rfl
    _ = a := by
      rw [ha, hb, hc, hd]
      simp

theorem getElem_rotWord (a : Word) {r : Nat} (h : r + 1 < 4) : (rotWord a)[r] = a[r + 1] := by
  have hr : r < 3 := by omega
  interval_cases r <;> rfl

/-! Each row of the two column matrices is the row above it rotated, so both commute with the rotation of a column. -/

theorem mixColumn_rotWord (a : Word) : mixColumn (rotWord a) = rotWord (mixColumn a) := by
  simp only [mixColumn, rotWord, Vector.getElem_mk, List.getElem_toArray, List.getElem_cons_succ,
    List.getElem_cons_zero]
  ac_rfl

theorem invMixColumn_rotWord (a : Word) : invMixColumn (rotWord a) = rotWord (invMixColumn a) := by
  simp only [invMixColumn, rotWord, Vector.getElem_mk, List.getElem_toArray, List.getElem_cons_succ,
    List.getElem_cons_zero]
  ac_rfl

theorem getElem_invMixColumn_mixColumn (a : Word) {r : Nat} (h : r < 4) : (invMixColumn (mixColumn a))[r] = a[r] := by
  induction r generalizing a with
  | zero => exact invMixRow_mixRows a[0] a[1] a[2] a[3]
  | succ r ih =>
    have hrow := ih (rotWord a) (by omega)
    rwa [mixColumn_rotWord, invMixColumn_rotWord, getElem_rotWord _ h, getElem_rotWord _ h] at hrow

theorem invMixColumn_mixColumn (a : Word) : invMixColumn (mixColumn a) = a :=
  Vector.ext fun _ h => getElem_invMixColumn_mixColumn a h

@[simp] theorem invMixColumns_mixColumns (S : Block) : invMixColumns (mixColumns S) = S := by
  simp only [invMixColumns, mixColumns, wordOf_blockOfWords, invMixColumn_mixColumn]
  exact blockOfWords_wordOf S

@[simp] theorem addRoundKey_addRoundKey (rk : Schedule) (r : Fin 11) (S : Block) :
    addRoundKey rk r (addRoundKey rk r S) = S := xorVec_cancel S rk[r]

/-! ### The rounds -/

/-- The two ciphers cut their rounds at different places: a round of the inverse cipher undoes the key addition and the
column mix of its round of the cipher, and the substitution and shift of the round after it. -/
theorem invRound_fullRound (rk : Schedule) (r : Fin 11) (S : Block) :
    invRound rk r (shiftRows (subBytes (fullRound rk r S))) = shiftRows (subBytes S) := by
  simp only [invRound, fullRound, invShiftRows_shiftRows, invSubBytes_subBytes, addRoundKey_addRoundKey,
    invMixColumns_mixColumns]

theorem foldl_invRound_foldl_fullRound (rk : Schedule) (rs : List (Fin 11)) (S : Block) :
    rs.reverse.foldl (fun S r => invRound rk r S) (shiftRows (subBytes (rs.foldl (fun S r => fullRound rk r S) S))) =
      shiftRows (subBytes S) := by
  induction rs generalizing S with
  | nil => rfl
  | cons r rs ih =>
    rw [List.foldl_cons, List.reverse_cons, List.foldl_append, ih]
    exact invRound_fullRound rk r S

/-- The inverse cipher undoes the cipher (R128). -/
@[simp] theorem invCipher_cipher (rk : Schedule) (b : Block) : invCipher rk (cipher rk b) = b := by
  have hrounds := foldl_invRound_foldl_fullRound rk [1, 2, 3, 4, 5, 6, 7, 8, 9] (addRoundKey rk 0 b)
  rw [cipher, invCipher, finalRound, addRoundKey_addRoundKey]
  refine (congrArg (invFinal rk) hrounds).trans ?_
  rw [invFinal, invShiftRows_shiftRows, invSubBytes_subBytes, addRoundKey_addRoundKey]

end Sys2Proof.Machine
end

section
/-! SUPPORT. CBC (42_cbc.md R162, R165, R166): CBCENC and CBCDEC as commands, the unchaining of a chained message, and
the obligations about them. -/

namespace Sys2Proof.Machine

/-- A command that reads the key, `P_A` and `DATA` is taken at issue where `DATA` has a legal length. -/
theorem all_fits_pKey_pA_data {s : State} (h : s.mem.DATA.length ≤ 2 ^ 61 - 1) :
    [Slot.pKey, .pA, .data].all (fits s) = true := by
  simpa [fits, Config.maxLenBytes] using h

/-! ### CBCENC -/

@[simp] theorem length_cbcEncFrom (rk : Schedule) (prev : Block) (cs : List Bytes) :
    (cbcEncFrom rk prev cs).length = 16 * cs.length := by
  induction cs generalizing prev with
  | nil => rfl
  | cons c cs ih =>
    rw [cbcEncFrom, List.length_append, Vector.length_toList, ih, List.length_cons]
    omega

theorem length_cbcEncFrom_padBytes (rk : Schedule) (iv : Block) (d : Bytes) :
    (cbcEncFrom rk iv (chunks (padBytes 16 d))).length = 16 * (d.length / 16 + 1) := by
  rw [length_cbcEncFrom, length_chunks, length_padBytes, nchunks_mul]

theorem exec_cbcenc {s : State} {k : Bytes} {iv : Block} (h : s.mem.DATA.length ≤ 2 ^ 61 - 1) (hk : s.P_KEY = some k)
    (hl : k.length = 16) (hiv : s.P_A = some iv) :
    exec .cbcenc s = .next (release (cbcEncFrom (keyExpand (blockOf k)) iv (chunks (padBytes 16 s.mem.DATA))) s) := by
  refine exec_of_yields (i := .cbcenc) (r := .ok _) (all_fits_pKey_pA_data h) <|
    yields_keyStages (s := begin s) hk hl (yields_copyDataStages fun BLK => ?_)
  rw [flatten_chunks]
  refine yields_act (padForCbc_eq_val.2 ⟨_, rfl, rfl⟩) (yields_act (loadIv_eq_val.2 ⟨iv, hiv, rfl⟩) ?_)
  exact yields_cbcEncChunks _ _ iv [] rfl rfl rfl rfl fun _ _ _ => yields_end rfl

/-- Settles O26: the copying stages leave `DATA` in `RBUF`, and the chunk loop is the recurrence over the chunks of its
padded form. -/
theorem cbcencChainsThePaddedBlocks : Obligations.CbcencChainsThePaddedBlocks := by
  refine ⟨rfl, fun s k hk h => ⟨fun hl iv hiv => ⟨?released, ?length⟩, ?keyLength⟩⟩
  case released => exact exec_cbcenc h hk hl hiv
  case length => exact length_cbcEncFrom_padBytes _ iv s.mem.DATA
  case keyLength => exact exec_of_key_length_ne rfl (all_fits_pKey_pA_data h) hk

/-! ### CBCDEC -/

theorem apiUnpad_of_some {x d : Bytes} (h : unpadBytes 16 x = some d) : apiUnpad x = .ok d := by
  simp only [apiUnpad, Config.padBlock, h]

theorem apiUnpad_of_none {x : Bytes} (h : unpadBytes 16 x = none) : apiUnpad x = .error .invalidPadding := by
  simp only [apiUnpad, Config.padBlock, h]

/-- The last stage of CBCDEC ends as `Unpad` of the bytes collected answers. -/
theorem yields_stripPadding {s : State} {x : Bytes} (h : s.RBUF = some x) :
    (runStages [.act .unpad stripPadding] s).Yields resultRbuf (callOf (apiUnpad x)) := by
  cases hu : unpadBytes 16 x with
  | some d =>
    rw [apiUnpad_of_some hu]
    exact yields_act (stripPadding_eq_val.2 ⟨x, d, h, hu, rfl⟩) (yields_end rfl)
  | none =>
    rw [apiUnpad_of_none hu]
    exact yields_raise (stripPadding_raise h hu)

section
variable {s : State} {k : Bytes}

theorem exec_cbcdec_of_length (h : s.mem.DATA.length ≤ 2 ^ 61 - 1)
    (hlen : s.mem.DATA.length = 0 ∨ s.mem.DATA.length % 16 ≠ 0) :
    exec .cbcdec s = .next (enterError .invalidCiphertextLength s) :=
  exec_of_yields (i := .cbcdec) (r := .error _) (all_fits_pKey_pA_data h)
    (yields_raise (checkCiphertextLength_raise hlen))

/-- Past the length test, CBCDEC ends as its other stages yield. -/
theorem exec_cbcdec_of_yields {r : CallResult} (h : s.mem.DATA.length ≤ 2 ^ 61 - 1) (hne : s.mem.DATA.length ≠ 0)
    (hmod : s.mem.DATA.length % 16 = 0)
    (hr : (runStages cbcdecOp.stages.tail (enterPhase .len (begin s))).Yields resultRbuf r) :
    exec .cbcdec s = conclude r s := by
  have hlen : ¬(s.mem.DATA.length = 0 ∨ s.mem.DATA.length % 16 ≠ 0) := by omega
  exact exec_of_yields (i := .cbcdec) (all_fits_pKey_pA_data h)
    (yields_act (checkCiphertextLength_eq_val.2 ⟨hlen, rfl⟩) hr)

theorem exec_cbcdec_of_key_length_ne (h : s.mem.DATA.length ≤ 2 ^ 61 - 1) (hne : s.mem.DATA.length ≠ 0)
    (hmod : s.mem.DATA.length % 16 = 0) (hk : s.P_KEY = some k) (hl : k.length ≠ 16) :
    exec .cbcdec s = .next (enterError .invalidKeyLength s) :=
  exec_cbcdec_of_yields (r := .error _) h hne hmod (yields_raise (checkKey_raise hk hl))

theorem exec_cbcdec {iv : Block} (h : s.mem.DATA.length ≤ 2 ^ 61 - 1) (hne : s.mem.DATA.length ≠ 0)
    (hmod : s.mem.DATA.length % 16 = 0) (hk : s.P_KEY = some k) (hl : k.length = 16) (hiv : s.P_A = some iv) :
    exec .cbcdec s = .next (settle (apiUnpad (cbcDecFrom (keyExpand (blockOf k)) iv (chunks s.mem.DATA))) s) := by
  rw [← conclude_callOf]
  refine exec_cbcdec_of_yields h hne hmod <|
    yields_keyStages hk hl (yields_act (loadIv_eq_val.2 ⟨iv, hiv, rfl⟩) ?_)
  exact yields_cbcDecChunks _ _ iv [] rfl rfl rfl rfl fun _ _ _ => yields_stripPadding rfl

end

/-- Settles O27: past the two tests the chunk loop is the recurrence, and the last stage unpads what it collected. -/
theorem cbcdecUnchainsAndUnpads : Obligations.CbcdecUnchainsAndUnpads := by
  refine ⟨rfl, fun s h => ⟨exec_cbcdec_of_length h, fun k hk hne hmod => ⟨?keyLength, fun hl iv hiv => ?unpadded⟩⟩⟩
  case keyLength => exact exec_cbcdec_of_key_length_ne h hne hmod hk
  case unpadded =>
    rw [exec_cbcdec h hne hmod hk hl hiv]
    exact ⟨fun p hp => by rw [apiUnpad_of_some hp, settle], fun hp => by rw [apiUnpad_of_none hp, settle]⟩

/-! ### CBCDEC undoes CBCENC -/

theorem chunks_toList_append (b : Block) (buf : Bytes) : chunks (b.toList ++ buf) = b.toList :: chunks buf := by
  have hne : b.toList ++ buf ≠ [] := List.ne_nil_of_length_pos (by simp)
  rw [chunks_cons hne, List.take_left' b.length_toList, List.drop_left' b.length_toList]

/-- Every chunk of a buffer of whole blocks is one. -/
theorem length_of_mem_chunks {buf c : Bytes} (h : buf.length % 16 = 0) (hc : c ∈ chunks buf) : c.length = 16 := by
  obtain ⟨j, hj, rfl⟩ := List.mem_map.1 hc
  have hlt := lt_nchunks_iff.1 (List.mem_range.1 hj)
  rw [length_chunk]
  omega

/-- Decryption has in hand the very block that encryption chained on, so each chunk comes back. -/
theorem cbcDecFrom_cbcEncFrom (rk : Schedule) (prev : Block) {cs : List Bytes} (h : ∀ c ∈ cs, c.length = 16) :
    cbcDecFrom rk prev (chunks (cbcEncFrom rk prev cs)) = cs.flatten := by
  induction cs generalizing prev with
  | nil => rw [cbcEncFrom, chunks_nil, cbcDecFrom, List.flatten_nil]
  | cons c cs ih =>
    obtain ⟨hc, hcs⟩ := List.forall_mem_cons.1 h
    rw [cbcEncFrom, chunks_toList_append, cbcDecFrom, blockOf_toList, ih _ hcs, invCipher_cipher, xorVec_cancel,
      toList_blockOf hc, List.flatten_cons]

theorem cbcDecFrom_cbcEncFrom_padBytes (rk : Schedule) (iv : Block) (d : Bytes) :
    cbcDecFrom rk iv (chunks (cbcEncFrom rk iv (chunks (padBytes 16 d)))) = padBytes 16 d := by
  have hwhole : (padBytes 16 d).length % 16 = 0 := by rw [length_padBytes, Nat.mul_mod_right]
  rw [cbcDecFrom_cbcEncFrom rk iv fun _ => length_of_mem_chunks hwhole, flatten_chunks]

theorem exec_cbcdec_of_cbcEncFrom {s : State} {k d : Bytes} {iv : Block} (hd : d.length + 16 ≤ 2 ^ 61 - 1)
    (hdata : s.mem.DATA = cbcEncFrom (keyExpand (blockOf k)) iv (chunks (padBytes 16 d))) (hk : s.P_KEY = some k)
    (hl : k.length = 16) (hiv : s.P_A = some iv) : exec .cbcdec s = .next (release d s) := by
  have hlen : s.mem.DATA.length = 16 * (d.length / 16 + 1) := hdata ▸ length_cbcEncFrom_padBytes _ iv d
  rw [exec_cbcdec (by omega) (by omega) (by omega) hk hl hiv, hdata, cbcDecFrom_cbcEncFrom_padBytes,
    apiUnpad_of_some (unpadBytes_padBytes (by decide) (by decide) d), settle]

/-- Settles O44: what CBCENC released is the chained message, in a state that still carries its key and IV. -/
theorem cbcdecUndoesCbcenc : Obligations.CbcdecUndoesCbcenc := by
  intro s t k iv hk hl hiv h ht
  rw [exec_cbcenc (by omega) hk hl hiv] at ht
  cases ht
  exact exec_cbcdec_of_cbcEncFrom h (writeOut_OUT s.mem _) hk hl hiv

end Sys2Proof.Machine
end

section
/-! SUPPORT. Counter mode (43_ctr.md R176 to R183): the bound on a call, the counter field, the keystream, CTRXFRM as a
command for every width and wrap policy, and the obligations about them. -/

namespace Sys2Proof.Machine

/-! ### The bound on a call -/

theorem nchunks_le_iff {len n : Nat} : nchunks len ≤ n ↔ len ≤ 16 * n := by
  rw [← Nat.not_lt, lt_nchunks_iff, Nat.not_lt]

theorem counterOverflows_iff_nchunks {len : Nat} : counterOverflows len = true ↔ nchunks len > 2 ^ 32 :=
  decide_eq_true_iff

theorem counterOverflows_iff_length {len : Nat} : counterOverflows len = true ↔ len > 2 ^ 36 :=
  counterOverflows_iff_nchunks.trans lt_nchunks_iff

theorem counterOverflows_eq_false {len : Nat} (h : nchunks len ≤ 2 ^ 32) : counterOverflows len = false :=
  decide_eq_false (Nat.not_lt.2 h)

theorem counterPassesTop_iff {W : CtrFieldBits} {c0 len : Nat} :
    counterPassesTop W c0 len = true ↔ c0 + nchunks len > 2 ^ W.bits := decide_eq_true_iff

/-- Settles O48: the test compares the count of chunks, and a buffer has a chunk of index 2^32 exactly when it has a byte
at offset `16 * 2^32`. -/
theorem counterOverflowIsMoreThanTwoToTheThirtySixBytes :
    Obligations.CounterOverflowIsMoreThanTwoToTheThirtySixBytes :=
  fun _ => ⟨counterOverflows_iff_nchunks, counterOverflows_iff_length⟩

/-! ### The counter field -/

/-- The bytes of the field hold exactly its width. -/
theorem pow_bytes_eq_pow_bits (W : CtrFieldBits) : 256 ^ W.bytes = 2 ^ W.bits := by
  cases W <;> rfl

theorem bytes_le (W : CtrFieldBits) : W.bytes ≤ 16 := by
  cases W <;> decide

theorem intBe_lt (b : Bytes) : intBe b < 256 ^ b.length := by
  induction b using List.reverseRecOn with
  | nil => simp [intBe]
  | append_singleton b x ih =>
    have hx : x.toNat < 256 := x.isLt
    rw [intBe_append, List.length_append, List.length_singleton, Nat.pow_succ]
    omega

theorem counterField_lt (W : CtrFieldBits) (cb : Block) : counterField W cb < 2 ^ W.bits := by
  have hlen : (memRead cb.toList (16 - W.bytes) W.bytes).length = W.bytes := by
    have := bytes_le W
    rw [length_memRead, Vector.length_toList]
    omega
  rw [← pow_bytes_eq_pow_bits]
  exact (intBe_lt _).trans_eq (by rw [hlen])

/-- A counter block put together from leading bytes and a value of the field. -/
theorem counterField_blockOf {W : CtrFieldBits} {p : Bytes} (hp : p.length = 16 - W.bytes) (v : Nat) :
    counterField W (blockOf (p ++ be W.bytes v)) = v % 2 ^ W.bits := by
  have hlen : (p ++ be W.bytes v).length = 16 := by
    have := bytes_le W
    rw [List.length_append, length_be]
    omega
  rw [counterField, toList_blockOf hlen, memRead_append_right hp (length_be _ v), intBe_be, pow_bytes_eq_pow_bits]

theorem length_counterPrefix (W : CtrFieldBits) (cb : Block) :
    (memRead cb.toList 0 (16 - W.bytes)).length = 16 - W.bytes := by
  simp

theorem counterField_inc (W : CtrFieldBits) (cb : Block) :
    counterField W (inc W cb) = (counterField W cb + 1) % 2 ^ W.bits := by
  rw [inc, counterField_blockOf (length_counterPrefix W cb), Nat.mod_mod]

theorem getElem_inc_of_lt {W : CtrFieldBits} (cb : Block) {m : Nat} (hm : m < 16) (h : m < 16 - W.bytes) :
    (inc W cb)[m] = cb[m] := by
  rw [inc, getElem_blockOf _ m hm, List.getD_append _ _ _ _ (by rwa [length_counterPrefix]), memRead_zero,
    List.getD_eq_getElem?_getD, List.getElem?_take_of_lt h]
  simp [hm]

theorem counterField_incN (W : CtrFieldBits) (j : Nat) (cb : Block) :
    counterField W (incN W j cb) = (counterField W cb + j) % 2 ^ W.bits := by
  induction j generalizing cb with
  | zero => exact (Nat.mod_eq_of_lt (counterField_lt W cb)).symm
  | succ j ih => rw [incN, ih, counterField_inc, Nat.mod_add_mod, Nat.add_assoc, Nat.add_comm 1 j]

theorem getElem_incN_of_lt {W : CtrFieldBits} (j : Nat) (cb : Block) {m : Nat} (hm : m < 16) (h : m < 16 - W.bytes) :
    (incN W j cb)[m] = cb[m] := by
  induction j generalizing cb with
  | zero => rfl
  | succ j ih => rw [incN, ih, getElem_inc_of_lt cb hm h]

/-- Settles O45: each increment adds 1 to the field modulo 2^W and copies the bytes before it. -/
theorem counterBlockOfChunkInClosedForm : Obligations.CounterBlockOfChunkInClosedForm :=
  fun W cb j => ⟨counterField_incN W j cb, fun m => getElem_incN_of_lt j cb m.isLt⟩

/-! ### The keystream -/

/-- The keystream of `n` chunks from the counter block `cb` on, whole blocks (43_ctr.md R179). -/
def keystream (W : CtrFieldBits) (rk : Schedule) : Nat → Block → Bytes
  | 0, _ => []
  | n + 1, cb => (cipher rk cb).toList ++ keystream W rk n (inc W cb)

@[simp] theorem length_keystream (W : CtrFieldBits) (rk : Schedule) (n : Nat) (cb : Block) :
    (keystream W rk n cb).length = 16 * n := by
  induction n generalizing cb with
  | zero => rfl
  | succ n ih =>
    rw [keystream, List.length_append, Vector.length_toList, ih]
    omega

/-- A mask in two parts: the second meets the bytes after those that the first covers. -/
theorem xorBytes_append_right (a b c : Bytes) :
    xorBytes a (b ++ c) = xorBytes (a.take b.length) b ++ xorBytes (a.drop b.length) c := by
  rw [← List.take_append_drop b.length (xorBytes a (b ++ c)), xorBytes, List.take_zipWith, List.drop_zipWith,
    List.take_left, List.drop_left]
  rfl

/-- Counter mode over the chunks of a buffer masks its bytes with the keystream of as many chunks. -/
theorem ctrFrom_chunks (W : CtrFieldBits) (rk : Schedule) (cb : Block) (d : Bytes) :
    ctrFrom W rk cb (chunks d) = xorBytes d (keystream W rk (nchunks d.length) cb) := by
  by_cases h : d = []
  · subst h
    rfl
  · have hpos : 0 < d.length := List.length_pos_iff.2 h
    have hcount : nchunks d.length = nchunks (d.drop 16).length + 1 := by
      rw [← length_chunks, chunks_cons h, List.length_cons, length_chunks]
    rw [chunks_cons h, ctrFrom, ctrFrom_chunks W rk _ (d.drop 16), hcount, keystream, xorBytes_append_right,
      Vector.length_toList]
termination_by d.length
decreasing_by
  rw [List.length_drop]
  omega

theorem le_mul_nchunks (len : Nat) : len ≤ 16 * nchunks len := nchunks_le_iff.1 le_rfl

@[simp] theorem length_ctrFrom_chunks (W : CtrFieldBits) (rk : Schedule) (cb : Block) (d : Bytes) :
    (ctrFrom W rk cb (chunks d)).length = d.length := by
  rw [ctrFrom_chunks, length_xorBytes, length_keystream, Nat.min_eq_left (le_mul_nchunks d.length)]

/-- Counter mode is its own inverse: what it answers has the length of the data, so it meets the same keystream. -/
theorem ctrFrom_chunks_ctrFrom_chunks (W : CtrFieldBits) (rk : Schedule) (cb : Block) (d : Bytes) :
    ctrFrom W rk cb (chunks (ctrFrom W rk cb (chunks d))) = d := by
  rw [ctrFrom_chunks W rk cb (ctrFrom W rk cb (chunks d)), length_ctrFrom_chunks, ctrFrom_chunks]
  exact xorBytes_cancel (by rw [length_keystream]; exact le_mul_nchunks d.length)

/-! ### CTRXFRM -/

section
variable {W : CtrFieldBits} {policy : WrapPolicy} {s : State} {k : Bytes} {cb : Block}

theorem execCtrxfrmWith_of_yields {r : CallResult} (h : s.mem.DATA.length ≤ 2 ^ 61 - 1)
    (hr : (runStages (ctrxfrmOp W policy).stages (begin s)).Yields resultRbuf r) :
    execCtrxfrmWith W policy s = conclude r s :=
  runOperation_of_yieldsWith (i := .ctrxfrm) (all_fits_pKey_pA_data h) hr

theorem execCtrxfrmWith_of_key_length_ne (h : s.mem.DATA.length ≤ 2 ^ 61 - 1) (hk : s.P_KEY = some k)
    (hl : k.length ≠ 16) : execCtrxfrmWith W policy s = .next (enterError .invalidKeyLength s) :=
  execCtrxfrmWith_of_yields (r := .error _) h (yields_raise (checkKey_raise hk hl))

theorem startField_of_pA (h : s.P_A = some cb) : startField W s = .val (counterField W cb) := by
  rw [startField, h, need_some, Res.bind_val]

variable (h : s.mem.DATA.length ≤ 2 ^ 61 - 1) (hk : s.P_KEY = some k) (hl : k.length = 16)
include h hk hl

/-- Past the key test, CTRXFRM ends as its other stages yield, which begin with the count. -/
theorem execCtrxfrmWith_of_yields_tail {r : CallResult}
    (hr : (runStages (ctrxfrmOp W policy).stages.tail (enterPhase .keychk (begin s))).Yields resultRbuf r) :
    execCtrxfrmWith W policy s = conclude r s :=
  execCtrxfrmWith_of_yields h (yields_act (checkKey_eq_val.2 ⟨k, hk, hl, rfl⟩) hr)

theorem execCtrxfrmWith_of_counterOverflows (ho : counterOverflows s.mem.DATA.length = true) :
    execCtrxfrmWith W policy s = .next (enterError .counterOverflow s) :=
  execCtrxfrmWith_of_yields_tail (r := .error _) h hk hl (yields_raise (checkCount_raise ho))

theorem execCtrxfrmWith_refused (ho : nchunks s.mem.DATA.length ≤ 2 ^ 32) (hcb : s.P_A = some cb)
    (hw : counterField W cb + nchunks s.mem.DATA.length > 2 ^ W.bits) :
    execCtrxfrmWith W .refuse s = .refused .counterWraps :=
  execCtrxfrmWith_of_yields_tail (r := .refused _) h hk hl <|
    yields_refused (checkCount_refused (counterOverflows_eq_false ho) (startField_of_pA hcb) (counterPassesTop_iff.2 hw))

theorem execCtrxfrmWith_released (ho : nchunks s.mem.DATA.length ≤ 2 ^ 32) (hcb : s.P_A = some cb)
    (hw : policy = .wrap ∨ counterField W cb + nchunks s.mem.DATA.length ≤ 2 ^ W.bits) :
    execCtrxfrmWith W policy s = .next (release (ctrFrom W (keyExpand (blockOf k)) cb (chunks s.mem.DATA)) s) := by
  refine execCtrxfrmWith_of_yields_tail (r := .ok _) h hk hl (yields_act (checkCount_eq_val.2
    ⟨counterOverflows_eq_false ho, fun hrefuse => ⟨counterField W cb, startField_of_pA hcb, ?_⟩, rfl⟩) ?_)
  · have hle := hw.resolve_left (by rw [hrefuse]; decide)
    exact decide_eq_false (Nat.not_lt.2 hle)
  · refine yields_act (expandKey_eq_val.2 ⟨k, hk, hl, rfl⟩) <|
      yields_act (Res.bind_eq_val.2 ⟨cb, need_eq_val.2 hcb, rfl⟩) ?_
    exact yields_ctrChunks _ _ cb [] rfl rfl rfl rfl fun _ _ _ => yields_end rfl

end

/-- Settles O29: the count stage alone looks at the width and the policy; the chunk loop is counter mode for any width. -/
theorem ctrxfrmForEveryWidthAndWrapPolicy : Obligations.CtrxfrmForEveryWidthAndWrapPolicy := by
  refine fun W policy s k hk h =>
    ⟨execCtrxfrmWith_of_key_length_ne h hk, fun hl ho => ?overflow, fun hl ho cb hcb => ⟨?refused, ?released⟩⟩
  case overflow => exact execCtrxfrmWith_of_counterOverflows h hk hl (counterOverflows_iff_nchunks.2 ho)
  case refused =>
    rintro rfl hw
    exact execCtrxfrmWith_refused h hk hl ho hcb hw
  case released => exact execCtrxfrmWith_released h hk hl ho hcb

theorem exec_ctrxfrm {s : State} {k : Bytes} {cb : Block} (h : s.mem.DATA.length ≤ 2 ^ 36) (hk : s.P_KEY = some k)
    (hl : k.length = 16) (hcb : s.P_A = some cb) :
    exec .ctrxfrm s = .next (release (ctrFrom .w32 (keyExpand (blockOf k)) cb (chunks s.mem.DATA)) s) :=
  execCtrxfrmWith_released (policy := .wrap) (by omega) hk hl (nchunks_le_iff.2 h) hcb (.inl rfl)

/-- Settles O28: the width 32 and the policy wrap of the meaning for all of them. -/
theorem ctrxfrmXorsTheKeystream : Obligations.CtrxfrmXorsTheKeystream := by
  refine ⟨rfl, fun s k hk h => ⟨?keyLength, fun hl ho => ?overflow, fun hl hle cb hcb => ⟨?released, ?length⟩⟩⟩
  case keyLength => exact execCtrxfrmWith_of_key_length_ne h hk
  case overflow => exact execCtrxfrmWith_of_counterOverflows h hk hl (counterOverflows_iff_length.2 ho)
  case released => exact exec_ctrxfrm hle hk hl hcb
  case length => exact length_ctrFrom_chunks _ _ cb s.mem.DATA

theorem exec_ctrxfrm_of_ctrFrom {s : State} {k d : Bytes} {cb : Block} (hd : d.length ≤ 2 ^ 36)
    (hdata : s.mem.DATA = ctrFrom .w32 (keyExpand (blockOf k)) cb (chunks d)) (hk : s.P_KEY = some k)
    (hl : k.length = 16) (hcb : s.P_A = some cb) : exec .ctrxfrm s = .next (release d s) := by
  have hlen : s.mem.DATA.length = d.length := hdata ▸ length_ctrFrom_chunks _ _ cb d
  rw [exec_ctrxfrm (hlen ▸ hd) hk hl hcb, hdata, ctrFrom_chunks_ctrFrom_chunks]

/-- Settles O46: what CTRXFRM released is the masked data, in a state that still carries its key and start block. -/
theorem ctrxfrmIsItsOwnInverse : Obligations.CtrxfrmIsItsOwnInverse := by
  intro s t k cb hk hl hcb h ht
  rw [exec_ctrxfrm h hk hl hcb] at ht
  cases ht
  exact exec_ctrxfrm_of_ctrFrom h (writeOut_OUT s.mem _) hk hl hcb

end Sys2Proof.Machine
end

section
/-! SUPPORT. The counter blocks of GCM (45_gcm.md R217, R218, R221): the start blocks as counter blocks, the stages of
GCMENC and GCMDEC up to the count, and the obligation that no data counter block is `J0`. -/

namespace Sys2Proof.Machine

/-! ### The start blocks -/

section
variable {n : Bytes} (h : n.length = 12)
include h

@[simp] theorem counterField_j0Of : counterField .w32 (j0Of n) = 1 := counterField_blockOf h 1

@[simp] theorem counterField_firstCounterOf : counterField .w32 (firstCounterOf n) = 2 := counterField_blockOf h 2

/-- The field of the data counter blocks runs from 2 to the top, and that of `J0` is 1. -/
theorem incN_firstCounterOf_ne_j0Of {j : Nat} (hj : j < 2 ^ 32 - 2) : incN .w32 j (firstCounterOf n) ≠ j0Of n := by
  intro heq
  have hfield : (2 + j) % 2 ^ 32 = 1 := by
    rw [← counterField_j0Of h, ← heq, counterField_incN, counterField_firstCounterOf h]
    rfl
  omega

end

/-! ### The stages up to the count -/

/-- What GCM asks of the state before anything else: a key and a nonce of the right lengths, and buffers of legal length
(45_gcm.md R216). -/
structure GcmReady (s : State) (k n : Bytes) : Prop where
  key : s.P_KEY = some k
  nonce : s.P_NONCE = some n
  keyLength : k.length = 16
  nonceLength : n.length = 12
  aad : s.mem.AAD.length ≤ 2 ^ 61 - 1
  data : s.mem.DATA.length ≤ 2 ^ 61 - 1

theorem GcmReady.all_fits {s : State} {k n : Bytes} (h : GcmReady s k n) :
    [Slot.pKey, .pNonce, .aad, .data].all (fits s) = true := by
  simpa [fits, Config.maxLenBytes] using ⟨h.aad, h.data⟩

/-- The state `u` that the stages shared by TAGGEN, GCMENC and GCMDEC reach from `s`: the schedule, the subkey and `J0`
are there, and the buffers, the nonce and the bytes in `PBUF` are those of `s`. -/
structure GcmKeyed (s u : State) (rk : Schedule) (n : Bytes) : Prop where
  aad : u.mem.AAD = s.mem.AAD
  data : u.mem.DATA = s.mem.DATA
  nonce : u.P_NONCE = s.P_NONCE
  pbuf : u.PBUF = s.PBUF
  schedule : u.RK = some rk
  subkey : u.H = some (hashSubkey rk)
  j0 : u.J0 = some (j0Of n)

/-- The stages that TAGGEN, GCMENC and GCMDEC share: the checks, the schedule, the subkey and `J0`. -/
theorem yields_gcmKeyStages {o : State → Res Bytes} {r : CallResult} {p : Phase} {gs : List Stage} {s : State}
    {k n : Bytes} (hk : s.P_KEY = some k) (hl : k.length = 16) (hn : s.P_NONCE = some n) (hnl : n.length = 12)
    (ht : ∀ u, GcmKeyed s u (keyExpand (blockOf k)) n → (runStages gs u).Yields o r) :
    (runStages (stageKeyCheck :: stageNonceCheck :: stageKeyExpand :: .act .subkey deriveSubkey :: .act p loadJ0 :: gs)
      s).Yields o r := by
  refine yields_act (checkKey_eq_val.2 ⟨k, hk, hl, rfl⟩) (yields_act (checkNonce_eq_val.2 ⟨n, hn, hnl, rfl⟩) ?_)
  refine yields_act (expandKey_eq_val.2 ⟨k, hk, hl, rfl⟩) (yields_act (deriveSubkey_eq_val.2 ⟨_, rfl, rfl⟩) ?_)
  exact yields_act (loadJ0_eq_val.2 ⟨n, hn, rfl⟩) (ht _ ⟨rfl, rfl, rfl, rfl, rfl, rfl, rfl⟩)

/-! ### The count of GCM -/

section
variable {s : State} {k n : Bytes}

/-- The field starts at 2, so under `refuse` the last two counts that do not overflow have no meaning. -/
theorem checkCount_gcm_refused {len : Nat} (hwrap : nchunks len > 2 ^ 32 - 2) (hle : nchunks len ≤ 2 ^ 32) :
    checkCount .w32 .refuse gcmFirstCounter len s = .refused .counterWraps := by
  have htop : 2 + nchunks len > 2 ^ 32 := by omega
  exact checkCount_refused (counterOverflows_eq_false hle) rfl (counterPassesTop_iff.2 htop)

/-- Past the shared stages, GCMENC ends as its stages from the count on yield. -/
theorem execGcmencWith_of_yields {policy : WrapPolicy} {r : CallResult} (h : GcmReady s k n)
    (ht : ∀ u, GcmKeyed (begin s) u (keyExpand (blockOf k)) n →
      (runStages ((gcmencOp policy).stages.drop 5) u).Yields (gcmencOp policy).result r) :
    execGcmencWith policy s = conclude r s :=
  runOperation_of_yieldsWith (W := .w32) (i := .gcmenc) h.all_fits
    (yields_gcmKeyStages h.key h.keyLength h.nonce h.nonceLength ht)

theorem execGcmencWith_refused (h : GcmReady s k n) (hwrap : nchunks s.mem.DATA.length > 2 ^ 32 - 2)
    (hle : nchunks s.mem.DATA.length ≤ 2 ^ 32) : execGcmencWith .refuse s = .refused .counterWraps :=
  execGcmencWith_of_yields (r := .refused _) h fun u hu => yields_refused (by
    rw [enterPhase_mem, hu.data]
    exact checkCount_gcm_refused hwrap hle)

theorem execGcmencWith_of_counterOverflows {policy : WrapPolicy} (h : GcmReady s k n)
    (ho : counterOverflows s.mem.DATA.length = true) :
    execGcmencWith policy s = .next (enterError .counterOverflow s) :=
  execGcmencWith_of_yields (r := .error _) h fun u hu => yields_raise (by
    rw [enterPhase_mem, hu.data]
    exact checkCount_raise ho)

/-! ### GCMDEC up to the count -/

/-- The state `u` that GCMDEC of the command in `s` reaches with the tag computed over the ciphertext part. -/
structure GcmTagged (s u : State) (rk : Schedule) (n : Bytes) : Prop where
  data : u.mem.DATA = s.mem.DATA
  nonce : u.P_NONCE = s.P_NONCE
  pbuf : u.PBUF = some (ciphertextPart s.mem.DATA)
  schedule : u.RK = some rk
  tag : u.TAG = some (gcmTag rk n s.mem.AAD (ciphertextPart s.mem.DATA))

/-- On an input that holds a tag, GCMDEC ends as its stages from the comparison on yield. -/
theorem execGcmdecWith_of_yields {policy : WrapPolicy} {r : CallResult} (h : GcmReady s k n)
    (hlen : 16 ≤ s.mem.DATA.length)
    (ht : ∀ u, GcmTagged s u (keyExpand (blockOf k)) n →
      (runStages ((gcmdecOp policy).stages.drop 12) u).Yields resultRbuf r) :
    execGcmdecWith policy s = conclude r s := by
  refine runOperation_of_yieldsWith (W := .w32) (i := .gcmdec) h.all_fits <|
    yields_act (splitInput_eq_val.2 ⟨Nat.not_lt.2 hlen, rfl⟩) <|
    yields_gcmKeyStages h.key h.keyLength h.nonce h.nonceLength fun u hu => ?_
  have haad : u.mem.AAD = s.mem.AAD := hu.aad
  refine yields_act (computeMask_eq_val.2 ⟨_, _, hu.j0, hu.schedule, rfl⟩) ?_
  refine yields_hashTagStages _ _ _ _ hu.subkey rfl (fun _ _ _ _ _ => need_eq_val.2 hu.pbuf) fun Z V BLK => ht _ ?_
  refine ⟨hu.data, hu.nonce, hu.pbuf, hu.schedule, ?_⟩
  rw [← haad]
  rfl

@[simp] theorem tagDiff_self (a : Block) : tagDiff a a = 0 := by
  simp [tagDiff]

/-- A tag that verifies leaves `DIFF` zero, and the comparison lets the operation go on (45_gcm.md R213). -/
theorem yields_comparison {o : State → Res Bytes} {r : CallResult} {gs : List Stage} {u : State} {rk : Schedule}
    (hu : GcmTagged s u rk n) (htag : tagPart s.mem.DATA = gcmTag rk n s.mem.AAD (ciphertextPart s.mem.DATA))
    (ht : (runStages gs { u with PHASE := .compare, DIFF := some 0 }).Yields o r) :
    (runStages (.act .compare compareReceivedTag :: .act .compare judgeDiff :: gs) u).Yields o r := by
  have hcompare : compareReceivedTag (enterPhase .compare u) = .val { enterPhase .compare u with DIFF := some 0 } := by
    rw [compareReceivedTag, enterPhase_TAG, enterPhase_mem, hu.tag, hu.data, htag, need_some, Res.bind_val, compareTags,
      tagDiff_self]
  exact yields_act hcompare (yields_act (judgeDiff_eq_val.2 ⟨0, rfl, rfl, rfl⟩) ht)

section
variable {policy : WrapPolicy} (h : GcmReady s k n) (hlen : 16 ≤ s.mem.DATA.length)
  (htag : tagPart s.mem.DATA = gcmTag (keyExpand (blockOf k)) n s.mem.AAD (ciphertextPart s.mem.DATA))
include h hlen htag

/-- On an input whose tag verifies, GCMDEC ends as its stages from the count on yield. -/
theorem execGcmdecWith_of_verified {r : CallResult}
    (ht : ∀ u : State, u.P_NONCE = some n → u.PBUF = some (ciphertextPart s.mem.DATA) →
      u.RK = some (keyExpand (blockOf k)) → (runStages ((gcmdecOp policy).stages.drop 14) u).Yields resultRbuf r) :
    execGcmdecWith policy s = conclude r s :=
  execGcmdecWith_of_yields h hlen fun _ hu =>
    yields_comparison hu htag (ht _ (hu.nonce.trans h.nonce) hu.pbuf hu.schedule)

theorem execGcmdecWith_refused (hwrap : nchunks (ciphertextPart s.mem.DATA).length > 2 ^ 32 - 2)
    (hle : nchunks (ciphertextPart s.mem.DATA).length ≤ 2 ^ 32) : execGcmdecWith .refuse s = .refused .counterWraps :=
  execGcmdecWith_of_verified (r := .refused _) h hlen htag fun _ _ hpbuf _ =>
    yields_refused (by rw [resultPbuf, enterPhase_PBUF, hpbuf]; exact checkCount_gcm_refused hwrap hle)

theorem execGcmdecWith_of_counterOverflows (ho : counterOverflows (ciphertextPart s.mem.DATA).length = true) :
    execGcmdecWith policy s = .next (enterError .counterOverflow s) :=
  execGcmdecWith_of_verified (r := .error _) h hlen htag fun _ _ hpbuf _ =>
    yields_raise (by rw [resultPbuf, enterPhase_PBUF, hpbuf]; exact checkCount_raise ho)

end

end

@[simp] theorem ciphertextPart_append_toList (c : Bytes) (t : Block) : ciphertextPart (c ++ t.toList) = c := by
  simp [ciphertextPart, Config.tagBytes]

@[simp] theorem tagPart_append_toList (c : Bytes) (t : Block) : tagPart (c ++ t.toList) = t := by
  have hlen : (c ++ t.toList).length - Config.tagBytes = c.length := by simp [Config.tagBytes]
  rw [tagPart, hlen, memRead_append_right rfl t.length_toList, blockOf_toList]

/-- Settles O55: the field of a data counter stays above that of `J0` up to 2^32 - 2 chunks; beyond, the count stage of
both operations, which every test before it lets the call reach, refuses or raises. -/
theorem dataCountersNeverMeetJ0 : Obligations.DataCountersNeverMeetJ0 := by
  refine ⟨fun n j hnl => incN_firstCounterOf_ne_j0Of hnl, fun s k n hk hn hkl hnl haad hdata => ?_⟩
  have h : GcmReady s k n := ⟨hk, hn, hkl, hnl, haad, hdata⟩
  refine ⟨execGcmencWith_refused h, fun ho policy => ?encOverflow, fun c t hct htag => ?decrypt⟩
  case encOverflow => exact execGcmencWith_of_counterOverflows h (counterOverflows_iff_nchunks.2 ho)
  case decrypt =>
    have hlen : 16 ≤ s.mem.DATA.length := by simp [hct]
    obtain rfl : ciphertextPart s.mem.DATA = c := hct ▸ ciphertextPart_append_toList c t
    have hverified := (congrArg tagPart hct).trans ((tagPart_append_toList _ t).trans htag)
    refine ⟨execGcmdecWith_refused h hlen hverified, fun ho policy => ?_⟩
    exact execGcmdecWith_of_counterOverflows h hlen hverified (counterOverflows_iff_nchunks.2 ho)

end Sys2Proof.Machine
end

section
/-! SUPPORT. GF(2^128) and GHASH (44_gf128_ghash.md R193 to R199): blocks as 128-bit strings, the multiplier's loop as a
map that commutes with multiplication by x, the laws of the product, GHASH as a fold that is linear in its blocks, and
the obligations about them. -/

namespace Sys2Proof.Machine

/-! ### Blocks as bit strings -/

/-- Bit `i` of a big-endian integer, from the least significant: bytes are counted from the end of the string. -/
theorem testBit_intBe (b : Bytes) (i : Nat) : (intBe b).testBit i = (b.reverse.getD (i / 8) 0).getLsbD (i % 8) := by
  induction b using List.reverseRecOn generalizing i with
  | nil => simp [intBe]
  | append_singleton b x ih =>
    rw [intBe_append, Nat.testBit_two_pow_mul_add (i := 8) (intBe b) x.isLt, List.reverse_concat]
    split
    case isTrue h => simp [Nat.div_eq_of_lt h, Nat.mod_eq_of_lt h, BitVec.getLsbD]
    case isFalse h =>
      have hdiv : i / 8 = (i - 8) / 8 + 1 := by omega
      have hmod : (i - 8) % 8 = i % 8 := by omega
      rw [ih, hdiv, hmod, List.getD_cons_succ]

/-- Bit `i` of a block, from the least significant, lies in byte `15 - i / 8`. -/
theorem getLsbD_toBits (b : Block) {i : Nat} (h : i < 128) : (toBits b).getLsbD i = b[15 - i / 8].getLsbD (i % 8) := by
  have hbyte : i / 8 < b.toList.length := by rw [Vector.length_toList]; omega
  rw [toBits, BitVec.getLsbD_ofNat, testBit_intBe, List.getD_eq_getElem _ _ (by rwa [List.length_reverse])]
  simp [h]

theorem getLsbD_ofBits (x : BitVec 128) {k m : Nat} (hk : k < 16) (hm : m < 8) :
    (ofBits x)[k].getLsbD m = x.getLsbD (8 * (15 - k) + m) := by
  simp [ofBits, hm]

@[simp] theorem ofBits_toBits (b : Block) : ofBits (toBits b) = b := by
  ext k hk m hm
  have hbyte : 15 - (8 * (15 - k) + m) / 8 = k := by omega
  have hbit : (8 * (15 - k) + m) % 8 = m := by omega
  simp only [← BitVec.getLsbD_eq_getElem]
  rw [getLsbD_ofBits _ hk hm, getLsbD_toBits b (by omega)]
  simp only [hbyte, hbit]

@[simp] theorem toBits_ofBits (x : BitVec 128) : toBits (ofBits x) = x := by
  apply BitVec.eq_of_getLsbD_eq
  intro i hi
  rw [getLsbD_toBits _ hi, getLsbD_ofBits x (by omega) (by omega)]
  congr 1
  omega

theorem toBits_injective : Function.Injective toBits := Function.LeftInverse.injective ofBits_toBits

@[simp] theorem toBits_xorVec (a b : Block) : toBits (xorVec a b) = toBits a ^^^ toBits b := by
  apply BitVec.eq_of_getLsbD_eq
  intro i hi
  simp only [BitVec.getLsbD_xor, getLsbD_toBits _ hi, getElem_xorVec]

theorem toBits_zeroBlock : toBits zeroBlock = 0 := rfl

/-- `80 00 ... 00` is the string whose first bit alone is set. -/
theorem toBits_blockOf_0x80 : toBits (blockOf [0x80]) = BitVec.twoPow 128 127 := by decide

/-! ### Multiplication by x -/

/-- Multiplication by x adds the reduction constant where the bit shifted out was set. -/
theorem mulX_eq_xor (v : BitVec 128) : mulX v = (v >>> 1) ^^^ (if v.getLsbD 0 then reductionR else 0) := by
  unfold mulX
  split <;> simp

@[simp] theorem mulX_xor (v w : BitVec 128) : mulX (v ^^^ w) = mulX v ^^^ mulX w := by
  have hreduce : (if (v ^^^ w).getLsbD 0 then reductionR else 0) =
      (if v.getLsbD 0 then reductionR else 0) ^^^ (if w.getLsbD 0 then reductionR else 0) := by
    rw [BitVec.getLsbD_xor]
    cases v.getLsbD 0 <;> cases w.getLsbD 0 <;> simp
  rw [mulX_eq_xor, hreduce, BitVec.ushiftRight_xor_distrib, mulX_eq_xor, mulX_eq_xor]
  ac_rfl

/-- Up to the last bit, multiplication by x moves the one bit set to the right without reduction. -/
theorem mulX_twoPow_succ {i : Nat} (h : i < 127) : mulX (BitVec.twoPow 128 (i + 1)) = BitVec.twoPow 128 i := by
  have hlow : (BitVec.twoPow 128 (i + 1)).getLsbD 0 = false := by simp
  rw [mulX, hlow, if_neg Bool.false_ne_true]
  ext j hj
  have hi : i + 1 < 128 := by omega
  simp [hi, Nat.add_comm 1 j, eq_comm]

/-! ### The multiplier's loop -/

/-- `GfMul` on bit strings: the register `Z` of the loop (R193). -/
def gfProduct (x y : BitVec 128) : BitVec 128 := (gfMulFrom x 128 0 0 y).1

@[simp] theorem toBits_gfMul (X Y : Block) : toBits (gfMul X Y) = gfProduct (toBits X) (toBits Y) := toBits_ofBits _

/-- A map of bit strings that adds up over `⊕` and commutes with multiplication by x. -/
structure CommutesWithX (f : BitVec 128 → BitVec 128) : Prop where
  xor : ∀ v w, f (v ^^^ w) = f v ^^^ f w
  mulX : ∀ v, f (mulX v) = mulX (f v)

/-- Such a map passes through the loop: each step adds `v` into `z` or does not, and multiplies `v` by x. -/
theorem CommutesWithX.map_gfMulFrom {f : BitVec 128 → BitVec 128} (hf : CommutesWithX f) (x : BitVec 128) (n i : Nat)
    (z v : BitVec 128) : f (gfMulFrom x n i z v).1 = (gfMulFrom x n i (f z) (f v)).1 := by
  induction n generalizing i z v with
  | zero => rfl
  | succ n ih => rw [gfMulFrom, gfMulFrom, ih, hf.mulX, apply_ite f, hf.xor]

theorem gfMulFrom_xor (x : BitVec 128) (n i : Nat) (z z' v v' : BitVec 128) :
    (gfMulFrom x n i (z ^^^ z') (v ^^^ v')).1 = (gfMulFrom x n i z v).1 ^^^ (gfMulFrom x n i z' v').1 := by
  induction n generalizing i z z' v v' with
  | zero => rfl
  | succ n ih =>
    have hstep : (z ^^^ z') ^^^ (v ^^^ v') = (z ^^^ v) ^^^ (z' ^^^ v') := by ac_rfl
    rw [gfMulFrom, gfMulFrom, gfMulFrom, mulX_xor, ← ih, hstep]
    split <;> rfl

theorem commutesWithX_mulX : CommutesWithX mulX := ⟨mulX_xor, fun _ => rfl⟩

/-- Such a map passes through the product by `x`, which is a sum of multiples of its argument by powers of x. -/
theorem CommutesWithX.map_gfProduct {f : BitVec 128 → BitVec 128} (hf : CommutesWithX f) (x y : BitVec 128) :
    f (gfProduct x y) = gfProduct x (f y) := by
  have hzero : f 0 = 0 := by simpa using hf.xor 0 0
  rw [gfProduct, hf.map_gfMulFrom, hzero, gfProduct]

theorem commutesWithX_gfProduct (x : BitVec 128) : CommutesWithX (gfProduct x) where
  xor := gfMulFrom_xor x 128 0 0 0
  mulX v := (commutesWithX_mulX.map_gfProduct x v).symm

/-! ### The identity -/

/-- The low `n + 1` bits of a string: bit `n`, then the low `n`. -/
theorem setWidth_succ_eq_xor (x : BitVec 128) (n : Nat) :
    (x.setWidth (n + 1)).setWidth 128 =
      (if x.getLsbD n then BitVec.twoPow 128 n else 0) ^^^ (x.setWidth n).setWidth 128 := by
  cases h : x.getLsbD n
  · rw [BitVec.setWidth_setWidth_succ_eq_setWidth_setWidth_of_getLsbD_false h]
    simp
  · rw [BitVec.setWidth_setWidth_succ_eq_setWidth_setWidth_or_twoPow_of_getLsbD_true h]
    ext i hi
    by_cases hin : i = n <;> simp [hin]

/-- One step of the loop, `n` steps before its end: the bit of `x` that it looks at is bit `n`. -/
theorem gfMulFrom_succ (x : BitVec 128) {n i : Nat} (h : n + i = 127) (z v : BitVec 128) :
    gfMulFrom x (n + 1) i z v = gfMulFrom x n (i + 1) (z ^^^ if x.getLsbD n then v else 0) (mulX v) := by
  have hbit : x.getMsbD i = x.getLsbD n := by
    have hi : 128 - 1 - i = n := by omega
    rw [BitVec.getMsbD_eq_getLsbD, hi, decide_eq_true (by omega), Bool.true_and]
  rw [gfMulFrom, hbit]
  split <;> simp

/-- With `n + 1` steps to go from the string whose bit `n` alone is set, the loop adds the low `n + 1` bits of `x`. -/
theorem gfMulFrom_twoPow (x : BitVec 128) {n i : Nat} (h : n + i = 127) (z : BitVec 128) :
    (gfMulFrom x (n + 1) i z (BitVec.twoPow 128 n)).1 = z ^^^ (x.setWidth (n + 1)).setWidth 128 := by
  rw [gfMulFrom_succ x h, setWidth_succ_eq_xor, ← BitVec.xor_assoc]
  induction n generalizing i z with
  | zero => simp [gfMulFrom, BitVec.of_length_zero (x := x.setWidth 0)]
  | succ n ih =>
    have hnext : n + (i + 1) = 127 := by omega
    rw [mulX_twoPow_succ (by omega), gfMulFrom_succ x hnext, ih hnext, setWidth_succ_eq_xor x n]
    ac_rfl

/-! ### The laws of the product -/

theorem gfProduct_twoPow (x : BitVec 128) : gfProduct x (BitVec.twoPow 128 127) = x := by
  rw [gfProduct, gfMulFrom_twoPow x rfl]
  simp

theorem gfProduct_xor (x y z : BitVec 128) : gfProduct x (y ^^^ z) = gfProduct x y ^^^ gfProduct x z :=
  (commutesWithX_gfProduct x).xor y z

/-- Products by `y` and by `x` commute, and each is the product with the identity. -/
theorem gfProduct_comm (x y : BitVec 128) : gfProduct x y = gfProduct y x := by
  calc gfProduct x y = gfProduct x (gfProduct y (BitVec.twoPow 128 127)) := by rw [gfProduct_twoPow]
    _ = gfProduct y (gfProduct x (BitVec.twoPow 128 127)) := (commutesWithX_gfProduct x).map_gfProduct y _
    _ = gfProduct y x := by rw [gfProduct_twoPow]

theorem gfProduct_assoc (x y z : BitVec 128) : gfProduct (gfProduct x y) z = gfProduct x (gfProduct y z) := by
  calc gfProduct (gfProduct x y) z = gfProduct z (gfProduct x y) := gfProduct_comm _ z
    _ = gfProduct x (gfProduct z y) := (commutesWithX_gfProduct z).map_gfProduct x y
    _ = gfProduct x (gfProduct y z) := by rw [gfProduct_comm z]

theorem gfProduct_zero (x : BitVec 128) : gfProduct x 0 = 0 := by
  simpa using gfProduct_xor x 0 0

theorem gfMul_comm (X Y : Block) : gfMul X Y = gfMul Y X :=
  toBits_injective (by simp only [toBits_gfMul, gfProduct_comm])

theorem gfMul_zeroBlock (X : Block) : gfMul X zeroBlock = zeroBlock :=
  toBits_injective (by rw [toBits_gfMul, toBits_zeroBlock, gfProduct_zero])

theorem gfMul_blockOf_0x80 (X : Block) : gfMul X (blockOf [0x80]) = X :=
  toBits_injective (by rw [toBits_gfMul, toBits_blockOf_0x80, gfProduct_twoPow])

/-- Settles O50: laws of the product of bit strings, carried to blocks. -/
theorem gfMulAbsorbsZeroAndCommutes : Obligations.GfMulAbsorbsZeroAndCommutes := fun X Y =>
  ⟨gfMul_zeroBlock X, (gfMul_comm zeroBlock X).trans (gfMul_zeroBlock X), gfMul_comm X Y, gfMul_blockOf_0x80 X⟩

theorem gfMul_assoc (X Y Z : Block) : gfMul (gfMul X Y) Z = gfMul X (gfMul Y Z) :=
  toBits_injective (by simp only [toBits_gfMul, gfProduct_assoc])

theorem gfMul_xorVec (X Y Z : Block) : gfMul X (xorVec Y Z) = xorVec (gfMul X Y) (gfMul X Z) :=
  toBits_injective (by simp only [toBits_gfMul, toBits_xorVec, gfProduct_xor])

/-- Settles O51: the product by a block adds up over `⊕` and commutes with multiplication by x, so it passes through a
second product. -/
theorem gfMulIsAssociativeAndDistributes : Obligations.GfMulIsAssociativeAndDistributes := fun X Y Z =>
  ⟨gfMul_assoc X Y Z, gfMul_xorVec X Y Z⟩

theorem xorVec_gfMul (X Y H : Block) : gfMul (xorVec X Y) H = xorVec (gfMul X H) (gfMul Y H) := by
  rw [gfMul_comm, gfMul_xorVec, gfMul_comm H, gfMul_comm H]

/-! ### GHASH is linear in its blocks -/

@[simp] theorem xorVec_zeroBlock (b : Block) : xorVec b zeroBlock = b := by
  ext i h
  simp

theorem xorVec_xorVec_xorVec_comm (a b c d : Block) :
    xorVec (xorVec a b) (xorVec c d) = xorVec (xorVec a c) (xorVec b d) := by
  rw [xorVec_assoc, ← xorVec_assoc b, xorVec_comm b c, xorVec_assoc c, ← xorVec_assoc]

theorem xorVec_self (b : Block) : xorVec b b = zeroBlock := by
  ext i h
  simp

theorem getD_xorBytes {a b : Bytes} (h : b.length = a.length) (i : Nat) :
    (xorBytes a b).getD i 0 = a.getD i 0 ^^^ b.getD i 0 := by
  by_cases hi : i < a.length
  · have hib : i < b.length := h ▸ hi
    have hix : i < (xorBytes a b).length := by rw [length_xorBytes, h, Nat.min_self]; exact hi
    rw [List.getD_eq_getElem _ _ hix, List.getD_eq_getElem _ _ hi, List.getD_eq_getElem _ _ hib]
    simp [xorBytes]
  · have hle : a.length ≤ i := Nat.le_of_not_lt hi
    rw [List.getD_eq_default _ _ (by simp [h, hle]), List.getD_eq_default _ _ hle, List.getD_eq_default _ _ (h ▸ hle)]
    rfl

theorem blockOf_xorBytes {a b : Bytes} (h : b.length = a.length) :
    blockOf (xorBytes a b) = xorVec (blockOf a) (blockOf b) := by
  ext1 i hi
  rw [getElem_blockOf _ i hi, getElem_xorVec, getElem_blockOf _ i hi, getElem_blockOf _ i hi, getD_xorBytes h]

theorem xorBytes_replicate_zero (a : Bytes) : xorBytes a (List.replicate a.length 0) = a := by
  apply List.ext_getElem
  · simp
  · intro i h1 h2
    simp [xorBytes]

theorem ghashFrom_cons (h acc : Block) (c : Bytes) (cs : List Bytes) :
    ghashFrom h acc (c :: cs) = ghashFrom h (gfMul (xorVec acc (blockOf c)) h) cs := rfl

/-- The accumulator is linear in the blocks folded into it: each fold is a `⊕` and a product by the subkey. -/
theorem ghashFrom_xorBytes (h acc acc' : Block) (a b : Bytes) (hlen : b.length = a.length) :
    ghashFrom h (xorVec acc acc') (chunks (xorBytes a b)) =
      xorVec (ghashFrom h acc (chunks a)) (ghashFrom h acc' (chunks b)) := by
  by_cases ha : a = []
  · obtain rfl : b = [] := List.length_eq_zero_iff.1 (by rw [hlen, ha, List.length_nil])
    rw [ha]
    rfl
  · have hpos : 0 < a.length := List.length_pos_iff.2 ha
    have hb : b ≠ [] := List.length_pos_iff.1 (by omega)
    have hxor : xorBytes a b ≠ [] := List.length_pos_iff.1 (by rw [length_xorBytes]; omega)
    have htake : (xorBytes a b).take 16 = xorBytes (a.take 16) (b.take 16) := List.take_zipWith
    have hdrop : (xorBytes a b).drop 16 = xorBytes (a.drop 16) (b.drop 16) := List.drop_zipWith
    rw [chunks_cons ha, chunks_cons hb, chunks_cons hxor, htake, hdrop]
    rw [ghashFrom_cons, ghashFrom_cons, ghashFrom_cons, blockOf_xorBytes (by simp [hlen]), xorVec_xorVec_xorVec_comm,
      xorVec_gfMul, ghashFrom_xorBytes h _ _ (a.drop 16) (b.drop 16) (by simp [hlen])]
termination_by a.length
decreasing_by
  rw [List.length_drop]
  omega

/-- The accumulator of GHASH before the length block (R197). -/
def ghashBody (h : Block) (a c : Bytes) : Block := ghashFrom h (ghashFrom h zeroBlock (chunks a)) (chunks c)

theorem ghash_eq (h : Block) (a c : Bytes) :
    ghash h a c = gfMul (xorVec (ghashBody h a c) (lengthBlock a.length c.length)) h := rfl

section
variable (h : Block) {a a' c c' : Bytes} (ha : a'.length = a.length) (hc : c'.length = c.length)
include ha hc

theorem ghashBody_xorBytes :
    ghashBody h (xorBytes a a') (xorBytes c c') = xorVec (ghashBody h a c) (ghashBody h a' c') := by
  rw [ghashBody, ← xorVec_zeroBlock zeroBlock, ghashFrom_xorBytes h _ _ a a' ha, ghashFrom_xorBytes h _ _ c c' hc,
    ghashBody, ghashBody]

/-- Hashes of inputs of the same lengths: their length blocks cancel. -/
theorem xorVec_ghash :
    xorVec (ghash h a c) (ghash h a' c') = gfMul (ghashBody h (xorBytes a a') (xorBytes c c')) h := by
  rw [ghash_eq, ghash_eq, ha, hc, ← xorVec_gfMul, xorVec_xorVec_xorVec_comm, xorVec_self, xorVec_zeroBlock,
    ghashBody_xorBytes h ha hc]

end

/-- Settles O52: the `⊕` of two hashes depends on the `⊕` of the inputs alone, and that with zeros is the input. -/
theorem ghashIsLinearAtFixedLengths : Obligations.GhashIsLinearAtFixedLengths := by
  intro h a a' c c' ha hc
  have hla : (xorBytes a a').length = a.length := by rw [length_xorBytes, ha, Nat.min_self]
  have hlc : (xorBytes c c').length = c.length := by rw [length_xorBytes, hc, Nat.min_self]
  rw [xorVec_ghash h ha hc, ← hla, ← hlc, xorVec_ghash h List.length_replicate List.length_replicate,
    xorBytes_replicate_zero, xorBytes_replicate_zero]

/-! ### The commands -/

/-- Settles O30: the two operand blocks stand in the slots when the one stage reads them, and `Z` holds their product. -/
theorem gfmulMultiplies : Obligations.GfmulMultiplies := by
  refine ⟨rfl, fun s x y hx hy => ?_⟩
  exact exec_of_yields (r := .ok _) rfl <|
    yields_act (Res.bind_eq_val.2 ⟨x, need_eq_val.2 hx, Res.bind_eq_val.2 ⟨y, need_eq_val.2 hy, rfl⟩⟩) (yields_end rfl)

theorem all_fits_pA_aad_data {s : State} (haad : s.mem.AAD.length ≤ 2 ^ 61 - 1) (hdata : s.mem.DATA.length ≤ 2 ^ 61 - 1) :
    [Slot.pA, .aad, .data].all (fits s) = true := by
  simpa [fits, Config.maxLenBytes] using ⟨haad, hdata⟩

/-- Settles O31: the first stage loads the subkey from its slot, and the hash stages are `Ghash` of the two buffers. -/
theorem ghashHashesAadThenCiphertext : Obligations.GhashHashesAadThenCiphertext := by
  refine ⟨rfl, fun s h hh haad hdata => ?_⟩
  refine exec_of_yields (r := .ok _) (all_fits_pA_aad_data haad hdata) <|
    yields_act (Res.bind_eq_val.2 ⟨h, need_eq_val.2 hh, rfl⟩) ?_
  exact yields_hashStages (gs := []) dataBuffer h s.mem.DATA rfl (fun _ _ _ _ _ => rfl) fun _ _ _ => yields_end rfl

end Sys2Proof.Machine
end

section
/-! SUPPORT. TAGGEN and TAGCMP as commands (45_gcm.md R211 to R216): the test of the nonce that GCM makes after that of the
key, the difference register as a test of equality, and the obligations about the two operations. -/

namespace Sys2Proof.Machine

/-! ### The checks of GCM -/

theorem all_fits_pKey_pNonce_aad_data {s : State} (haad : s.mem.AAD.length ≤ 2 ^ 61 - 1)
    (hdata : s.mem.DATA.length ≤ 2 ^ 61 - 1) : [Slot.pKey, .pNonce, .aad, .data].all (fits s) = true := by
  simpa [fits, Config.maxLenBytes] using ⟨haad, hdata⟩

/-- Past the test of the key, a nonce of another length than 12 bytes ends the run in `InvalidNonceLength` (R216). -/
theorem yields_of_nonce_length_ne {o : State → Res Bytes} {gs : List Stage} {s : State} {k n : Bytes}
    (hk : s.P_KEY = some k) (hl : k.length = 16) (hn : s.P_NONCE = some n) (hnl : n.length ≠ 12) :
    (runStages (stageKeyCheck :: stageNonceCheck :: gs) s).Yields o (.error .invalidNonceLength) :=
  yields_act (checkKey_eq_val.2 ⟨k, hk, hl, rfl⟩) (yields_raise (checkNonce_raise hn hnl))

/-! ### TAGGEN -/

theorem exec_taggen {s : State} {k n : Bytes} (h : GcmReady s k n) :
    exec .taggen s = .next (release (gcmTag (keyExpand (blockOf k)) n s.mem.AAD s.mem.DATA).toList s) := by
  refine exec_of_yields (i := .taggen) (r := .ok _) h.all_fits <|
    yields_gcmKeyStages (s := begin s) h.key h.keyLength h.nonce h.nonceLength fun u hu => ?_
  have haad : u.mem.AAD = s.mem.AAD := hu.aad
  have hdata : u.mem.DATA = s.mem.DATA := hu.data
  rw [← haad, ← hdata]
  refine yields_act (computeMask_eq_val.2 ⟨_, _, hu.j0, hu.schedule, rfl⟩) ?_
  exact yields_hashTagStages (gs := []) dataBuffer _ _ u.mem.DATA hu.subkey rfl (fun _ _ _ _ _ => rfl)
    fun _ _ _ => yields_end rfl

/-- Settles O32: the checks in their order, then the stages shared with GCMENC and GCMDEC, the mask and the hash. -/
theorem taggenReturnsTheTag : Obligations.TaggenReturnsTheTag := by
  refine ⟨rfl, fun s k hk haad hdata => ⟨?keyLength, fun hl n hn => ⟨fun hnl => ?nonceLength, fun hnl => ?released⟩⟩⟩
  case keyLength => exact exec_of_key_length_ne rfl (all_fits_pKey_pNonce_aad_data haad hdata) hk
  case nonceLength =>
    exact exec_of_yields (i := .taggen) (r := .error _) (all_fits_pKey_pNonce_aad_data haad hdata)
      (yields_of_nonce_length_ne hk hl hn hnl)
  case released => exact exec_taggen ⟨hk, hn, hl, hnl, haad, hdata⟩

/-! ### TAGCMP -/

theorem foldl_or_eq_zero_iff {α : Type} (f : α → Byte) (l : List α) (d : Byte) :
    l.foldl (fun d i => d ||| f i) d = 0 ↔ d = 0 ∧ ∀ i ∈ l, f i = 0 := by
  induction l generalizing d with
  | nil => simp
  | cons i l ih =>
    have hor : d ||| f i = 0 ↔ d = 0 ∧ f i = 0 := BitVec.or_eq_zero_iff
    rw [List.foldl_cons, ih, hor, List.forall_mem_cons, and_assoc]

/-- The sixteen steps collect every bit in which the tags differ (R213). -/
theorem tagDiff_eq_zero_iff {a b : Block} : tagDiff a b = 0 ↔ a = b := by
  rw [tagDiff, foldl_or_eq_zero_iff]
  constructor
  · rintro ⟨-, h⟩
    ext1 i hi
    exact BitVec.xor_eq_zero_iff.1 (h ⟨i, hi⟩ (List.mem_finRange _))
  · rintro rfl
    exact ⟨rfl, fun i _ => BitVec.xor_self⟩

theorem tagMatches_tagDiff_iff {a b : Block} : tagMatches (tagDiff a b) = true ↔ a = b :=
  beq_iff_eq.trans tagDiff_eq_zero_iff

/-- Both operand blocks are compared before the outcome is looked at: the command ends as the judgement of `DIFF` does. -/
theorem exec_tagcmp_of_yields {s : State} {a b : Block} {r : CallResult} (ha : s.P_A = some a) (hb : s.P_B = some b)
    (hr : (runStages [.act .compare judgeDiff]
      { begin s with PHASE := .compare, DIFF := some (tagDiff a b) }).Yields tagcmpOp.result r) :
    exec .tagcmp s = conclude r s :=
  exec_of_yields (i := .tagcmp) rfl <| yields_act
    (Res.bind_eq_val.2 ⟨a, need_eq_val.2 ha, Res.bind_eq_val.2 ⟨b, need_eq_val.2 hb, compareTags_eq_val.2 rfl⟩⟩) hr

/-- Settles O33: `DIFF` is zero exactly for equal blocks, and it alone decides between the empty result and the error. -/
theorem tagcmpTellsOnlyEquality : Obligations.TagcmpTellsOnlyEquality := by
  refine ⟨rfl, fun s a b ha hb => ⟨fun heq => ?equal, fun hne => ?different⟩⟩
  case equal =>
    exact exec_tagcmp_of_yields (r := .ok _) ha hb <|
      yields_act (judgeDiff_eq_val.2 ⟨_, rfl, tagMatches_tagDiff_iff.2 heq, rfl⟩) (yields_end rfl)
  case different =>
    have hdiff : tagMatches (tagDiff a b) = false := Bool.eq_false_iff.2 (mt tagMatches_tagDiff_iff.1 hne)
    exact exec_tagcmp_of_yields (r := .error _) ha hb (yields_raise (judgeDiff_raise rfl hdiff))

end Sys2Proof.Machine
end

section
/-! SUPPORT. GCMENC and GCMDEC as commands (45_gcm.md R218, R221): the test of the length that GCMDEC makes first, and
what the two answer past their tests of key and nonce. -/

namespace Sys2Proof.Machine

section
variable {s : State} (hdata : s.mem.DATA.length ≤ 2 ^ 61 - 1) (haad : s.mem.AAD.length ≤ 2 ^ 61 - 1)
include hdata haad

/-- On an input that holds a tag, GCMDEC ends as its stages from the test of the key on yield. -/
theorem exec_gcmdec_of_yields {r : CallResult} (hlen : ¬ s.mem.DATA.length < 16)
    (hr : (runStages (gcmdecOp .wrap).stages.tail
      { begin s with PHASE := .len, PBUF := some (ciphertextPart s.mem.DATA) }).Yields resultRbuf r) :
    exec .gcmdec s = conclude r s :=
  exec_of_yields (i := .gcmdec) (all_fits_pKey_pNonce_aad_data haad hdata)
    (yields_act (splitInput_eq_val.2 ⟨hlen, rfl⟩) hr)

theorem exec_gcmdec_of_length (hlen : s.mem.DATA.length < 16) :
    exec .gcmdec s = .next (enterError .ciphertextTooShort s) :=
  exec_of_yields (i := .gcmdec) (r := .error _) (all_fits_pKey_pNonce_aad_data haad hdata)
    (yields_raise (splitInput_raise hlen))

end

section
variable {s : State} {k n : Bytes} (h : GcmReady s k n)
include h

/-- With no chunk too many, GCMENC under `wrap` releases the masked data and the tag over it (R218). -/
theorem exec_gcmenc (hle : nchunks s.mem.DATA.length ≤ 2 ^ 32) :
    exec .gcmenc s = .next (release
      (gcmStream (keyExpand (blockOf k)) n s.mem.DATA ++
        (gcmTag (keyExpand (blockOf k)) n s.mem.AAD (gcmStream (keyExpand (blockOf k)) n s.mem.DATA)).toList) s) := by
  refine execGcmencWith_of_yields (policy := .wrap) (r := .ok _) h fun u hu => ?_
  have haad : u.mem.AAD = s.mem.AAD := hu.aad
  have hdata : u.mem.DATA = s.mem.DATA := hu.data
  rw [← haad, ← hdata]
  rw [← hdata] at hle
  refine yields_act (checkCount_eq_val.2 ⟨counterOverflows_eq_false hle, nofun, rfl⟩) <|
    yields_act (loadGcmCounter_eq_val.2 ⟨n, hu.nonce.trans h.nonce, rfl⟩) ?_
  refine yields_ctrChunks _ _ _ [] rfl hu.schedule rfl rfl fun _ _ _ => ?_
  refine yields_act (computeMask_eq_val.2 ⟨_, _, hu.j0, hu.schedule, rfl⟩) ?_
  exact yields_hashTagStages (gs := []) resultRbuf _ _ _ hu.subkey rfl (fun _ _ _ _ _ => rfl)
    fun _ _ _ => yields_end rfl

variable (hlen : 16 ≤ s.mem.DATA.length)
include hlen

/-- A tag that does not verify leaves `DIFF` other than zero, and the judgement of it ends GCMDEC (R221, R222). -/
theorem exec_gcmdec_of_tag_ne
    (htag : tagPart s.mem.DATA ≠ gcmTag (keyExpand (blockOf k)) n s.mem.AAD (ciphertextPart s.mem.DATA)) :
    exec .gcmdec s = .next (enterError .authenticationFailed s) := by
  refine execGcmdecWith_of_yields (policy := .wrap) (r := .error _) h hlen fun u hu => ?_
  refine yields_act (Res.bind_eq_val.2 ⟨_, need_eq_val.2 hu.tag, compareTags_eq_val.2 rfl⟩) ?_
  refine yields_raise (judgeDiff_raise rfl ?_)
  rw [enterPhase_mem, hu.data]
  exact Bool.eq_false_iff.2 (mt tagMatches_tagDiff_iff.1 htag)

/-- On an input whose tag verifies, with no chunk too many, GCMDEC under `wrap` releases the unmasked data (R221). -/
theorem exec_gcmdec
    (htag : tagPart s.mem.DATA = gcmTag (keyExpand (blockOf k)) n s.mem.AAD (ciphertextPart s.mem.DATA))
    (hle : nchunks (ciphertextPart s.mem.DATA).length ≤ 2 ^ 32) :
    exec .gcmdec s = .next (release (gcmStream (keyExpand (blockOf k)) n (ciphertextPart s.mem.DATA)) s) := by
  refine execGcmdecWith_of_verified (policy := .wrap) (r := .ok _) h hlen htag fun u hn hp hrk => ?_
  refine yields_act (Res.bind_eq_val.2 ⟨_, need_eq_val.2 hp,
    checkCount_eq_val.2 ⟨counterOverflows_eq_false hle, nofun, rfl⟩⟩) ?_
  refine yields_act (loadGcmCounter_eq_val.2 ⟨n, hn, rfl⟩) ?_
  exact yields_ctrChunks _ _ _ [] (Res.bind_eq_val.2 ⟨_, need_eq_val.2 hp, rfl⟩) hrk rfl rfl
    fun _ _ _ => yields_end rfl

end

end Sys2Proof.Machine
end

section
/-! SUPPORT. Exceptions (60_exceptions.md R235 to R240): every operation answers as its one function of the operands or
stops at an operand slot that holds no value, that function reports the first cause in the test order, and the
obligations about errors. -/

namespace Sys2Proof.Machine

/-! ### What release and error entry write -/

/-- Settles O18: the codes are values of their tables; a release and an error entry leave no working register and the
host part as it was. -/
theorem releaseAndErrorEntryWriteTheResult : Obligations.ReleaseAndErrorEntryWriteTheResult := by
  refine ⟨by decide, by decide, fun out s => ?release, fun e s => ?errorEntry⟩
  case release =>
    exact ⟨rfl, rfl, writeOut_OUT s.mem out, quiescent_release out s, sameHostPart_settle (.ok out) s⟩
  case errorEntry => exact ⟨rfl, rfl, rfl, quiescent_enterError e s, sameHostPart_settle (.error e) s⟩

/-! ### An operation answers as its function, or stops

An operand slot without a value stops an operation where it is read, and an error tested before that is reported. -/

/-- The transaction ends as the result `a` of a function over the operands says, or stops at a read of no value. -/
def AnswersOrStops (i : Instr) (s : State) (a : ApiResult) : Prop :=
  exec i s = .next (settle a s) ∨ ∃ r, exec i s = .fault (.noValue r)

theorem length_DATA_of_fits {l : List Slot} {s : State} (ha : l.all (fits s) = true) (h : .data ∈ l) :
    s.mem.DATA.length ≤ 2 ^ 61 - 1 := by
  simpa [fits, Config.maxLenBytes] using List.all_eq_true.1 ha _ h

theorem length_AAD_of_fits {l : List Slot} {s : State} (ha : l.all (fits s) = true) (h : .aad ∈ l) :
    s.mem.AAD.length ≤ 2 ^ 61 - 1 := by
  simpa [fits, Config.maxLenBytes] using List.all_eq_true.1 ha _ h

/-- A read of an operand slot without a value stops the stage it stands in. -/
theorem need_bind_of_none {α β : Type} {r : Reg} {v : Option α} {g : α → Res β} (h : v = none) :
    (need r v).bind g = .fault (.noValue r) := by
  rw [h, need_none, Res.bind_fault]

section
variable {i : Instr} {s u : State} {gs : List Stage} {o : State → Res Bytes} {a : ApiResult}

/-- A command that stops where the register slot `v` holds no value, or finds there what `operandsOf` takes from it. -/
theorem answers_slot {α : Type} {v : Option α} (r : Reg) (d : α)
    (hnone : v = none → exec i s = .fault (.noValue r)) (hsome : v = some (v.getD d) → AnswersOrStops i s a) :
    AnswersOrStops i s a := by
  cases v with
  | none => exact .inr ⟨r, hnone rfl⟩
  | some x => exact hsome rfl

/-- A command whose operation tests the key in the state `u` (40_block_cipher.md R129). -/
theorem answers_withKey {f : Schedule → ApiResult} (hu : u.P_KEY = s.P_KEY)
    (hrun : ∀ r, (runStages (stageKeyCheck :: gs) u).Yields o r → exec i s = conclude r s)
    (h : s.P_KEY = some (operandsOf s).key → (operandsOf s).key.length = 16 →
      AnswersOrStops i s (f (keyExpand (blockOf (operandsOf s).key)))) :
    AnswersOrStops i s (withKey (operandsOf s).key f) := by
  refine answers_slot (v := s.P_KEY) .P_KEY [] (fun hnone => ?_) fun hk => ?_
  · exact hrun (.fault _) (yields_fault (checkKey_fault (hu.trans hnone)))
  rw [withKey]
  split_ifs with hl
  · exact h hk hl
  · exact .inl (hrun (.error _) (yields_raise (checkKey_raise (hu.trans hk) hl)))

/-- A command whose operation tests the key and then the nonce in the state `u` (45_gcm.md R216). -/
theorem answers_gcmChecks {f : Schedule → ApiResult} (haad : s.mem.AAD.length ≤ 2 ^ 61 - 1)
    (hdata : s.mem.DATA.length ≤ 2 ^ 61 - 1) (hkey : u.P_KEY = s.P_KEY) (hnonce : u.P_NONCE = s.P_NONCE)
    (hrun : ∀ r, (runStages (stageKeyCheck :: stageNonceCheck :: gs) u).Yields o r → exec i s = conclude r s)
    (h : GcmReady s (operandsOf s).key (operandsOf s).nonce →
      AnswersOrStops i s (f (keyExpand (blockOf (operandsOf s).key)))) :
    AnswersOrStops i s (withKey (operandsOf s).key fun rk => withNonce (operandsOf s).nonce (f rk)) := by
  refine answers_withKey hkey hrun fun hk hl => ?_
  have hcheck : checkKey (enterPhase .keychk u) = .val (enterPhase .keychk u) :=
    checkKey_eq_val.2 ⟨_, hkey.trans hk, hl, rfl⟩
  refine answers_slot (v := s.P_NONCE) .P_NONCE [] (fun hnone => ?_) fun hn => ?_
  · exact hrun (.fault _) (yields_act hcheck (yields_fault (checkNonce_fault (hnonce.trans hnone))))
  rw [withNonce]
  split_ifs with hnl
  · exact h ⟨hk, hn, hl, hnl, haad, hdata⟩
  · exact .inl (hrun (.error _) (yields_of_nonce_length_ne (hkey.trans hk) hl (hnonce.trans hn) hnl))

/-- A command that stops where its stages read `P_A`, or finds a block there. -/
theorem answers_pA (ha : (slotsRead i).all (fits s) = true)
    (hnone : s.P_A = none →
      (runStages (operationOf i).stages (begin s)).Yields (operationOf i).result (.fault (.noValue .P_A)))
    (hsome : s.P_A = some (operandsOf s).a → AnswersOrStops i s a) : AnswersOrStops i s a :=
  answers_slot .P_A zeroBlock (fun h => exec_of_yields ha (hnone h)) hsome

/-- A command whose first stage reads `P_A` and `P_B`, in this order. -/
theorem answers_pA_pB {p : Phase} {g : Block → Block → State → Res State} (ha : (slotsRead i).all (fits s) = true)
    (hi : (operationOf i).stages =
      .act p (fun s => (need .P_A s.P_A).bind fun x => (need .P_B s.P_B).bind fun y => g x y s) :: gs)
    (h : s.P_A = some (operandsOf s).a → s.P_B = some (operandsOf s).b → AnswersOrStops i s a) :
    AnswersOrStops i s a := by
  refine answers_pA ha (fun hnone => ?_) fun hx => ?_
  · rw [hi]
    exact yields_fault (need_bind_of_none hnone)
  refine answers_slot .P_B zeroBlock (fun hnone => exec_of_yields (r := .fault _) ha ?_) (h hx)
  rw [hi]
  exact yields_fault (Res.bind_eq_fault.2 (.inr ⟨_, need_eq_val.2 hx, need_bind_of_none hnone⟩))

/-- A command on the block in `P_A` under the key's schedule (40_block_cipher.md R130, R131). -/
theorem answers_blockStages {f : Schedule → Block → Block} {into : Block → State → Res State}
    (ha : (slotsRead i).all (fits s) = true)
    (hi : (operationOf i).stages =
      [stageKeyCheck, stageKeyExpand, .act .rounds fun s => (need .P_A s.P_A).bind fun b => into b s])
    (h : ∀ k b, s.P_KEY = some k → k.length = 16 → s.P_A = some b →
      exec i s = .next (release (f (keyExpand (blockOf k)) b).toList s)) :
    AnswersOrStops i s (withKey (operandsOf s).key fun rk => .ok (f rk (operandsOf s).a).toList) := by
  refine answers_withKey (u := begin s) rfl (fun _ hr => exec_of_yields ha (hi ▸ hr)) fun hk hl => ?_
  refine answers_pA ha (fun hnone => ?_) fun hb => .inl (h _ _ hk hl hb)
  rw [hi]
  exact yields_keyStages (s := begin s) hk hl (yields_fault (need_bind_of_none hnone))

end

/-! ### The fourteen operations -/

section
variable {s : State}

theorem answers_keyexp : AnswersOrStops .keyexp s (apiKeyExpand (operandsOf s).key) :=
  answers_withKey (u := begin s) rfl (fun _ => exec_of_yields (i := .keyexp) rfl) fun hk hl =>
    .inl ((keyexpReturnsTheSchedule.2 s _ hk).1 hl).1

theorem answers_encblk : AnswersOrStops .encblk s (apiEncryptBlock (operandsOf s).a (operandsOf s).key) :=
  answers_blockStages (i := .encblk) (f := cipher) rfl rfl fun k b hk hl hb =>
    (encblkEncryptsTheBlock.2 s k hk).1 hl b hb

theorem answers_decblk : AnswersOrStops .decblk s (apiDecryptBlock (operandsOf s).a (operandsOf s).key) :=
  answers_blockStages (i := .decblk) (f := invCipher) rfl rfl fun k b hk hl hb =>
    (decblkDecryptsTheBlock.2 s k hk).1 hl b hb

theorem answers_gfmul : AnswersOrStops .gfmul s (apiGfMul (operandsOf s).a (operandsOf s).b) :=
  answers_pA_pB rfl rfl fun hx hy => .inl (gfmulMultiplies.2 s _ _ hx hy)

theorem answers_tagcmp : AnswersOrStops .tagcmp s (apiTagCmp (operandsOf s).a (operandsOf s).b) := by
  refine answers_pA_pB rfl rfl fun ha hb => .inl ?_
  obtain ⟨hequal, hdifferent⟩ := tagcmpTellsOnlyEquality.2 s _ _ ha hb
  rw [apiTagCmp]
  split_ifs with hab
  · exact hequal hab
  · exact hdifferent hab

section
variable (hdata : s.mem.DATA.length ≤ 2 ^ 61 - 1)
include hdata

theorem answers_pad : AnswersOrStops .pad s (apiPad s.mem.DATA) := .inl (exec_pad hdata)

theorem answers_unpad : AnswersOrStops .unpad s (apiUnpad s.mem.DATA) := by
  cases hu : unpadBytes 16 s.mem.DATA with
  | some d =>
    rw [apiUnpad_of_some hu]
    exact .inl (exec_unpad_of_some hdata hu)
  | none =>
    rw [apiUnpad_of_none hu]
    exact .inl (exec_unpad_of_none hdata hu)

theorem answers_cbcenc :
    AnswersOrStops .cbcenc s (apiCbcEncrypt s.mem.DATA (operandsOf s).key (operandsOf s).a) := by
  have ha := all_fits_pKey_pA_data hdata
  refine answers_withKey (u := begin s) rfl (fun _ => exec_of_yields (i := .cbcenc) ha) fun hk hl => ?_
  refine answers_pA ha (fun hnone => ?_) fun hiv => .inl (exec_cbcenc hdata hk hl hiv)
  exact yields_keyStages (s := begin s) hk hl <| yields_copyDataStages fun _ =>
    yields_act (padForCbc_eq_val.2 ⟨_, rfl, rfl⟩) (yields_fault (loadIv_fault hnone))

theorem answers_cbcdec :
    AnswersOrStops .cbcdec s (apiCbcDecrypt s.mem.DATA (operandsOf s).key (operandsOf s).a) := by
  rw [apiCbcDecrypt]
  split_ifs with hlen
  · exact .inl (exec_cbcdec_of_length hdata hlen)
  have hcheck : checkCiphertextLength (enterPhase .len (begin s)) = .val (enterPhase .len (begin s)) :=
    checkCiphertextLength_eq_val.2 ⟨hlen, rfl⟩
  obtain ⟨hne, hmod⟩ := not_or.1 hlen
  rw [not_not] at hmod
  refine answers_withKey (u := enterPhase .len (begin s)) rfl (fun _ => exec_cbcdec_of_yields hdata hne hmod)
    fun hk hl => ?_
  refine answers_pA (all_fits_pKey_pA_data hdata) (fun hnone => ?_) fun hiv =>
    .inl (exec_cbcdec hdata hne hmod hk hl hiv)
  exact yields_act hcheck (yields_keyStages hk hl (yields_fault (loadIv_fault hnone)))

theorem answers_ctrxfrm :
    AnswersOrStops .ctrxfrm s (apiCtrTransform .w32 s.mem.DATA (operandsOf s).key (operandsOf s).a) := by
  have ha := all_fits_pKey_pA_data hdata
  refine answers_withKey (u := begin s) rfl (fun _ => exec_of_yields (i := .ctrxfrm) ha) fun hk hl => ?_
  split_ifs with ho
  · exact .inl (execCtrxfrmWith_of_counterOverflows hdata hk hl ho)
  have hle : s.mem.DATA.length ≤ 2 ^ 36 := Nat.not_lt.1 (mt counterOverflows_iff_length.2 ho)
  refine answers_pA ha (fun hnone => ?_) fun hcb => .inl (exec_ctrxfrm hle hk hl hcb)
  refine yields_act (checkKey_eq_val.2 ⟨_, hk, hl, rfl⟩) ?_
  refine yields_act (checkCount_eq_val.2 ⟨Bool.eq_false_iff.2 ho, nofun, rfl⟩) ?_
  refine yields_act (expandKey_eq_val.2 ⟨_, hk, hl, rfl⟩) (yields_fault (need_bind_of_none ?_))
  simpa using hnone

variable (haad : s.mem.AAD.length ≤ 2 ^ 61 - 1)
include haad

theorem answers_ghash : AnswersOrStops .ghash s (apiGhash (operandsOf s).a s.mem.AAD s.mem.DATA) :=
  answers_pA (all_fits_pA_aad_data haad hdata) (fun hnone => yields_fault (need_bind_of_none hnone))
    fun hx => .inl (ghashHashesAadThenCiphertext.2 s _ hx haad hdata)

theorem answers_taggen :
    AnswersOrStops .taggen s (apiTagGen (operandsOf s).key (operandsOf s).nonce s.mem.AAD s.mem.DATA) :=
  answers_gcmChecks (u := begin s) haad hdata rfl rfl
    (fun _ => exec_of_yields (i := .taggen) (all_fits_pKey_pNonce_aad_data haad hdata)) fun h => .inl (exec_taggen h)

theorem answers_gcmenc :
    AnswersOrStops .gcmenc s (apiGcmEncrypt s.mem.DATA (operandsOf s).key (operandsOf s).nonce s.mem.AAD) := by
  refine answers_gcmChecks (u := begin s) haad hdata rfl rfl
    (fun _ => exec_of_yields (i := .gcmenc) (all_fits_pKey_pNonce_aad_data haad hdata)) fun h => ?_
  split_ifs with ho
  · exact .inl (execGcmencWith_of_counterOverflows h ho)
  · exact .inl (exec_gcmenc h (Nat.not_lt.1 (mt counterOverflows_iff_nchunks.2 ho)))

theorem answers_gcmdec :
    AnswersOrStops .gcmdec s (apiGcmDecrypt s.mem.DATA (operandsOf s).key (operandsOf s).nonce s.mem.AAD) := by
  rw [apiGcmDecrypt]
  by_cases hshort : s.mem.DATA.length < 16
  · rw [if_pos hshort]
    exact .inl (exec_gcmdec_of_length hdata haad hshort)
  rw [if_neg hshort]
  have hlen : 16 ≤ s.mem.DATA.length := Nat.not_lt.1 hshort
  refine answers_gcmChecks (u := { begin s with PHASE := .len, PBUF := some (ciphertextPart s.mem.DATA) })
    haad hdata rfl rfl (fun _ => exec_gcmdec_of_yields hdata haad hshort) fun h => ?_
  split_ifs with htag ho
  · exact .inl (execGcmdecWith_of_counterOverflows h hlen htag ho)
  · exact .inl (exec_gcmdec h hlen htag (Nat.not_lt.1 (mt counterOverflows_iff_nchunks.2 ho)))
  · exact .inl (exec_gcmdec_of_tag_ne h hlen htag)

end

/-- Every command taken at issue answers as the one function of its operation (00_scope.md R8), or stops at an operand
slot that holds no value. -/
theorem answers_transaction {i : Instr} (ha : (slotsRead i).all (fits s) = true) :
    AnswersOrStops i s (transaction i (operandsOf s)) := by
  have hdata := length_DATA_of_fits ha
  have haad := length_AAD_of_fits ha
  cases i
  case keyexp => exact answers_keyexp
  case encblk => exact answers_encblk
  case decblk => exact answers_decblk
  case pad => exact answers_pad (hdata (by decide))
  case unpad => exact answers_unpad (hdata (by decide))
  case cbcenc => exact answers_cbcenc (hdata (by decide))
  case cbcdec => exact answers_cbcdec (hdata (by decide))
  case ctrxfrm => exact answers_ctrxfrm (hdata (by decide))
  case gfmul => exact answers_gfmul
  case ghash => exact answers_ghash (hdata (by decide)) (haad (by decide))
  case taggen => exact answers_taggen (hdata (by decide)) (haad (by decide))
  case tagcmp => exact answers_tagcmp
  case gcmenc => exact answers_gcmenc (hdata (by decide)) (haad (by decide))
  case gcmdec => exact answers_gcmdec (hdata (by decide)) (haad (by decide))

/-- What an operation answers is the result of its one function, settled in the state at issue. -/
theorem exec_next_eq_settle_transaction {i : Instr} {t : State} (h : exec i s = .next t) :
    t = settle (transaction i (operandsOf s)) s := by
  by_cases ha : (slotsRead i).all (fits s) = true
  · rcases answers_transaction ha with hnext | ⟨x, hfault⟩
    · rw [hnext] at h
      exact (Host.Outcome.next.inj h).symm
    · rw [hfault] at h
      cases h
  · obtain ⟨b, hrefused⟩ := exec_refused ha
    rw [hrefused] at h
    cases h

end

/-! ### The first cause in the test order -/

/-- Tests for the errors `es`, made in this order, each for its cause in `c`, give this result: the first whose cause
holds is reported and later tests are not made (R238). -/
inductive ReportsFirst (c : Err → Prop) : List Err → ApiResult → Prop where
  | ok {out : Bytes} : ReportsFirst c [] (.ok out)
  | error {e : Err} {es : List Err} (h : c e) : ReportsFirst c (e :: es) (.error e)
  | passed {e : Err} {es : List Err} {r : ApiResult} (he : ¬ c e) (h : ReportsFirst c es r) :
    ReportsFirst c (e :: es) r

/-- Without an error no cause holds. -/
theorem ReportsFirst.forall_not {c : Err → Prop} {es : List Err} {out : Bytes} (h : ReportsFirst c es (.ok out)) :
    ∀ e ∈ es, ¬ c e := by
  induction es with
  | nil => exact nofun
  | cons e es ih =>
    cases h with
    | passed he h => exact List.forall_mem_cons.2 ⟨he, ih h⟩

/-- The cause of the error reported holds, and none before it does. -/
theorem ReportsFirst.exists_split {c : Err → Prop} {es : List Err} {e : Err} (h : ReportsFirst c es (.error e)) :
    ∃ before after, es = before ++ e :: after ∧ c e ∧ ∀ e' ∈ before, ¬ c e' := by
  induction es with
  | nil => cases h
  | cons e₀ es ih =>
    cases h with
    | error hc => exact ⟨[], es, rfl, hc, nofun⟩
    | passed he h =>
      obtain ⟨before, after, rfl, hc, hbefore⟩ := ih h
      exact ⟨e₀ :: before, after, rfl, hc, List.forall_mem_cons.2 ⟨he, hbefore⟩⟩

/-! The causes of 60_exceptions.md R236, one by one. -/

section
variable {i : Instr} {x : Operands}

theorem causeHolds_invalidKeyLength : causeHolds i x .invalidKeyLength ↔ x.key.length ≠ 16 := Iff.rfl

theorem causeHolds_invalidNonceLength : causeHolds i x .invalidNonceLength ↔ x.nonce.length ≠ 12 := Iff.rfl

theorem causeHolds_invalidCiphertextLength :
    causeHolds i x .invalidCiphertextLength ↔ x.data.length = 0 ∨ x.data.length % 16 ≠ 0 := Iff.rfl

theorem causeHolds_ciphertextTooShort : causeHolds i x .ciphertextTooShort ↔ x.data.length < 16 := Iff.rfl

theorem causeHolds_invalidPadding_unpad : causeHolds .unpad x .invalidPadding ↔ unpadBytes 16 x.data = none := Iff.rfl

theorem causeHolds_invalidPadding_cbcdec :
    causeHolds .cbcdec x .invalidPadding ↔
      unpadBytes 16 (cbcDecFrom (keyExpand (blockOf x.key)) x.a (chunks x.data)) = none := Iff.rfl

theorem causeHolds_counterOverflow (h : i ≠ .gcmdec) :
    causeHolds i x .counterOverflow ↔ counterOverflows x.data.length = true := by
  rw [counterOverflows_iff_nchunks, causeHolds, if_neg h]

theorem causeHolds_counterOverflow_gcmdec :
    causeHolds .gcmdec x .counterOverflow ↔ counterOverflows (ciphertextPart x.data).length = true := by
  have hlen : (ciphertextPart x.data).length = x.data.length - 16 := by simp [ciphertextPart, Config.tagBytes]
  rw [counterOverflows_iff_nchunks, causeHolds, if_pos rfl, hlen]

theorem causeHolds_authenticationFailed_tagcmp : causeHolds .tagcmp x .authenticationFailed ↔ x.a ≠ x.b := Iff.rfl

theorem causeHolds_authenticationFailed_gcmdec :
    causeHolds .gcmdec x .authenticationFailed ↔
      tagPart x.data ≠ gcmTag (keyExpand (blockOf x.key)) x.nonce x.aad (ciphertextPart x.data) := Iff.rfl

end

/-! The tests, in the order in which the functions make them. -/

section
variable {i : Instr} {x : Operands} {es : List Err}

/-- One test, with the cause it tests for. -/
theorem reportsFirst_ite {c : Err → Prop} {p : Prop} [Decidable p] {e : Err} {a : ApiResult} (hc : c e ↔ p)
    (h : ReportsFirst c es a) : ReportsFirst c (e :: es) (if p then .error e else a) := by
  split_ifs with hp
  · exact .error (hc.2 hp)
  · exact .passed (mt hc.1 hp) h

/-- One test that goes on where a comparison succeeds. -/
theorem reportsFirst_ite_not {c : Err → Prop} {p : Prop} [Decidable p] {e : Err} {a : ApiResult} (hc : c e ↔ ¬ p)
    (h : ReportsFirst c es a) : ReportsFirst c (e :: es) (if p then a else .error e) := by
  rw [← ite_not]
  exact reportsFirst_ite hc h

theorem reportsFirst_withKey {f : Schedule → ApiResult}
    (h : ReportsFirst (causeHolds i x) es (f (keyExpand (blockOf x.key)))) :
    ReportsFirst (causeHolds i x) (.invalidKeyLength :: es) (withKey x.key f) :=
  reportsFirst_ite_not causeHolds_invalidKeyLength h

theorem reportsFirst_withNonce {a : ApiResult} (h : ReportsFirst (causeHolds i x) es a) :
    ReportsFirst (causeHolds i x) (.invalidNonceLength :: es) (withNonce x.nonce a) :=
  reportsFirst_ite_not causeHolds_invalidNonceLength h

theorem reportsFirst_apiUnpad {c : Err → Prop} {data : Bytes} (hc : c .invalidPadding ↔ unpadBytes 16 data = none) :
    ReportsFirst c [.invalidPadding] (apiUnpad data) := by
  cases hu : unpadBytes 16 data with
  | some d =>
    rw [apiUnpad_of_some hu]
    exact .passed (by rw [hc, hu]; nofun) .ok
  | none =>
    rw [apiUnpad_of_none hu]
    exact .error (hc.2 hu)

end

/-- The function of each operation makes its tests in the order of 60_exceptions.md R237, each for the cause of R236. -/
theorem transaction_reportsFirst (i : Instr) (x : Operands) :
    ReportsFirst (causeHolds i x) (mayRaise i) (transaction i x) := by
  cases i <;>
    simp only [transaction, mayRaise, apiKeyExpand, apiEncryptBlock, apiDecryptBlock, apiPad, apiCbcEncrypt,
      apiCbcDecrypt, apiCtrTransform, apiGfMul, apiGhash, apiTagGen, apiTagCmp, apiGcmEncrypt, apiGcmDecrypt]
  case keyexp => exact reportsFirst_withKey .ok
  case encblk => exact reportsFirst_withKey .ok
  case decblk => exact reportsFirst_withKey .ok
  case pad => exact .ok
  case unpad => exact reportsFirst_apiUnpad causeHolds_invalidPadding_unpad
  case cbcenc => exact reportsFirst_withKey .ok
  case cbcdec =>
    exact reportsFirst_ite causeHolds_invalidCiphertextLength <|
      reportsFirst_withKey <| reportsFirst_apiUnpad causeHolds_invalidPadding_cbcdec
  case ctrxfrm => exact reportsFirst_withKey <| reportsFirst_ite (causeHolds_counterOverflow (by decide)) .ok
  case gfmul => exact .ok
  case ghash => exact .ok
  case taggen => exact reportsFirst_withKey <| reportsFirst_withNonce .ok
  case tagcmp => exact reportsFirst_ite_not causeHolds_authenticationFailed_tagcmp .ok
  case gcmenc =>
    exact reportsFirst_withKey <| reportsFirst_withNonce <|
      reportsFirst_ite (causeHolds_counterOverflow (by decide)) .ok
  case gcmdec =>
    exact reportsFirst_ite causeHolds_ciphertextTooShort <| reportsFirst_withKey <| reportsFirst_withNonce <|
      reportsFirst_ite_not causeHolds_authenticationFailed_gcmdec <|
        reportsFirst_ite causeHolds_counterOverflow_gcmdec .ok

/-- Settles O16: an operation that answers does so as its function, which reports the first cause in the test order. -/
theorem theFirstCauseInTestOrderIsReported : Obligations.TheFirstCauseInTestOrderIsReported := by
  intro i s t h
  have hfirst := transaction_reportsFirst i (operandsOf s)
  have ht := exec_next_eq_settle_transaction h
  cases hr : transaction i (operandsOf s) with
  | ok out =>
    rw [hr] at hfirst ht
    subst ht
    exact ⟨nofun, fun _ => hfirst.forall_not⟩
  | error e =>
    rw [hr] at hfirst ht
    subst ht
    refine ⟨fun e' he => ?_, nofun⟩
    obtain rfl : e = e' := Option.some.inj he
    exact hfirst.exists_split

end Sys2Proof.Machine
end

section
/-! SUPPORT. Commands issued again (60_exceptions.md R241, R242, 70_reset_and_hazards.md R290): what an operation writes at
its end is in no operand slot, so a result left in the state does not change what a command answers. -/

namespace Sys2Proof.Machine

section
variable (r : ApiResult) (s : State)

/-- Release and error entry write no operand slot. -/
theorem agreeOn_settle (k : Slot) : agreeOn s (settle r s) k := by
  cases k <;> cases r <;> rfl

/-- Each end of an operation writes all that an earlier end wrote. -/
theorem conclude_settle (c : CallResult) : conclude c (settle r s) = conclude c s := by
  cases c <;> cases r <;> rfl

/-- A result left by any command before, a release or an error, has no effect on a command that is taken at issue: there
is nothing to clear. -/
theorem exec_settle {i : Instr} (ha : (slotsRead i).all (fits s) = true) : exec i (settle r s) = exec i s := by
  have hagree : ∀ k ∈ slotsRead i, agreeOn s (settle r s) k := fun k _ => agreeOn_settle r s k
  obtain ⟨c, hc⟩ := Run.exists_yields (operationOf i).result (runStages (operationOf i).stages (begin s))
  calc exec i (settle r s)
      = conclude c (settle r s) :=
        exec_of_yields ((all_fits_iff_of_agreeOn hagree).1 ha) (yields_of_agreeOn hagree hc)
    _ = conclude c s := conclude_settle r s c
    _ = exec i s := (exec_of_yields ha hc).symm

end

/-- A transaction that answers a next state was taken at issue. -/
theorem all_fits_of_exec_next {i : Instr} {s t : State} (h : exec i s = .next t) :
    (slotsRead i).all (fits s) = true := by
  rw [exec_eq_runOperation] at h
  exact admitSlots_eq_val.1 (runOperation_next h).1

/-- Settles O20: a next state is the state at issue with a result settled in it, which has no effect on the command
issued again. -/
theorem reissueGivesTheSameResult : Obligations.ReissueGivesTheSameResult := by
  intro i s t h
  obtain ⟨r, rfl⟩ := exec_next h
  exact (exec_settle r s (all_fits_of_exec_next h)).trans h

end Sys2Proof.Machine
end

section
/-! SUPPORT. Commands and steps (30_encoding.md R80, R82, 10_state.md R22, R24, R33, R34, 60_exceptions.md R240, R243):
the operation map both ways, what one step can do, what an operation leaves, and the obligations about them. -/

namespace Sys2Proof.Machine

/-! ### The operation map -/

@[simp] theorem decodeOp_encodeOp (i : Instr) : decodeOp (encodeOp i) = some i := by
  cases i <;> rfl

/-- Each arm of the operation map is reached by one code. -/
theorem encodeOp_of_decodeOp {op : Byte} {i : Instr} (h : decodeOp op = some i) : encodeOp i = op := by
  unfold decodeOp at h
  split at h
  case h_15 => cases h
  all_goals
    cases h
    exact BitVec.eq_of_toNat_eq (Eq.symm ‹_›)

theorem decode_cons_eq_ok_iff {op : Byte} {bytes rest : Bytes} {i : Instr} :
    decode (op :: bytes) = .ok (i, rest) ↔ decodeOp op = some i ∧ bytes = rest := by
  cases h : decodeOp op <;> simp [decode, h]

/-- Settles O1: an operation's word is its code, and a word that decodes is the code of the arm it reached. -/
theorem decodeAndEncodeAgree : Obligations.DecodeAndEncodeAgree := by
  refine ⟨fun i rest => decode_cons_eq_ok_iff.2 ⟨decodeOp_encodeOp i, rfl⟩, fun bytes rest i h => ?_⟩
  cases bytes with
  | nil => cases h
  | cons op bytes =>
    obtain ⟨hop, rfl⟩ := decode_cons_eq_ok_iff.1 h
    exact congrArg (· :: bytes) (encodeOp_of_decodeOp hop)

/-- Settles O2: the words are written out, so the map answers each by evaluation. -/
theorem operationMapWords : Obligations.OperationMapWords := by
  refine ⟨?blockModes, ?counterAndTag⟩
  case blockModes => decide
  case counterAndTag => decide

/-! ### One step -/

theorem fetch_of_decodeOp {op : Byte} {i : Instr} (h : decodeOp op = some i) : fetch op = .ok i := by
  simp only [fetch, decode, h]

theorem step_of_no_command {s : State} (hphase : s.PHASE = .idle) (hop : s.OP = none) : step s = .next s := by
  simp only [step, hphase, hop]

theorem step_of_decodeOp {s : State} {op : Byte} {i : Instr} (hphase : s.PHASE = .idle) (hop : s.OP = some op)
    (h : decodeOp op = some i) : step s = exec i s := by
  simp only [step, hphase, hop, fetch_of_decodeOp h]

theorem step_of_busy {s : State} (h : s.PHASE ≠ .idle) : step s = .refused (.operationInProgress s.PHASE) := by
  unfold step
  split
  next hphase _ => exact absurd hphase h
  next hphase _ => exact absurd hphase h
  next => rfl

/-- A step that answers a next state has waited or run an operation. -/
theorem step_next {s t : State} (h : step s = .next t) : t = s ∨ ∃ i, exec i s = .next t := by
  by_cases hphase : s.PHASE = .idle
  · cases hop : s.OP with
    | none =>
      rw [step_of_no_command hphase hop] at h
      exact .inl (Host.Outcome.next.inj h).symm
    | some op =>
      cases hi : decodeOp op with
      | some i => exact .inr ⟨i, step_of_decodeOp hphase hop hi ▸ h⟩
      | none =>
        rw [step_of_fetch_error hphase hop (fetch_of_decodeOp_none hi)] at h
        cases h
  · rw [step_of_busy hphase] at h
    cases h

/-- Settles O4: the code taken at issue is the byte that decodes, and nothing stands around the operation. -/
theorem stepRunsTheDecodedOperation : Obligations.StepRunsTheDecodedOperation := fun _ _ _ _ hphase hop h =>
  step_of_decodeOp hphase hop (decode_cons_eq_ok_iff.1 h).1

/-- Settles O5: the two arms of a step that run no operation. -/
theorem stepWaitsWithoutCommandAndRefusesWhileBusy : Obligations.StepWaitsWithoutCommandAndRefusesWhileBusy :=
  ⟨fun _ => step_of_no_command, fun _ => step_of_busy⟩

/-! ### The invariant between operations -/

theorem resultConsistent_reset : ResultConsistent State.reset where
  err := by decide
  out := fun _ => rfl

/-- Settles O7: no register holds a value after reset, and the buffers chosen for it are empty. -/
theorem invariantHoldsAtReset : Obligations.InvariantHoldsAtReset :=
  ⟨⟨quiescent_reset, resultConsistent_reset⟩, reset_mem_wf⟩

/-- Settles O8: a wait keeps the state, and an operation ends in a release or an error entry, which give the invariant
from any state. -/
theorem stepKeepsTheInvariant : Obligations.StepKeepsTheInvariant := by
  intro s t hs h
  rcases step_next h with rfl | ⟨i, hexec⟩
  · exact hs
  · obtain ⟨r, rfl⟩ := exec_next hexec
    exact inv_settle r s

/-! ### What an operation leaves, and what it shows before its end -/

/-- Settles O17: the next state is a release or an error entry of the state at issue, and `ERR` tells which. -/
theorem aFailureTellsOnlyItsCode : Obligations.AFailureTellsOnlyItsCode := by
  intro i s t h
  obtain ⟨r, rfl⟩ := exec_next h
  cases r with
  | ok out => exact ⟨nofun, fun _ => by rw [settle, release_mem, writeOut_OUT]⟩
  | error e =>
    refine ⟨fun e' he => ?_, nofun⟩
    obtain rfl : e = e' := Option.some.inj he
    rfl

/-- Every state inside an operation has the interface part that the operation began with, for any values of the two open
parameters. -/
theorem interfacePart_of_mem_states {W : CtrFieldBits} {policy : WrapPolicy} {i : Instr} {s u : State}
    (h : u ∈ (operationWith W policy i).states s) : interfacePart u = interfacePart (begin s) :=
  stagesStates_keeps (interfacePart_phaseFree (begin s)) _
    (stages_keep_interfacePart W policy i (begin s)) (begin s) rfl u h

theorem mem_of_mem_states {W : CtrFieldBits} {policy : WrapPolicy} {i : Instr} {s u : State}
    (h : u ∈ (operationWith W policy i).states s) : u.mem = s.mem.freshOut := by
  have hpart := interfacePart_of_mem_states h
  simp only [interfacePart, Prod.mk.injEq] at hpart
  obtain ⟨-, -, -, -, -, -, -, hmem⟩ := hpart
  exact hmem

/-- Settles O10: the interface part is that of the start of the operation, where `OUT` is made anew and the rest stands
as at issue. -/
theorem nothingIsReleasedInsideAnOperation : Obligations.NothingIsReleasedInsideAnOperation := by
  intro i s u hu
  rw [← operationWith_config] at hu
  have h := interfacePart_of_mem_states hu
  simp only [interfacePart, Prod.mk.injEq] at h
  obtain ⟨hop, hkey, hnonce, ha, hb, hstatus, herr, hmem⟩ := h
  have hbuf : u.mem = s.mem.freshOut := hmem
  exact ⟨⟨hop, hkey, hnonce, ha, hb, fun _ => by rw [hbuf, freshOut_AAD], fun _ => by rw [hbuf, freshOut_DATA]⟩,
    hstatus, herr, by rw [hbuf, freshOut_OUT]⟩

end Sys2Proof.Machine
end

section
/-! SUPPORT. The field GF(2^8), the tables and the cipher (40_block_cipher.md R111, R113, R114, R118, R119, R121, R128,
R132): the product as a map that commutes with multiplication by x, the transformations inverted on both sides, ENCBLK
and DECBLK one after the other, and the obligations about them. -/

namespace Sys2Proof.Machine

/-! ### The product in GF(2^8) -/

/-- A map of bytes that adds up over `⊕` and commutes with multiplication by x. -/
structure CommutesWithXtime (f : Byte → Byte) : Prop where
  xor : ∀ a b, f (a ^^^ b) = f a ^^^ f b
  xtime : ∀ a, f (xtime a) = xtime (f a)

/-- Such a map passes through the loop: each step adds `a` into `r` or does not, and multiplies `a` by x. -/
theorem CommutesWithXtime.map_gmulFrom {f : Byte → Byte} (hf : CommutesWithXtime f) (n i : Nat) (a b r : Byte) :
    f (gmulFrom n i a b r) = gmulFrom n i (f a) b (f r) := by
  induction n generalizing i a r with
  | zero => rfl
  | succ n ih => rw [gmulFrom, gmulFrom, ih, hf.xtime, apply_ite f, hf.xor]

theorem CommutesWithXtime.map_gmul {f : Byte → Byte} (hf : CommutesWithXtime f) (a b : Byte) :
    f (gmul a b) = gmul (f a) b := by
  have hzero : f 0 = 0 := by simpa using hf.xor 0 0
  rw [gmul, hf.map_gmulFrom, hzero, gmul]

theorem commutesWithXtime_xtime : CommutesWithXtime xtime := ⟨xtime_xor, fun _ => rfl⟩

theorem commutesWithXtime_gmul (b : Byte) : CommutesWithXtime fun a => gmul a b where
  xor a a' := gmul_xor a a' b
  xtime a := (commutesWithXtime_xtime.map_gmul a b).symm

/-- The product by `c` passes through the product by `b`. -/
theorem gmul_right_comm (a b c : Byte) : gmul (gmul a b) c = gmul (gmul a c) b :=
  (commutesWithXtime_gmul c).map_gmul a b

theorem one_gmul : ∀ b : Byte, gmul 1 b = b := by decide +kernel

theorem gmul_comm (a b : Byte) : gmul a b = gmul b a := by
  calc gmul a b = gmul (gmul 1 a) b := by rw [one_gmul]
    _ = gmul (gmul 1 b) a := gmul_right_comm 1 a b
    _ = gmul b a := by rw [one_gmul]

theorem gmul_assoc (a b c : Byte) : gmul (gmul a b) c = gmul a (gmul b c) := by
  rw [gmul_comm a b, gmul_right_comm, gmul_comm]

theorem gmul_xor_right (a b c : Byte) : gmul a (b ^^^ c) = gmul a b ^^^ gmul a c := by
  rw [gmul_comm, gmul_xor, gmul_comm b, gmul_comm c]

theorem gmul_zero (a : Byte) : gmul a 0 = 0 := by
  simpa using gmul_xor_right a 0 0

theorem gmul_one (a : Byte) : gmul a 1 = a := by
  rw [gmul_comm, one_gmul]

/-- The byte 2 is x. -/
theorem gmul_two (a : Byte) : gmul a 2 = xtime a := by
  calc gmul a 2 = gmul (xtime 1) a := gmul_comm a (xtime 1)
    _ = xtime (gmul 1 a) := (commutesWithXtime_gmul a).xtime 1
    _ = xtime a := by rw [one_gmul]

/-- The byte 3 is x + 1. -/
theorem gmul_three (a : Byte) : gmul a 3 = xtime a ^^^ a := by
  calc gmul a 3 = gmul a 2 ^^^ gmul a 1 := gmul_xor_right a 2 1
    _ = xtime a ^^^ a := by rw [gmul_two, gmul_one]

/-- Settles O36: the product by a byte adds up over `⊕` and commutes with multiplication by x, so it passes through a
second product; with 1 as the identity that gives commutativity and associativity. -/
theorem gmulIsFieldMultiplication : Obligations.GmulIsFieldMultiplication :=
  ⟨gmul_comm, gmul_assoc, gmul_xor_right, gmul_zero, gmul_one, gmul_two, gmul_three⟩

/-! ### The table -/

/-- The byte whose image under the affine map is `SBOX[a]`: the affine map undone. -/
def sboxPreimage (a : Byte) : Byte := (sbox a).rotateLeft 1 ^^^ (sbox a).rotateLeft 3 ^^^ (sbox a).rotateLeft 6 ^^^ 0x05

theorem sbox_eq_affine_sboxPreimage : ∀ a : Byte, sbox a =
    sboxPreimage a ^^^ (sboxPreimage a).rotateLeft 1 ^^^ (sboxPreimage a).rotateLeft 2 ^^^
      (sboxPreimage a).rotateLeft 3 ^^^ (sboxPreimage a).rotateLeft 4 ^^^ 0x63 := by
  decide +kernel

theorem gmul_sboxPreimage : ∀ a : Byte, a ≠ 0 → gmul a (sboxPreimage a) = 1 := by decide +kernel

/-- Settles O37: the byte that the affine map takes to the entry is the inverse of the index. -/
theorem sboxIsInverseThenAffineMap : Obligations.SboxIsInverseThenAffineMap := by
  refine fun a => ⟨sboxPreimage a, ?zero, gmul_sboxPreimage a, sbox_eq_affine_sboxPreimage a⟩
  case zero =>
    rintro rfl
    decide

/-! ### The transformations -/

/-- Settles O38: the source index of each byte, row by row and column by column. -/
theorem shiftRowsRotatesRowByItsNumber : Obligations.ShiftRowsRotatesRowByItsNumber := by
  intro S r c
  fin_cases r <;> fin_cases c <;> exact ⟨rfl, rfl⟩

/-- On the blocks, which are finitely many, a left inverse is a right inverse. -/
theorem rightInverse_block_of_leftInverse {f g : Block → Block} (h : Function.LeftInverse g f) :
    Function.RightInverse g f := by
  have hentries : Function.Injective fun (b : Block) (i : Fin 16) => b[i] := fun a b hab =>
    Vector.ext fun i hi => congrFun hab ⟨i, hi⟩
  have : Finite Block := Finite.of_injective _ hentries
  exact h.rightInverse_of_surjective (Finite.surjective_of_injective h.injective)

theorem leftInverse_invSbox_sbox : Function.LeftInverse invSbox sbox := invSbox_sbox

theorem sbox_invSbox (a : Byte) : sbox (invSbox a) = a :=
  leftInverse_invSbox_sbox.rightInverse_of_surjective
    (Finite.surjective_of_injective leftInverse_invSbox_sbox.injective) a

theorem mixColumns_invMixColumns (S : Block) : mixColumns (invMixColumns S) = S :=
  rightInverse_block_of_leftInverse invMixColumns_mixColumns S

/-- Settles O39: each inverse undoes its transformation, and on finitely many bytes and blocks so does the other order.
-/
theorem transformationsAreInverted : Obligations.TransformationsAreInverted :=
  ⟨fun a => ⟨invSbox_sbox a, sbox_invSbox a⟩, fun S rk r => ⟨invSubBytes_subBytes S, invShiftRows_shiftRows S,
    invMixColumns_mixColumns S, mixColumns_invMixColumns S, addRoundKey_addRoundKey rk r S⟩⟩

/-! ### The cipher and its inverse -/

@[simp] theorem cipher_invCipher (rk : Schedule) (b : Block) : cipher rk (invCipher rk b) = b :=
  rightInverse_block_of_leftInverse (invCipher_cipher rk) b

/-- Settles O41: the rounds are undone last one first, and a left inverse on finitely many blocks is a right inverse. -/
theorem cipherAndInvCipherUndoEachOther : Obligations.CipherAndInvCipherUndoEachOther :=
  fun rk b => ⟨invCipher_cipher rk b, cipher_invCipher rk b⟩

section
variable {s : State} {k : Bytes} (hk : s.P_KEY = some k) (hl : k.length = 16)
include hk hl

theorem exec_encblk {b : Block} (hb : s.P_A = some b) :
    exec .encblk s = .next (release (cipher (keyExpand (blockOf k)) b).toList s) :=
  (encblkEncryptsTheBlock.2 s k hk).1 hl b hb

theorem exec_decblk {b : Block} (hb : s.P_A = some b) :
    exec .decblk s = .next (release (invCipher (keyExpand (blockOf k)) b).toList s) :=
  (decblkDecryptsTheBlock.2 s k hk).1 hl b hb

end

/-! A block that one cipher made, under the other: the operand is given first, since it tells the state. -/

section
variable {s : State} {k : Bytes} {b : Block}

theorem exec_decblk_of_cipher (hb : s.P_A = some (cipher (keyExpand (blockOf k)) b)) (hk : s.P_KEY = some k)
    (hl : k.length = 16) : exec .decblk s = .next (release b.toList s) := by
  rw [exec_decblk hk hl hb, invCipher_cipher]

theorem exec_encblk_of_invCipher (hb : s.P_A = some (invCipher (keyExpand (blockOf k)) b)) (hk : s.P_KEY = some k)
    (hl : k.length = 16) : exec .encblk s = .next (release b.toList s) := by
  rw [exec_encblk hk hl hb, cipher_invCipher]

end

/-- A block released to `OUT` and put back as an operand. -/
theorem some_blockOf_writeOut (m : Memory) (b : Block) : some (blockOf (m.writeOut b.toList).OUT) = some b := by
  rw [writeOut_OUT, blockOf_toList]

/-- Settles O42: the block released is put back as the operand, under a key that no operation changes. -/
theorem encblkAndDecblkUndoEachOther : Obligations.EncblkAndDecblkUndoEachOther := by
  refine fun s t k b hk hl hb => ⟨fun ht => ?encrypted, fun ht => ?decrypted⟩
  case encrypted =>
    rw [exec_encblk hk hl hb] at ht
    cases ht
    exact exec_decblk_of_cipher (some_blockOf_writeOut s.mem _) hk hl
  case decrypted =>
    rw [exec_decblk hk hl hb] at ht
    cases ht
    exact exec_encblk_of_invCipher (some_blockOf_writeOut s.mem _) hk hl

end Sys2Proof.Machine
end

section
/-! SUPPORT. GCM (45_gcm.md R213, R218, R221, R223, 70_reset_and_hazards.md R280): GCMENC and GCMDEC as commands with
their tests in order, GCMDEC of what GCMENC released, with its tag and with another, two messages under one nonce, and
the obligations about them. -/

namespace Sys2Proof.Machine

/-- Settles O54: the register collects every bit in which the tags differ. -/
theorem tagCmpMatchesExactlyEqualTags : Obligations.TagCmpMatchesExactlyEqualTags :=
  fun _ _ => tagMatches_tagDiff_iff

/-! ### The stream of GCM -/

section
variable (rk : Schedule) (n : Bytes)

@[simp] theorem length_gcmStream (d : Bytes) : (gcmStream rk n d).length = d.length :=
  length_ctrFrom_chunks .w32 rk _ d

theorem gcmStream_gcmStream (d : Bytes) : gcmStream rk n (gcmStream rk n d) = d :=
  ctrFrom_chunks_ctrFrom_chunks .w32 rk _ d

theorem gcmStream_eq_xorBytes (d : Bytes) :
    gcmStream rk n d = xorBytes d (keystream .w32 rk (nchunks d.length) (firstCounterOf n)) :=
  ctrFrom_chunks .w32 rk _ d

end

/-- Two strings masked with the same bytes: where the mask is long enough, it cancels. -/
theorem xorBytes_xorBytes_cancel {a b m : Bytes} (hab : a.length = b.length) (hm : a.length ≤ m.length) :
    xorBytes (xorBytes a m) (xorBytes b m) = xorBytes a b := by
  apply List.ext_getElem
  · simp [hm, ← hab]
  · intro i h₁ h₂
    have hcancel : ∀ x y z : Byte, (x ^^^ z) ^^^ (y ^^^ z) = x ^^^ y := fun x y z => by
      rw [BitVec.xor_comm y z, BitVec.xor_assoc, ← BitVec.xor_assoc z z y, BitVec.xor_self, BitVec.zero_xor]
    simp only [xorBytes, List.getElem_zipWith, hcancel]

/-- Settles O59: plaintexts of one length meet the same keystream. -/
theorem nonceReuseRevealsTheXorOfPlaintexts : Obligations.NonceReuseRevealsTheXorOfPlaintexts := by
  intro rk n p q hlen
  rw [gcmStream_eq_xorBytes, gcmStream_eq_xorBytes, ← hlen]
  exact xorBytes_xorBytes_cancel hlen (by rw [length_keystream]; exact le_mul_nchunks p.length)

/-! ### GCMENC and GCMDEC with their tests -/

/-- Settles O34: the two tests shared with TAGGEN, the count, and past them the masked data and its tag. -/
theorem gcmencEncryptsAndTags : Obligations.GcmencEncryptsAndTags := by
  refine ⟨rfl, fun s k hk haad hdata => ⟨?keyLength, fun hl n hn => ⟨fun hnl => ?nonceLength, fun hnl ho => ?overflow,
    fun hnl hle => ⟨?released, length_gcmStream _ n s.mem.DATA⟩⟩⟩⟩
  case keyLength => exact exec_of_key_length_ne rfl (all_fits_pKey_pNonce_aad_data haad hdata) hk
  case nonceLength =>
    exact exec_of_yields (i := .gcmenc) (r := .error _) (all_fits_pKey_pNonce_aad_data haad hdata)
      (yields_of_nonce_length_ne hk hl hn hnl)
  case overflow =>
    exact execGcmencWith_of_counterOverflows ⟨hk, hn, hl, hnl, haad, hdata⟩ (counterOverflows_iff_length.2 ho)
  case released => exact exec_gcmenc ⟨hk, hn, hl, hnl, haad, hdata⟩ (nchunks_le_iff.2 hle)

/-! GCMDEC of an input written as a ciphertext followed by a tag. -/

section
variable {s : State} {k n c : Bytes} {t : Block} (hct : s.mem.DATA = c ++ t.toList) (h : GcmReady s k n)
include hct h

theorem exec_gcmdec_append_of_ne (ht : t ≠ gcmTag (keyExpand (blockOf k)) n s.mem.AAD c) :
    exec .gcmdec s = .next (enterError .authenticationFailed s) :=
  exec_gcmdec_of_tag_ne h (by simp [hct])
    (by rwa [hct, tagPart_append_toList, ciphertextPart_append_toList])

theorem exec_gcmdec_append_of_overflow (ht : t = gcmTag (keyExpand (blockOf k)) n s.mem.AAD c)
    (ho : c.length > 2 ^ 36) : exec .gcmdec s = .next (enterError .counterOverflow s) :=
  execGcmdecWith_of_counterOverflows h (by simp [hct])
    (by rwa [hct, tagPart_append_toList, ciphertextPart_append_toList])
    (by rw [hct, ciphertextPart_append_toList]; exact counterOverflows_iff_length.2 ho)

theorem exec_gcmdec_append (ht : t = gcmTag (keyExpand (blockOf k)) n s.mem.AAD c) (hle : c.length ≤ 2 ^ 36) :
    exec .gcmdec s = .next (release (gcmStream (keyExpand (blockOf k)) n c) s) := by
  have hrun := exec_gcmdec h (by simp [hct])
    (by rwa [hct, tagPart_append_toList, ciphertextPart_append_toList])
    (by rw [hct, ciphertextPart_append_toList]; exact nchunks_le_iff.2 hle)
  rwa [hct, ciphertextPart_append_toList] at hrun

end

/-- Settles O35: the length first, then key and nonce, then the tag over the ciphertext part, and the count last. -/
theorem gcmdecVerifiesThenDecrypts : Obligations.GcmdecVerifiesThenDecrypts := by
  refine ⟨rfl, fun s haad hdata => ⟨exec_gcmdec_of_length hdata haad, fun k hk => ⟨fun hlen hl => ?keyLength,
    fun hl n hn => ⟨fun hlen hnl => ?nonceLength, fun hnl c t hct => ?tagged⟩⟩⟩⟩
  case keyLength =>
    exact exec_gcmdec_of_yields (r := .error _) hdata haad (Nat.not_lt.2 hlen) (yields_raise (checkKey_raise hk hl))
  case nonceLength =>
    exact exec_gcmdec_of_yields (r := .error _) hdata haad (Nat.not_lt.2 hlen)
      (yields_of_nonce_length_ne hk hl hn hnl)
  case tagged =>
    have h : GcmReady s k n := ⟨hk, hn, hl, hnl, haad, hdata⟩
    exact ⟨exec_gcmdec_append_of_ne hct h, exec_gcmdec_append_of_overflow hct h, exec_gcmdec_append hct h⟩

/-! ### GCMDEC of what GCMENC released -/

/-- The mask is its own inverse, so a masked message with its tag gives the message. -/
theorem exec_gcmdec_of_gcmStream {s : State} {k n d : Bytes} (hd : d.length ≤ 2 ^ 36)
    (hdata : s.mem.DATA = gcmStream (keyExpand (blockOf k)) n d ++
      (gcmTag (keyExpand (blockOf k)) n s.mem.AAD (gcmStream (keyExpand (blockOf k)) n d)).toList)
    (hk : s.P_KEY = some k) (hl : k.length = 16) (hn : s.P_NONCE = some n) (hnl : n.length = 12)
    (haad : s.mem.AAD.length ≤ 2 ^ 61 - 1) : exec .gcmdec s = .next (release d s) := by
  have hlen : s.mem.DATA.length = d.length + 16 := by simp [hdata]
  have h : GcmReady s k n := ⟨hk, hn, hl, hnl, haad, by omega⟩
  rw [exec_gcmdec_append hdata h rfl (by rwa [length_gcmStream]), gcmStream_gcmStream]

/-- Settles O56: what GCMENC released is the masked data followed by its tag, which verifies. -/
theorem gcmdecUndoesGcmenc : Obligations.GcmdecUndoesGcmenc := by
  intro s t k n hk hl hn hnl haad hchunks ht
  have hlen : s.mem.DATA.length ≤ 2 ^ 36 := (nchunks_le_iff.1 hchunks).trans (by decide)
  have h : GcmReady s k n := ⟨hk, hn, hl, hnl, haad, by omega⟩
  rw [exec_gcmenc h (by omega)] at ht
  cases ht
  exact exec_gcmdec_of_gcmStream hlen (writeOut_OUT s.mem _) hk hl hn hnl haad

/-- Settles O57: the last 16 bytes released are the one tag that verifies for the ciphertext before them. -/
theorem anyChangedTagIsRejected : Obligations.AnyChangedTagIsRejected := by
  intro s t k n c tag tag' hk hl hn hnl haad hlen ht hout hne
  have h : GcmReady s k n := ⟨hk, hn, hl, hnl, haad, by omega⟩
  rw [exec_gcmenc h (nchunks_le_iff.2 hlen)] at ht
  cases ht
  rw [release_mem, writeOut_OUT] at hout
  obtain ⟨rfl, htag⟩ := List.append_inj' hout (by simp)
  obtain rfl := Vector.toList_inj.1 htag
  have hfits : (gcmStream (keyExpand (blockOf k)) n s.mem.DATA ++ tag'.toList).length ≤ 2 ^ 61 - 1 := by
    rw [List.length_append, length_gcmStream, Vector.length_toList]
    omega
  exact exec_gcmdec_append_of_ne rfl ⟨hk, hn, hl, hnl, haad, hfits⟩ hne

end Sys2Proof.Machine
end

section
/-! SUPPORT. What a step inside an operation reads and writes (00_scope.md R16, 70_reset_and_hazards.md R270):
registers by name, a judgement on steps with one rule per form, and the steps of the operations. -/

namespace Sys2Proof.Machine

/-! ### Registers by name -/

/-- The register holds a value (00_scope.md R16). -/
def State.holds (s : State) : Reg → Bool
  | .P_KEY => s.P_KEY.isSome
  | .P_NONCE => s.P_NONCE.isSome
  | .P_A => s.P_A.isSome
  | .P_B => s.P_B.isSome
  | .KEY => s.KEY.isSome
  | .RK => s.RK.isSome
  | .S => s.S.isSome
  | .CHAIN => s.CHAIN.isSome
  | .CB => s.CB.isSome
  | .KS => s.KS.isSome
  | .H => s.H.isSome
  | .ACC => s.ACC.isSome
  | .V => s.V.isSome
  | .Z => s.Z.isSome
  | .J0 => s.J0.isSome
  | .MASK => s.MASK.isSome
  | .TAG => s.TAG.isSome
  | .DIFF => s.DIFF.isSome
  | .PBUF => s.PBUF.isSome
  | .RBUF => s.RBUF.isSome

/-- The state with the registers of `W` taken out: two states with the same rest differ in `W` at most. -/
def State.without (s : State) (W : List Reg) : State :=
  { s with
    P_KEY := if .P_KEY ∈ W then none else s.P_KEY
    P_NONCE := if .P_NONCE ∈ W then none else s.P_NONCE
    P_A := if .P_A ∈ W then none else s.P_A
    P_B := if .P_B ∈ W then none else s.P_B
    KEY := if .KEY ∈ W then none else s.KEY
    RK := if .RK ∈ W then none else s.RK
    S := if .S ∈ W then none else s.S
    CHAIN := if .CHAIN ∈ W then none else s.CHAIN
    CB := if .CB ∈ W then none else s.CB
    KS := if .KS ∈ W then none else s.KS
    H := if .H ∈ W then none else s.H
    ACC := if .ACC ∈ W then none else s.ACC
    V := if .V ∈ W then none else s.V
    Z := if .Z ∈ W then none else s.Z
    J0 := if .J0 ∈ W then none else s.J0
    MASK := if .MASK ∈ W then none else s.MASK
    TAG := if .TAG ∈ W then none else s.TAG
    DIFF := if .DIFF ∈ W then none else s.DIFF
    PBUF := if .PBUF ∈ W then none else s.PBUF
    RBUF := if .RBUF ∈ W then none else s.RBUF }

theorem holds_without_of_notMem {s : State} {W : List Reg} {r : Reg} (h : r ∉ W) :
    (s.without W).holds r = s.holds r := by
  cases r <;> simp only [State.holds, State.without, if_neg h]

/-- From `s` to `t` the registers of `W` are written, and nothing else of the state. -/
structure Writes (W : List Reg) (s t : State) : Prop where
  frame : t.without W = s.without W
  held : W.all t.holds = true

section
variable {W : List Reg} {s t : State}

theorem Writes.phase (h : Writes W s t) : t.PHASE = s.PHASE := (congrArg State.PHASE h.frame :)

theorem Writes.blk (h : Writes W s t) : t.BLK = s.BLK := (congrArg State.BLK h.frame :)

theorem Writes.mem (h : Writes W s t) : t.mem = s.mem := (congrArg State.mem h.frame :)

section
variable (h : Writes W s t)
include h

theorem Writes.P_KEY_eq (hr : .P_KEY ∉ W) : t.P_KEY = s.P_KEY := by
  simpa only [State.without, if_neg hr] using congrArg State.P_KEY h.frame

theorem Writes.KEY_eq (hr : .KEY ∉ W) : t.KEY = s.KEY := by
  simpa only [State.without, if_neg hr] using congrArg State.KEY h.frame

theorem Writes.RK_eq (hr : .RK ∉ W) : t.RK = s.RK := by
  simpa only [State.without, if_neg hr] using congrArg State.RK h.frame

theorem Writes.CB_eq (hr : .CB ∉ W) : t.CB = s.CB := by
  simpa only [State.without, if_neg hr] using congrArg State.CB h.frame

theorem Writes.KS_eq (hr : .KS ∉ W) : t.KS = s.KS := by
  simpa only [State.without, if_neg hr] using congrArg State.KS h.frame

theorem Writes.TAG_eq (hr : .TAG ∉ W) : t.TAG = s.TAG := by
  simpa only [State.without, if_neg hr] using congrArg State.TAG h.frame

theorem Writes.DIFF_eq (hr : .DIFF ∉ W) : t.DIFF = s.DIFF := by
  simpa only [State.without, if_neg hr] using congrArg State.DIFF h.frame

theorem Writes.RBUF_eq (hr : .RBUF ∉ W) : t.RBUF = s.RBUF := by
  simpa only [State.without, if_neg hr] using congrArg State.RBUF h.frame

end

theorem Writes.holds_eq (h : Writes W s t) {r : Reg} (hr : r ∉ W) : t.holds r = s.holds r := by
  rw [← holds_without_of_notMem hr, h.frame, holds_without_of_notMem hr]

/-- No step takes a value away. -/
theorem Writes.holds_of_holds (h : Writes W s t) {r : Reg} (hs : s.holds r = true) : t.holds r = true := by
  by_cases hr : r ∈ W
  · exact List.all_eq_true.1 h.held r hr
  · exact (h.holds_eq hr).trans hs

end

/-! ### Reads and writes of one step -/

/-- The stop `y` is that a register of `R` holds no value in `s`. -/
abbrev Misses (R : List Reg) (s : State) (y : Fault) : Prop := ∃ r ∈ R, y = .noValue r ∧ s.holds r = false

/-- `x` reads the registers of `R`: it stops at one that holds no value, or all of them held one. -/
structure Reads {α : Type} (R : List Reg) (x : State → Res α) : Prop where
  faults : ∀ {s y}, x s = .fault y → Misses R s y
  held : ∀ {s a}, x s = .val a → ∀ r ∈ R, s.holds r = true

/-- The step `f` reads the registers of `R` and writes those of `W`. -/
structure Does (R W : List Reg) (f : State → Res State) : Prop extends Reads R f where
  writes : ∀ {s t}, f s = .val t → Writes W s t

section
variable {α : Type} {R W : List Reg}

theorem Reads.pure {v : State → α} : Reads [] fun s => .val (v s) := ⟨nofun, nofun⟩

theorem Reads.raise {e : Err} : Reads R fun _ => (.raise e : Res α) := ⟨nofun, nofun⟩

theorem Reads.refused {x : Refusal} : Reads R fun _ => (.refused x : Res α) := ⟨nofun, nofun⟩

theorem Reads.bind {β : Type} {R' : List Reg} {x : State → Res α} {g : α → State → Res β} (hx : Reads R x)
    (hg : ∀ a, Reads R' (g a)) : Reads (R ++ R') fun s => (x s).bind fun a => g a s where
  faults := by
    intro s y h
    rcases Res.bind_eq_fault.1 h with hfault | ⟨a, -, hfault⟩
    · obtain ⟨r, hr, hlacks⟩ := hx.faults hfault
      exact ⟨r, List.mem_append_left R' hr, hlacks⟩
    · obtain ⟨r, hr, hlacks⟩ := (hg a).faults hfault
      exact ⟨r, List.mem_append_right R hr, hlacks⟩
  held := by
    intro s b h
    obtain ⟨a, ha, hb⟩ := Res.bind_eq_val.1 h
    exact List.forall_mem_append.2 ⟨hx.held ha, (hg a).held hb⟩

/-- A register read by its name. -/
theorem Reads.need {r : Reg} {v : State → Option α} (hv : ∀ s, s.holds r = (v s).isSome) :
    Reads [r] fun s => need r (v s) where
  faults := by
    intro s y h
    cases hvs : v s with
    | none =>
      rw [hvs, need_none] at h
      exact ⟨r, List.mem_singleton_self r, (Res.fault.inj h).symm, by rw [hv, hvs, Option.isSome_none]⟩
    | some a =>
      rw [hvs, need_some] at h
      cases h
  held := by
    intro s a h
    rw [List.forall_mem_singleton, hv, need_eq_val.1 h, Option.isSome_some]

theorem Does.val {u : State → State} (h : ∀ s, Writes W s (u s)) : Does [] W fun s => .val (u s) :=
  ⟨.pure, fun hu => by cases hu; exact h _⟩

/-- A check that passes leaves the state as it is. -/
theorem Does.pass : Does [] [] .val := .val fun _ => ⟨rfl, rfl⟩

theorem Does.raise (e : Err) : Does R W fun _ => .raise e := ⟨.raise, nofun⟩

theorem Does.refused (x : Refusal) : Does R W fun _ => .refused x := ⟨.refused, nofun⟩

theorem Does.ite {p : State → Prop} [DecidablePred p] {f g : State → Res State} (hf : Does R W f) (hg : Does R W g) :
    Does R W fun s => if p s then f s else g s where
  faults := by
    intro s y h
    split at h
    · exact hf.faults h
    · exact hg.faults h
  held := by
    intro s t h
    split at h
    · exact hf.held h
    · exact hg.held h
  writes := by
    intro s t h
    split at h
    · exact hf.writes h
    · exact hg.writes h

theorem Does.bind {R' : List Reg} {x : State → Res α} {g : α → State → Res State} (hx : Reads R x)
    (hg : ∀ a, Does R' W (g a)) : Does (R ++ R') W fun s => (x s).bind fun a => g a s where
  toReads := hx.bind fun a => (hg a).toReads
  writes := by
    intro s t h
    obtain ⟨a, -, ht⟩ := Res.bind_eq_val.1 h
    exact (hg a).writes ht

/-- A step that reads one register and goes on with its value. -/
theorem Does.need {r : Reg} {v : State → Option α} {g : α → State → Res State}
    (hv : ∀ s, s.holds r = (v s).isSome) (hg : ∀ a, Does R W (g a)) :
    Does (r :: R) W fun s => (need r (v s)).bind fun a => g a s := .bind (.need hv) hg

/-- A step that goes on with the state in which a block made under the schedule stands in `S`: `encryptInto` and
`decryptInto` are of this form. -/
theorem Does.blockInS {f : Schedule → Block} {g : State → Res State}
    (hg : ∀ rk, Does R W fun s => g { s with S := some (f rk) }) :
    Does (.RK :: R) W fun s => ((Machine.need .RK s.RK).bind fun rk => .val { s with S := some (f rk) }).bind g := by
  have hbind : (fun s => ((Machine.need .RK s.RK).bind fun rk => .val { s with S := some (f rk) }).bind g) =
      fun s : State => (Machine.need .RK s.RK).bind fun rk => g { s with S := some (f rk) } := by
    funext s
    cases s.RK <;> rfl
  rw [hbind]
  exact .need (fun _ => rfl) hg

/-- A step that works on a value it takes from the buffers. -/
theorem Does.reading {x : State → α} {g : α → State → Res State} (hg : ∀ a, Does R W (g a)) :
    Does R W fun s => g (x s) s := ⟨⟨(hg _).faults, (hg _).held⟩, (hg _).writes⟩

end

/-! ### The steps of the operations -/

theorem does_checkKey : Does [.P_KEY] [] checkKey := .need (fun _ => rfl) fun _ => .ite .pass (.raise _)

theorem does_checkNonce : Does [.P_NONCE] [] checkNonce := .need (fun _ => rfl) fun _ => .ite .pass (.raise _)

theorem does_expandKey : Does [.P_KEY] [.KEY, .RK] expandKey :=
  .need (fun _ => rfl) fun _ => .ite (.val fun _ => ⟨rfl, rfl⟩) (.raise _)

theorem does_encryptInto (b : Block) : Does [.RK] [.S] (encryptInto b) :=
  .need (fun _ => rfl) fun _ => .val fun _ => ⟨rfl, rfl⟩

theorem does_decryptInto (b : Block) : Does [.RK] [.S] (decryptInto b) :=
  .need (fun _ => rfl) fun _ => .val fun _ => ⟨rfl, rfl⟩

theorem does_startCopy : Does [] [.RBUF] startCopy := .val fun _ => ⟨rfl, rfl⟩

theorem does_copyChunk (c : Bytes) : Does [.RBUF] [.RBUF] (copyChunk c) :=
  .need (fun _ => rfl) fun _ => .val fun _ => ⟨rfl, rfl⟩

theorem does_appendPadding : Does [.RBUF] [.RBUF] appendPadding :=
  .need (fun _ => rfl) fun _ => .val fun _ => ⟨rfl, rfl⟩

theorem does_stripPadding : Does [.RBUF] [.RBUF] stripPadding := by
  refine .need (fun _ => rfl) fun data => ?_
  cases unpadBytes Config.padBlock data with
  | some r => exact .val fun _ => ⟨rfl, rfl⟩
  | none => exact .raise _

theorem does_padForCbc : Does [.RBUF] [.PBUF] padForCbc :=
  .need (fun _ => rfl) fun _ => .val fun _ => ⟨rfl, rfl⟩

theorem does_loadIv : Does [.P_A] [.CHAIN, .RBUF] loadIv :=
  .need (fun _ => rfl) fun _ => .val fun _ => ⟨rfl, rfl⟩

theorem does_cbcEncChunk (c : Bytes) : Does [.CHAIN, .RBUF, .RK] [.S, .CHAIN, .RBUF] (cbcEncChunk c) :=
  .need (fun _ => rfl) fun _ => .need (fun _ => rfl) fun _ => .blockInS fun _ => .val fun _ => ⟨rfl, rfl⟩

theorem does_cbcDecChunk (c : Bytes) : Does [.CHAIN, .RBUF, .RK] [.S, .CHAIN, .RBUF] (cbcDecChunk c) :=
  .need (fun _ => rfl) fun _ => .need (fun _ => rfl) fun _ => .blockInS fun _ => .val fun _ => ⟨rfl, rfl⟩

theorem does_checkCiphertextLength : Does [] [] checkCiphertextLength := .ite (.raise _) .pass

theorem does_checkCount_wrap (W : CtrFieldBits) (c0 : State → Res Nat) (len : State → Nat) :
    Does [] [] fun s => checkCount W .wrap c0 (len s) s := .ite (.raise _) .pass

/-- The first counter of GCM is read from no register, so the test of the wrap reads none. -/
theorem does_checkCount_gcm (policy : WrapPolicy) (len : State → Nat) :
    Does [] [] fun s => checkCount .w32 policy gcmFirstCounter (len s) s :=
  .ite (.raise _) <|
    match policy with
    | .wrap => .pass
    | .refuse => .ite (.refused _) .pass

theorem does_loadCounter (cb : Block) : Does [] [.CB, .RBUF] (loadCounter cb) := .val fun _ => ⟨rfl, rfl⟩

theorem does_loadGcmCounter : Does [.P_NONCE] [.CB, .RBUF] loadGcmCounter :=
  .need (fun _ => rfl) fun _ => does_loadCounter _

theorem does_ctrChunk (W : CtrFieldBits) (c : Bytes) : Does [.CB, .RBUF, .RK] [.S, .KS, .CB, .RBUF] (ctrChunk W c) :=
  .need (fun _ => rfl) fun _ => .need (fun _ => rfl) fun _ => .blockInS fun _ => .val fun _ => ⟨rfl, rfl⟩

theorem does_clearAcc : Does [] [.ACC] clearAcc := .val fun _ => ⟨rfl, rfl⟩

theorem does_ghashFold (b : Block) : Does [.ACC, .H] [.Z, .V, .ACC] (ghashFold b) :=
  .need (fun _ => rfl) fun _ => .need (fun _ => rfl) fun _ => .val fun _ => ⟨rfl, rfl⟩

theorem does_deriveSubkey : Does [.RK] [.S, .H] deriveSubkey := .blockInS fun _ => .val fun _ => ⟨rfl, rfl⟩

theorem does_loadJ0 : Does [.P_NONCE] [.J0] loadJ0 := .need (fun _ => rfl) fun _ => .val fun _ => ⟨rfl, rfl⟩

theorem does_computeMask : Does [.J0, .RK] [.S, .MASK] computeMask :=
  .need (fun _ => rfl) fun _ => .blockInS fun _ => .val fun _ => ⟨rfl, rfl⟩

theorem does_computeTag : Does [.ACC, .MASK] [.TAG] computeTag :=
  .need (fun _ => rfl) fun _ => .need (fun _ => rfl) fun _ => .val fun _ => ⟨rfl, rfl⟩

theorem does_splitInput : Does [] [.PBUF] splitInput := .ite (.raise _) (.val fun _ => ⟨rfl, rfl⟩)

theorem does_compareReceivedTag : Does [.TAG] [.DIFF] compareReceivedTag :=
  .need (fun _ => rfl) fun _ => .val fun _ => ⟨rfl, rfl⟩

theorem does_judgeDiff : Does [.DIFF] [] judgeDiff := .need (fun _ => rfl) fun _ => .ite .pass (.raise _)

end Sys2Proof.Machine
end

section
/-! SUPPORT. The effects of the fourteen operations (10_state.md R24, 70_reset_and_hazards.md R270): what each stage
reads and writes, as a table, and the stages that have these effects. -/

namespace Sys2Proof.Machine

/-! ### The effect of a stage -/

/-- What a stage reads and writes: an act; a loop, with what it reads to find its chunks, and what the step of one chunk
reads and writes; or key expansion, the one act that writes the round-key file. -/
inductive Effect where
  | act (reads writes : List Reg)
  | loop (items reads writes : List Reg)
  | expandKey

/-- What the stage may read. -/
def Effect.mayRead : Effect → List Reg
  | .act R _ => R
  | .loop I R _ => I ++ R
  | .expandKey => [.P_KEY]

/-- What the stage reads on every run: a loop may have no chunk. -/
def Effect.mustRead : Effect → List Reg
  | .act R _ => R
  | .loop I _ _ => I
  | .expandKey => [.P_KEY]

/-- What the stage may write. -/
def Effect.mayWrite : Effect → List Reg
  | .act _ W => W
  | .loop _ _ W => W
  | .expandKey => [.KEY, .RK]

/-- What the stage writes on every run. -/
def Effect.mustWrite : Effect → List Reg
  | .act _ W => W
  | .loop _ _ _ => []
  | .expandKey => [.KEY, .RK]

/-- Key expansion is the effect. -/
def Effect.isExpandKey : Effect → Bool
  | .act _ _ => false
  | .loop _ _ _ => false
  | .expandKey => true

/-- The stage has the effect. -/
inductive Stage.HasEffect : Stage → Effect → Prop where
  | act {p : Phase} {f : State → Res State} {R W : List Reg} (hf : Does R W f) : HasEffect (.act p f) (.act R W)
  | each {p : Phase} {items : State → Res (List Bytes)} {f : Bytes → State → Res State} {I R W : List Reg}
    (hitems : Reads I items) (hf : ∀ c, Does R W (f c)) : HasEffect (.each p items f) (.loop I R W)
  | expandKey : HasEffect stageKeyExpand .expandKey

/-! ### The table -/

/-- The effects of `copyDataStages`. -/
def copyEffects : List Effect := [.act [] [.RBUF], .loop [] [.RBUF] [.RBUF]]

/-- The effects of `hashStages c` and `hashTagStages c`, where `c` reads the registers of `C`. -/
def hashEffects (C : List Reg) : List Effect :=
  [.act [] [.ACC], .loop [] [.ACC, .H] [.Z, .V, .ACC], .loop C [.ACC, .H] [.Z, .V, .ACC],
    .act (C ++ [.ACC, .H]) [.Z, .V, .ACC]]

def hashTagEffects (C : List Reg) : List Effect := hashEffects C ++ [.act [.ACC, .MASK] [.TAG]]

/-- The effects of the checks of key and nonce, the schedule, the subkey and `J0`. -/
def gcmKeyEffects : List Effect :=
  [.act [.P_KEY] [], .act [.P_NONCE] [], .expandKey, .act [.RK] [.S, .H], .act [.P_NONCE] [.J0]]

/-- The effects of the counter-mode stages of GCM over the chunks found in the registers of `I`. -/
def gcmCtrEffects (I : List Reg) : List Effect :=
  [.act [.P_NONCE] [.CB, .RBUF], .loop I [.CB, .RBUF, .RK] [.S, .KS, .CB, .RBUF]]

/-- The effects of each operation's stages, in their order. -/
def effectsOf : Instr → List Effect
  | .keyexp => [.act [.P_KEY] [], .expandKey]
  | .encblk => [.act [.P_KEY] [], .expandKey, .act [.P_A, .RK] [.S]]
  | .decblk => [.act [.P_KEY] [], .expandKey, .act [.P_A, .RK] [.S]]
  | .pad => copyEffects ++ [.act [.RBUF] [.RBUF]]
  | .unpad => copyEffects ++ [.act [.RBUF] [.RBUF]]
  | .cbcenc =>
    [.act [.P_KEY] [], .expandKey] ++ copyEffects ++
      [.act [.RBUF] [.PBUF], .act [.P_A] [.CHAIN, .RBUF], .loop [.PBUF] [.CHAIN, .RBUF, .RK] [.S, .CHAIN, .RBUF]]
  | .cbcdec =>
    [.act [] [], .act [.P_KEY] [], .expandKey, .act [.P_A] [.CHAIN, .RBUF],
      .loop [] [.CHAIN, .RBUF, .RK] [.S, .CHAIN, .RBUF], .act [.RBUF] [.RBUF]]
  | .ctrxfrm =>
    [.act [.P_KEY] [], .act [] [], .expandKey, .act [.P_A] [.CB, .RBUF],
      .loop [] [.CB, .RBUF, .RK] [.S, .KS, .CB, .RBUF]]
  | .gfmul => [.act [.P_A, .P_B] [.Z, .V]]
  | .ghash => .act [.P_A] [.H] :: hashEffects []
  | .taggen => gcmKeyEffects ++ [.act [.J0, .RK] [.S, .MASK]] ++ hashTagEffects []
  | .tagcmp => [.act [.P_A, .P_B] [.DIFF], .act [.DIFF] []]
  | .gcmenc =>
    gcmKeyEffects ++ .act [] [] :: (gcmCtrEffects [] ++ [.act [.J0, .RK] [.S, .MASK]]) ++ hashTagEffects [.RBUF]
  | .gcmdec =>
    .act [] [.PBUF] :: (gcmKeyEffects ++ [.act [.J0, .RK] [.S, .MASK]]) ++ hashTagEffects [.PBUF] ++
      .act [.TAG] [.DIFF] :: .act [.DIFF] [] :: .act [.PBUF] [] :: gcmCtrEffects [.PBUF]

/-- What each operation reads for its result. -/
def resultReads : Instr → List Reg
  | .keyexp => [.RK]
  | .encblk => [.S]
  | .decblk => [.S]
  | .pad => [.RBUF]
  | .unpad => [.RBUF]
  | .cbcenc => [.RBUF]
  | .cbcdec => [.RBUF]
  | .ctrxfrm => [.RBUF]
  | .gfmul => [.Z]
  | .ghash => [.ACC]
  | .taggen => [.TAG]
  | .tagcmp => []
  | .gcmenc => [.RBUF, .TAG]
  | .gcmdec => [.RBUF]

/-! ### The stages have the effects of the table -/

/-- The stages of `gs` have the effects of `es`, one by one. -/
def HaveEffects (gs : List Stage) (es : List Effect) : Prop := List.Forall₂ Stage.HasEffect gs es

theorem HaveEffects.nil : HaveEffects [] [] := List.Forall₂.nil

theorem HaveEffects.act {p : Phase} {f : State → Res State} {R W : List Reg} {gs : List Stage} {es : List Effect}
    (hf : Does R W f) (h : HaveEffects gs es) : HaveEffects (.act p f :: gs) (.act R W :: es) := .cons (.act hf) h

theorem HaveEffects.each {p : Phase} {items : State → Res (List Bytes)} {f : Bytes → State → Res State}
    {I R W : List Reg} {gs : List Stage} {es : List Effect} (hitems : Reads I items) (hf : ∀ c, Does R W (f c))
    (h : HaveEffects gs es) : HaveEffects (.each p items f :: gs) (.loop I R W :: es) := .cons (.each hitems hf) h

theorem HaveEffects.expandKey {gs : List Stage} {es : List Effect} (h : HaveEffects gs es) :
    HaveEffects (stageKeyExpand :: gs) (.expandKey :: es) := .cons .expandKey h

theorem HaveEffects.append {gs gs' : List Stage} {es es' : List Effect} (h : HaveEffects gs es)
    (h' : HaveEffects gs' es') : HaveEffects (gs ++ gs') (es ++ es') := List.rel_append h h'

theorem copyDataStages_effects (p : Phase) : HaveEffects (copyDataStages p) copyEffects :=
  .act does_startCopy <| .each .pure does_copyChunk .nil

theorem reads_resultRbuf : Reads [.RBUF] resultRbuf := .need fun _ => rfl

theorem reads_resultPbuf : Reads [.PBUF] resultPbuf := .need fun _ => rfl

theorem reads_pbufChunks : Reads [.PBUF] pbufChunks := .bind (.need fun _ => rfl) fun _ => .pure

section
variable {c : State → Res Bytes} {C : List Reg} (hc : Reads C c)
include hc

theorem hashStages_effects : HaveEffects (hashStages c) (hashEffects C) := by
  have hchunks : Reads (C ++ []) fun s => (c s).bind fun b => .val (chunks b) := .bind hc fun _ => .pure
  rw [List.append_nil] at hchunks
  refine .act does_clearAcc <| .each .pure (fun _ => does_ghashFold _) <| .each hchunks (fun _ => does_ghashFold _) <|
    .act (.bind hc fun b => ?lengths) .nil
  case lengths =>
    exact .reading (x := fun s => s.mem.AAD.length) (g := fun n => ghashFold (lengthBlock n b.length))
      fun _ => does_ghashFold _

theorem hashTagStages_effects : HaveEffects (hashTagStages c) (hashTagEffects C) :=
  .append (hashStages_effects hc) (.act does_computeTag .nil)

end

section
variable {gs : List Stage} {es : List Effect} (h : HaveEffects gs es)
include h

theorem gcmKeyStages_effects (p : Phase) :
    HaveEffects
      (stageKeyCheck :: stageNonceCheck :: stageKeyExpand :: .act .subkey deriveSubkey :: .act p loadJ0 :: gs)
      (gcmKeyEffects ++ es) :=
  .act does_checkKey <| .act does_checkNonce <| .expandKey <| .act does_deriveSubkey <| .act does_loadJ0 h

theorem gcmCtrStages_effects {items : State → Res (List Bytes)} {I : List Reg} (hitems : Reads I items) :
    HaveEffects (.act .ctr loadGcmCounter :: .each .ctr items (ctrChunk .w32) :: gs) (gcmCtrEffects I ++ es) :=
  .act does_loadGcmCounter <| .each hitems (does_ctrChunk _) h

end

theorem gcmdecOp_effects (policy : WrapPolicy) : HaveEffects (gcmdecOp policy).stages (effectsOf .gcmdec) := by
  refine .append (.append (.act does_splitInput ?keyAndMask) (hashTagStages_effects reads_resultPbuf)) ?compareAndCtr
  case keyAndMask => exact gcmKeyStages_effects (.act does_computeMask .nil) _
  case compareAndCtr =>
    exact .act does_compareReceivedTag <| .act does_judgeDiff <|
      .act (.need (fun _ => rfl) fun _ => does_checkCount_gcm policy _) <| gcmCtrStages_effects .nil reads_pbufChunks

theorem operationOf_effects (i : Instr) : HaveEffects (operationOf i).stages (effectsOf i) := by
  cases i
  case keyexp => exact .act does_checkKey <| .expandKey .nil
  case encblk =>
    exact .act does_checkKey <| .expandKey <| .act (.need (fun _ => rfl) does_encryptInto) .nil
  case decblk =>
    exact .act does_checkKey <| .expandKey <| .act (.need (fun _ => rfl) does_decryptInto) .nil
  case pad => exact .append (copyDataStages_effects _) <| .act does_appendPadding .nil
  case unpad => exact .append (copyDataStages_effects _) <| .act does_stripPadding .nil
  case cbcenc =>
    exact .act does_checkKey <| .expandKey <| .append (copyDataStages_effects _) <| .act does_padForCbc <|
      .act does_loadIv <| .each reads_pbufChunks does_cbcEncChunk .nil
  case cbcdec =>
    exact .act does_checkCiphertextLength <| .act does_checkKey <| .expandKey <| .act does_loadIv <|
      .each .pure does_cbcDecChunk <| .act does_stripPadding .nil
  case ctrxfrm =>
    exact .act does_checkKey <| .act (does_checkCount_wrap _ _ _) <| .expandKey <|
      .act (.need (fun _ => rfl) does_loadCounter) <| .each .pure (does_ctrChunk _) .nil
  case gfmul =>
    exact .act (.need (fun _ => rfl) fun _ => .need (fun _ => rfl) fun _ => .val fun _ => ⟨rfl, rfl⟩) .nil
  case ghash => exact .act (.need (fun _ => rfl) fun _ => .val fun _ => ⟨rfl, rfl⟩) <| hashStages_effects .pure
  case taggen =>
    exact .append (gcmKeyStages_effects (.act does_computeMask .nil) _) (hashTagStages_effects .pure)
  case tagcmp =>
    exact .act (.need (fun _ => rfl) fun _ => .need (fun _ => rfl) fun _ => .val fun _ => ⟨rfl, rfl⟩) <|
      .act does_judgeDiff .nil
  case gcmenc =>
    refine .append (gcmKeyStages_effects (.act (does_checkCount_gcm _ _) ?_) _) (hashTagStages_effects reads_resultRbuf)
    exact gcmCtrStages_effects (.act does_computeMask .nil) .pure
  case gcmdec => exact gcmdecOp_effects _

theorem operationOf_result_reads (i : Instr) : Reads (resultReads i) (operationOf i).result := by
  cases i
  case keyexp => exact .bind (.need fun _ => rfl) fun _ => .pure
  case encblk => exact .bind (.need fun _ => rfl) fun _ => .pure
  case decblk => exact .bind (.need fun _ => rfl) fun _ => .pure
  case gfmul => exact .bind (.need fun _ => rfl) fun _ => .pure
  case ghash => exact .bind (.need fun _ => rfl) fun _ => .pure
  case taggen => exact .bind (.need fun _ => rfl) fun _ => .pure
  case tagcmp => exact .pure
  case gcmenc => exact .bind reads_resultRbuf fun _ => .bind (.need fun _ => rfl) fun _ => .pure
  all_goals exact reads_resultRbuf

end Sys2Proof.Machine
end

section
/-! SUPPORT. Commands with and without their operands (00_scope.md R8, R16, 70_reset_and_hazards.md R270, R272, R274):
where a run can stop and what a result has read, decided on the table of effects, and the obligations about them. -/

namespace Sys2Proof.Machine

/-! ### How a run ends, from its first part -/

section
variable {p : Phase} {f : State → Res State} {s t : State} {y : Fault}

theorem run_act_eq_done : (Stage.act p f).run s = .done t ↔ f (enterPhase p s) = .val t := by
  rw [Stage.run]
  cases f (enterPhase p s) <;> simp

theorem run_act_eq_fault : (Stage.act p f).run s = .fault y ↔ f (enterPhase p s) = .fault y := by
  rw [Stage.run]
  cases f (enterPhase p s) <;> simp

end

section
variable {p : Phase} {items : State → Res (List Bytes)} {f : Bytes → State → Res State} {s t : State} {y : Fault}

theorem run_each_eq_done : (Stage.each p items f).run s = .done t ↔
    ∃ l, items (enterLoop p s) = .val l ∧ runEach f l (enterLoop p s) = .done t := by
  rw [Stage.run]
  cases items (enterLoop p s) <;> simp

theorem run_each_eq_fault : (Stage.each p items f).run s = .fault y ↔
    items (enterLoop p s) = .fault y ∨
      ∃ l, items (enterLoop p s) = .val l ∧ runEach f l (enterLoop p s) = .fault y := by
  rw [Stage.run]
  cases items (enterLoop p s) <;> simp

theorem runEach_cons_eq_fault {c : Bytes} {cs : List Bytes} : runEach f (c :: cs) s = .fault y ↔
    f c s = .fault y ∨ ∃ t, f c s = .val t ∧ runEach f cs (advanceBlk t) = .fault y := by
  rw [runEach]
  cases f c s <;> simp

end

section
variable {result : State → Res Bytes} {g : Stage} {gs : List Stage} {s t : State}

theorem runStages_cons_eq_done :
    runStages (g :: gs) s = .done t ↔ ∃ u, g.run s = .done u ∧ runStages gs u = .done t := by
  rw [runStages]
  cases g.run s <;> simp

theorem yields_nil_fault {y : Fault} :
    (runStages [] s).Yields result (.fault y) ↔ result (enterPhase .commit s) = .fault y := by
  rw [runStages, Run.Yields]
  cases result (enterPhase .commit s) <;> simp [eq_comm]

theorem yields_cons_fault {y : Fault} : (runStages (g :: gs) s).Yields result (.fault y) ↔
    g.run s = .fault y ∨ ∃ u, g.run s = .done u ∧ (runStages gs u).Yields result (.fault y) := by
  rw [runStages]
  cases g.run s <;> simp [Run.Yields, eq_comm]

theorem yields_cons_ok {out : Bytes} : (runStages (g :: gs) s).Yields result (.ok out) ↔
    ∃ u, g.run s = .done u ∧ (runStages gs u).Yields result (.ok out) := by
  rw [runStages]
  cases g.run s <;> simp [Run.Yields]

end

/-! ### Which registers hold a value after a stage -/

@[simp] theorem holds_enterPhase (p : Phase) (s : State) (r : Reg) : (enterPhase p s).holds r = s.holds r := by
  cases r <;> rfl

@[simp] theorem holds_enterLoop (p : Phase) (s : State) (r : Reg) : (enterLoop p s).holds r = s.holds r := by
  cases r <;> rfl

@[simp] theorem holds_advanceBlk (s : State) (r : Reg) : (advanceBlk s).holds r = s.holds r := by
  cases r <;> rfl

/-- From `s` to `t` no register has lost its value, and none outside `W` has got one. -/
structure Gains (W : List Reg) (s t : State) : Prop where
  kept : ∀ r, s.holds r = true → t.holds r = true
  same : ∀ r, r ∉ W → t.holds r = s.holds r

theorem Gains.refl {W : List Reg} {s : State} : Gains W s s := ⟨fun _ h => h, fun _ _ => rfl⟩

theorem Gains.lacked {W : List Reg} {s t : State} (h : Gains W s t) {r : Reg} (ht : t.holds r = false) :
    s.holds r = false :=
  Bool.eq_false_iff.2 fun hs => Bool.eq_false_iff.1 ht (h.kept r hs)

theorem gains_phaseFree (W : List Reg) (s : State) : PhaseFree (Gains W s) where
  phase p u h := ⟨fun r hr => (holds_enterPhase p u r).trans (h.kept r hr),
    fun r hr => (holds_enterPhase p u r).trans (h.same r hr)⟩
  loop p u h := ⟨fun r hr => (holds_enterLoop p u r).trans (h.kept r hr),
    fun r hr => (holds_enterLoop p u r).trans (h.same r hr)⟩
  blk u h := ⟨fun r hr => (holds_advanceBlk u r).trans (h.kept r hr),
    fun r hr => (holds_advanceBlk u r).trans (h.same r hr)⟩

section
variable {R W : List Reg}

theorem Does.gains {f : State → Res State} (hf : Does R W f) {s u t : State} (hs : Gains W s u) (h : f u = .val t) :
    Gains W s t where
  kept r hr := (hf.writes h).holds_of_holds (hs.kept r hr)
  same r hr := ((hf.writes h).holds_eq hr).trans (hs.same r hr)

/-- A loop that stops does so at a register its chunks read, which held no value when the loop was entered. -/
theorem misses_of_runEach_fault {f : Bytes → State → Res State} (hf : ∀ c, Does R W (f c)) {cs : List Bytes} {s : State}
    {y : Fault} (h : runEach f cs s = .fault y) : Misses R s y := by
  induction cs generalizing s with
  | nil => cases h
  | cons c cs ih =>
    rcases runEach_cons_eq_fault.1 h with hstop | ⟨t, hc, hrest⟩
    · exact (hf c).faults hstop
    · obtain ⟨r, hr, hy, hlacks⟩ := ih hrest
      rw [holds_advanceBlk] at hlacks
      exact ⟨r, hr, hy, ((hf c).gains .refl hc).lacked hlacks⟩

end

/-! The entry to a stage changes no register that can hold no value. -/

section
variable {R : List Reg} {p : Phase} {s : State} {y : Fault}

theorem misses_enterPhase : Misses R (enterPhase p s) y ↔ Misses R s y := by
  simp only [Misses, holds_enterPhase]

theorem misses_enterLoop : Misses R (enterLoop p s) y ↔ Misses R s y := by
  simp only [Misses, holds_enterLoop]

theorem Misses.mono {R' : List Reg} (h : Misses R s y) (hR : R ⊆ R') : Misses R' s y := by
  obtain ⟨r, hr, hlacks⟩ := h
  exact ⟨r, hR hr, hlacks⟩

end

section
variable {g : Stage} {e : Effect}

theorem Stage.HasEffect.keeps_gains (h : g.HasEffect e) (s : State) : g.Keeps (Gains e.mayWrite s) := by
  cases h with
  | act hf => exact fun _ _ hu ht => hf.gains hu ht
  | each _ hf => exact fun c _ _ hu ht => (hf c).gains hu ht
  | expandKey => exact fun _ _ hu ht => does_expandKey.gains hu ht

theorem Stage.HasEffect.gains (h : g.HasEffect e) {s t : State} (hrun : g.run s = .done t) : Gains e.mayWrite s t := by
  have hends := Stage.run_keeps (gains_phaseFree e.mayWrite s) (h.keeps_gains s) .refl
  rwa [hrun] at hends

section
variable {R W : List Reg} {p : Phase} {f : State → Res State} (hf : Does R W f) {s : State}
include hf

theorem misses_of_run_act_fault {y : Fault} (h : (Stage.act p f).run s = .fault y) : Misses R s y :=
  misses_enterPhase.1 (hf.faults (run_act_eq_fault.1 h))

theorem holds_of_run_act_done {t : State} (h : (Stage.act p f).run s = .done t) :
    (∀ r ∈ R, s.holds r = true) ∧ ∀ r ∈ W, t.holds r = true := by
  have hval := run_act_eq_done.1 h
  exact ⟨fun r hr => (holds_enterPhase p s r).symm.trans (hf.held hval r hr),
    List.all_eq_true.1 (hf.writes hval).held⟩

end

/-- A stage that stops does so at a register it reads, which held no value when the stage was entered. -/
theorem Stage.HasEffect.fault (h : g.HasEffect e) {s : State} {y : Fault} (hrun : g.run s = .fault y) :
    Misses e.mayRead s y := by
  cases h with
  | act hf => exact misses_of_run_act_fault hf hrun
  | expandKey => exact misses_of_run_act_fault does_expandKey hrun
  | @each p items f I R W hitems hf =>
    rcases run_each_eq_fault.1 hrun with hstop | ⟨l, -, hstop⟩
    · exact (misses_enterLoop.1 (hitems.faults hstop)).mono (List.subset_append_left I R)
    · exact (misses_enterLoop.1 (misses_of_runEach_fault hf hstop)).mono (List.subset_append_right I R)

/-- A stage that is done found a value in what it reads on every run, and left one in what it writes on every run. -/
theorem Stage.HasEffect.done (h : g.HasEffect e) {s t : State} (hrun : g.run s = .done t) :
    (∀ r ∈ e.mustRead, s.holds r = true) ∧ ∀ r ∈ e.mustWrite, t.holds r = true := by
  cases h with
  | act hf => exact holds_of_run_act_done hf hrun
  | expandKey => exact holds_of_run_act_done does_expandKey hrun
  | @each p items f I R W hitems hf =>
    obtain ⟨l, hl, -⟩ := run_each_eq_done.1 hrun
    exact ⟨fun r hr => (holds_enterLoop p s r).symm.trans (hitems.held hl r hr), nofun⟩

end

/-! ### Reads before writes, decided on the table -/

/-- Every register that the stages read, and then the result, is in `K` or written on every run by a stage before. -/
def readsCovered (result : List Reg) : List Reg → List Effect → Bool
  | K, [] => result.all (· ∈ K)
  | K, e :: es => e.mayRead.all (· ∈ K) && readsCovered result (K ++ e.mustWrite) es

/-- A stop at a covered read is at a register of `A`, where the rest of `K` holds a value. -/
theorem misses_of_covered {A K R : List Reg} {s : State} {y : Fault} (hs : ∀ r ∈ K, r ∈ A ∨ s.holds r = true)
    (hR : R.all (· ∈ K) = true) (h : Misses R s y) : Misses A s y := by
  obtain ⟨r, hr, hy, hlacks⟩ := h
  have hK : r ∈ K := by simpa using List.all_eq_true.1 hR r hr
  exact ⟨r, (hs r hK).resolve_right (Bool.eq_false_iff.1 hlacks), hy, hlacks⟩

section
variable {result : State → Res Bytes} {C : List Reg} {gs : List Stage} {es : List Effect} {s : State}

/-- Where every read is covered, a run stops at a register of `A` alone, which held no value when it began: the rest of
`K` held one. -/
theorem misses_of_yields_fault {A K : List Reg} {y : Fault} (hresult : Reads C result) (h : HaveEffects gs es)
    (hcover : readsCovered C K es = true) (hs : ∀ r ∈ K, r ∈ A ∨ s.holds r = true)
    (hy : (runStages gs s).Yields result (.fault y)) : Misses A s y := by
  induction h generalizing K s with
  | nil => exact misses_of_covered hs hcover (misses_enterPhase.1 (hresult.faults (yields_nil_fault.1 hy)))
  | @cons g e gs es hge _ ih =>
    rw [readsCovered, Bool.and_eq_true] at hcover
    obtain ⟨hreads, hcover⟩ := hcover
    rcases yields_cons_fault.1 hy with hstop | ⟨t, hrun, hy⟩
    · exact misses_of_covered hs hreads (hge.fault hstop)
    · have hgains := hge.gains hrun
      have ht : ∀ r ∈ K ++ e.mustWrite, r ∈ A ∨ t.holds r = true := List.forall_mem_append.2
        ⟨fun r hr => (hs r hr).imp_right (hgains.kept r), fun r hr => .inr ((hge.done hrun).2 r hr)⟩
      obtain ⟨r, hr, hyr, hlacks⟩ := ih hcover ht hy
      exact ⟨r, hr, hyr, hgains.lacked hlacks⟩

/-- A run that ends with a result found a value in each register that it reads on every run and never writes. -/
theorem holds_of_yields_ok {out : Bytes} (h : HaveEffects gs es) (hout : (runStages gs s).Yields result (.ok out))
    {e : Effect} (he : e ∈ es) {r : Reg} (hr : r ∈ e.mustRead) (hnever : ∀ e' ∈ es, r ∉ e'.mayWrite) :
    s.holds r = true := by
  induction h generalizing s with
  | nil => cases he
  | @cons g e₀ gs es hge _ ih =>
    obtain ⟨hhead, htail⟩ := List.forall_mem_cons.1 hnever
    obtain ⟨t, hrun, hout⟩ := yields_cons_ok.1 hout
    rcases List.mem_cons.1 he with rfl | he
    · exact (hge.done hrun).1 r hr
    · exact ((hge.gains hrun).same r hhead).symm.trans (ih hout he htail)

end

/-! ### Operand slots -/

/-- The register of a slot; the buffers are none. -/
def slotReg : Slot → Option Reg
  | .pKey => some .P_KEY
  | .pNonce => some .P_NONCE
  | .pA => some .P_A
  | .pB => some .P_B
  | .aad => none
  | .data => none

/-- The operand registers that an operation reads (30_encoding.md R83). -/
def operandRegs (i : Instr) : List Reg := (slotsRead i).filterMap slotReg

/-- A slot that fits can be read exactly when its register, if it has one, holds a value. -/
theorem readable_eq (s : State) (k : Slot) : readable s k = (fits s k && (slotReg k).all s.holds) := by
  cases k <;> simp [readable, fits, slotReg, State.holds]

theorem holds_begin_of_slotReg {s : State} {k : Slot} {r : Reg} (h : slotReg k = some r) :
    (begin s).holds r = s.holds r := by
  cases k <;> cases h <;> rfl

theorem mem_operandRegs {i : Instr} {r : Reg} : r ∈ operandRegs i ↔ ∃ k ∈ slotsRead i, slotReg k = some r :=
  List.mem_filterMap

theorem holds_begin_of_mem_operandRegs {i : Instr} {s : State} {r : Reg} (h : r ∈ operandRegs i) :
    (begin s).holds r = s.holds r := by
  obtain ⟨k, -, hk⟩ := mem_operandRegs.1 h
  exact holds_begin_of_slotReg hk

/-- A command admitted but for its length tests finds a value in each operand register it reads. -/
theorem admitted_iff {i : Instr} {s : State} (ha : (slotsRead i).all (fits s) = true) :
    admitted i s = true ↔ ∀ r ∈ operandRegs i, s.holds r = true := by
  have hfits := List.all_eq_true.1 ha
  simp only [admitted, List.all_eq_true, readable_eq, Bool.and_eq_true, mem_operandRegs]
  constructor
  · rintro h r ⟨k, hk, hr⟩
    simpa [hr] using (h k hk).2
  · intro h k hk
    refine ⟨hfits k hk, ?_⟩
    cases hr : slotReg k with
    | none => rfl
    | some r => exact h r ⟨k, hk, hr⟩

/-! What the table says of the operand registers of each operation. -/

theorem readsCovered_effectsOf (i : Instr) : readsCovered (resultReads i) (operandRegs i) (effectsOf i) = true := by
  cases i <;> decide

theorem operandRegs_mustRead (i : Instr) : ∀ r ∈ operandRegs i, ∃ e ∈ effectsOf i, r ∈ e.mustRead := by
  cases i <;> decide

theorem operandRegs_notMem_mayWrite (i : Instr) : ∀ r ∈ operandRegs i, ∀ e ∈ effectsOf i, r ∉ e.mayWrite := by
  cases i <;> decide

/-! ### Commands without an operand -/

section
variable {i : Instr} {s : State}

/-- A command taken at issue stops, or ends, as its stages yield. -/
theorem exists_yields_and_exec_eq (ha : (slotsRead i).all (fits s) = true) :
    ∃ c, (runStages (operationOf i).stages (begin s)).Yields (operationOf i).result c ∧ exec i s = conclude c s := by
  obtain ⟨c, hc⟩ := Run.exists_yields (operationOf i).result (runStages (operationOf i).stages (begin s))
  exact ⟨c, hc, exec_of_yields ha hc⟩

/-- A fault is an operand register that the operation reads and the command does not carry (R270). -/
theorem misses_of_exec_fault {y : Fault} (h : exec i s = .fault y) : Misses (operandRegs i) s y := by
  by_cases ha : (slotsRead i).all (fits s) = true
  · obtain ⟨c, hc, hexec⟩ := exists_yields_and_exec_eq ha
    rw [hexec] at h
    cases c <;> cases h
    obtain ⟨r, hr, hy, hlacks⟩ := misses_of_yields_fault (operationOf_result_reads i) (operationOf_effects i)
      (readsCovered_effectsOf i) (fun _ => .inl) hc
    exact ⟨r, hr, hy, (holds_begin_of_mem_operandRegs hr).symm.trans hlacks⟩
  · obtain ⟨b, hb⟩ := exec_refused ha
    rw [hb] at h
    cases h

/-- A release is of a command that carries every operand its operation reads. -/
theorem holds_of_exec_release {out : Bytes} (h : exec i s = .next (release out s)) :
    ∀ r ∈ operandRegs i, s.holds r = true := by
  intro r hr
  obtain ⟨c, hc, hexec⟩ := exists_yields_and_exec_eq (all_fits_of_exec_next h)
  rw [hexec] at h
  obtain ⟨e, he, hread⟩ := operandRegs_mustRead i r hr
  cases c with
  | ok out' =>
    rw [← holds_begin_of_mem_operandRegs hr]
    exact holds_of_yields_ok (operationOf_effects i) hc he hread (operandRegs_notMem_mayWrite i r hr)
  | error x => cases congrArg State.STATUS (Host.Outcome.next.inj h)
  | fault y => cases h
  | refused x => cases h

end

/-- Settles O13: on the table each read is of an operand register or of one written on every run before, so a fault is
at the first kind. -/
theorem noWorkingRegisterIsReadUnwritten : Obligations.NoWorkingRegisterIsReadUnwritten := by
  intro i s r h
  obtain ⟨r', hr, hy, hlacks⟩ := misses_of_exec_fault h
  obtain rfl : r = r' := Fault.noValue.inj hy
  obtain ⟨k, hk, hreg⟩ := mem_operandRegs.1 hr
  cases k <;> cases hreg
  case pKey => exact .inl ⟨rfl, hk, by simpa [State.holds] using hlacks⟩
  case pNonce => exact .inr (.inl ⟨rfl, hk, by simpa [State.holds] using hlacks⟩)
  case pA => exact .inr (.inr (.inl ⟨rfl, hk, by simpa [State.holds] using hlacks⟩))
  case pB => exact .inr (.inr (.inr ⟨rfl, hk, by simpa [State.holds] using hlacks⟩))

/-- Settles O15: a command taken at issue answers as its function or stops at an operand slot without a value, and an
admitted one has none. -/
theorem operationsRefineTheirFunctions : Obligations.OperationsRefineTheirFunctions := by
  intro i s h
  have ha := fits_of_admitted h
  refine (answers_transaction ha).resolve_right ?_
  rintro ⟨x, hfault⟩
  obtain ⟨r, hr, -, hlacks⟩ := misses_of_exec_fault hfault
  exact Bool.eq_false_iff.1 hlacks ((admitted_iff ha).1 h r hr)

theorem mem_mayRaise_of_transaction {i : Instr} {x : Operands} {e : Err} (h : transaction i x = .error e) :
    e ∈ mayRaise i := by
  obtain ⟨before, after, hes, -⟩ := (h ▸ transaction_reportsFirst i x).exists_split
  rw [hes]
  exact List.mem_append_right before (List.mem_cons_self ..)

/-- Settles O14: an admitted command ends as its function says; a buffer that does not fit is refused at issue; and a
release has read every operand slot, so without one there is an error or a fault. -/
theorem everyAdmittedCommandEnds : Obligations.EveryAdmittedCommandEnds := by
  refine ⟨fun i s h => ?admitted, fun i s h => exec_refused (Bool.eq_false_iff.1 h), fun i s ha h => ?missing⟩
  case admitted =>
    refine ⟨_, operationsRefineTheirFunctions i s h, ?_⟩
    cases hr : transaction i (operandsOf s) with
    | ok out => exact .inl ⟨rfl, rfl⟩
    | error e => exact .inr ⟨rfl, rfl, e, mem_mayRaise_of_transaction hr, rfl⟩
  case missing =>
    rcases answers_transaction ha with hnext | hfault
    · cases hr : transaction i (operandsOf s) with
      | ok out =>
        rw [hr] at hnext
        exact absurd ((admitted_iff ha).2 (holds_of_exec_release hnext)) (Bool.eq_false_iff.1 h)
      | error e =>
        rw [hr] at hnext
        exact .inr ⟨e, mem_mayRaise_of_transaction hr, hnext⟩
    · exact .inl hfault

end Sys2Proof.Machine
end

section
/-! SUPPORT. The states inside an operation (10_state.md R24, R26, 60_exceptions.md R249): how one follows another, in
which phases they stand, and the obligation about phases and `BLK`. -/

namespace Sys2Proof.Machine

/-! ### One state after another -/

/-- The states of a run continued with `k` where it is done. -/
def Run.continued (k : State → List State) : Run → List State
  | .done t => k t
  | .raised _ _ => []
  | .fault _ => []
  | .refused _ => []

theorem stagesStates_cons (g : Stage) (gs : List Stage) (s : State) :
    stagesStates (g :: gs) s = g.states s ++ (g.run s).continued (stagesStates gs) := by
  rw [stagesStates]
  cases g.run s <;> rfl

/-! Membership in the states of a stage, and of a list of stages. -/

section
variable {p : Phase} {f : State → Res State} {s u : State}

theorem mem_states_act : u ∈ (Stage.act p f).states s ↔ u = enterPhase p s ∨ f (enterPhase p s) = .val u := by
  rw [Stage.states]
  cases f (enterPhase p s) <;> simp [eq_comm]

end

section
variable {p : Phase} {items : State → Res (List Bytes)} {f : Bytes → State → Res State} {s u : State}

theorem mem_eachStates_cons {c : Bytes} {cs : List Bytes} : u ∈ eachStates f (c :: cs) s ↔
    ∃ t, f c s = .val t ∧ (u = advanceBlk t ∨ u ∈ eachStates f cs (advanceBlk t)) := by
  rw [eachStates]
  cases f c s <;> simp

theorem mem_states_each : u ∈ (Stage.each p items f).states s ↔
    u = enterLoop p s ∨ ∃ l, items (enterLoop p s) = .val l ∧ u ∈ eachStates f l (enterLoop p s) := by
  rw [Stage.states]
  cases items (enterLoop p s) <;> simp

end

theorem mem_stagesStates_cons {g : Stage} {gs : List Stage} {s u : State} :
    u ∈ stagesStates (g :: gs) s ↔ u ∈ g.states s ∨ ∃ t, g.run s = .done t ∧ u ∈ stagesStates gs t := by
  rw [stagesStates, List.mem_append]
  cases g.run s <;> simp

/-- Each step of the stage, with the advance of `BLK` after a chunk, is a move of `M`. -/
def Stage.Moves (M : State → State → Prop) : Stage → Prop
  | .act _ f => ∀ s t, f s = .val t → M s t
  | .each _ _ f => ∀ c s t, f c s = .val t → M s (advanceBlk t)

/-- Entering an act or a loop is a move of `M`. -/
structure EntersBy (M : State → State → Prop) : Prop where
  phase : ∀ p s, M s (enterPhase p s)
  loop : ∀ p s, M s (enterLoop p s)

section
variable {M : State → State → Prop}

theorem isChain_eachStates {f : Bytes → State → Res State} (hf : ∀ c s t, f c s = .val t → M s (advanceBlk t))
    {k : State → List State} (hk : ∀ t, (t :: k t).IsChain M) (cs : List Bytes) (s : State) :
    (s :: (eachStates f cs s ++ (runEach f cs s).continued k)).IsChain M := by
  induction cs generalizing s with
  | nil => exact hk s
  | cons c cs ih =>
    simp only [eachStates, runEach]
    cases hc : f c s with
    | val t => exact .cons_cons (hf c s t hc) (ih (advanceBlk t))
    | raise e => exact .singleton s
    | fault y => exact .singleton s
    | refused x => exact .singleton s

theorem isChain_stageStates (hM : EntersBy M) {g : Stage} (hg : g.Moves M) {k : State → List State}
    (hk : ∀ t, (t :: k t).IsChain M) (s : State) : (s :: (g.states s ++ (g.run s).continued k)).IsChain M := by
  cases g with
  | act p f =>
    refine .cons_cons (hM.phase p s) ?_
    simp only [Stage.run]
    cases hc : f (enterPhase p s) with
    | val t => exact .cons_cons (hg _ t hc) (hk t)
    | raise e => exact .singleton _
    | fault y => exact .singleton _
    | refused x => exact .singleton _
  | each p items f =>
    refine .cons_cons (hM.loop p s) ?_
    simp only [Stage.run]
    cases items (enterLoop p s) with
    | val l => exact isChain_eachStates hg hk l _
    | raise e => exact .singleton _
    | fault y => exact .singleton _
    | refused x => exact .singleton _

/-- From each state inside an operation to the next there is a move. -/
theorem isChain_stagesStates (hM : EntersBy M) {gs : List Stage} (hgs : ∀ g ∈ gs, g.Moves M) (s : State) :
    (s :: stagesStates gs s).IsChain M := by
  induction gs generalizing s with
  | nil => exact .cons_cons (hM.phase .commit s) (.singleton _)
  | cons g gs ih =>
    obtain ⟨hg, hgs⟩ := List.forall_mem_cons.1 hgs
    rw [stagesStates_cons]
    exact isChain_stageStates hM hg (ih hgs) s

end

/-- A move that each write of a stage is, with the advance of `BLK` and without, is one that the stage makes. -/
theorem Stage.HasEffect.moves {M : State → State → Prop} {g : Stage} {e : Effect} (h : g.HasEffect e)
    (hact : ∀ s t, Writes e.mayWrite s t → M s t) (heach : ∀ s t, Writes e.mayWrite s t → M s (advanceBlk t)) :
    g.Moves M := by
  cases h with
  | act hf => exact fun s t ht => hact s t (hf.writes ht)
  | each _ hf => exact fun c s t ht => heach s t ((hf c).writes ht)
  | expandKey => exact fun s t ht => hact s t (does_expandKey.writes ht)

/-- Every stage has an effect of the table. -/
theorem HaveEffects.exists_effect {gs : List Stage} {es : List Effect} (h : HaveEffects gs es) :
    ∀ g ∈ gs, ∃ e ∈ es, g.HasEffect e := by
  induction h with
  | nil => exact nofun
  | cons hge _ ih =>
    refine List.forall_mem_cons.2 ⟨⟨_, List.mem_cons_self .., hge⟩, fun g hg => ?_⟩
    obtain ⟨e, he, hge⟩ := ih g hg
    exact ⟨e, List.mem_cons_of_mem _ he, hge⟩

/-! ### `BLK` -/

/-- `BLK` stays, is 0, or is advanced by 1. -/
def BlkMove (u v : State) : Prop := v.BLK = u.BLK ∨ v.BLK = some 0 ∨ ∃ b, u.BLK = some b ∧ v.BLK = some (b + 1)

theorem blkMove_enters : EntersBy BlkMove := ⟨fun _ _ => .inl rfl, fun _ _ => .inr (.inl rfl)⟩

theorem blkMove_advanceBlk {s t : State} (h : t.BLK = s.BLK) : BlkMove s (advanceBlk t) := by
  cases hs : s.BLK with
  | none => exact .inl (by rw [advanceBlk_BLK, h, hs, Option.map_none])
  | some b => exact .inr (.inr ⟨b, hs, by rw [advanceBlk_BLK, h, hs, Option.map_some]⟩)

theorem Stage.HasEffect.blkMoves {g : Stage} {e : Effect} (h : g.HasEffect e) : g.Moves BlkMove :=
  h.moves (fun _ _ hw => .inl hw.blk) fun _ _ hw => blkMove_advanceBlk hw.blk

/-! ### Phases -/

section
variable {g : Stage} {e : Effect} {gs : List Stage} {es : List Effect}

theorem phase_of_mem_eachStates {R W : List Reg} {f : Bytes → State → Res State} (hf : ∀ c, Does R W (f c))
    {cs : List Bytes} {s u : State} (hu : u ∈ eachStates f cs s) : u.PHASE = s.PHASE := by
  induction cs generalizing s with
  | nil => cases hu
  | cons c cs ih =>
    obtain ⟨t, hc, hu⟩ := mem_eachStates_cons.1 hu
    have ht : (advanceBlk t).PHASE = s.PHASE := ((hf c).writes hc).phase
    rcases hu with rfl | hu
    · exact ht
    · exact (ih hu).trans ht

theorem phase_of_mem_states_act {R W : List Reg} {p : Phase} {f : State → Res State} (hf : Does R W f) {s u : State}
    (hu : u ∈ (Stage.act p f).states s) : u.PHASE = p := by
  rcases mem_states_act.1 hu with rfl | hu
  · rfl
  · exact (hf.writes hu).phase

/-- A stage leaves `PHASE` as it was written on entry. -/
theorem Stage.HasEffect.phase_of_mem_states (h : g.HasEffect e) {s u : State} (hu : u ∈ g.states s) :
    u.PHASE = g.phase := by
  cases h with
  | act hf => exact phase_of_mem_states_act hf hu
  | expandKey => exact phase_of_mem_states_act does_expandKey hu
  | each _ hf =>
    rcases mem_states_each.1 hu with rfl | ⟨l, -, hu⟩
    · rfl
    · exact phase_of_mem_eachStates hf hu

/-- The phases in which the stages stand, then `COMMIT`. -/
def stagePhases (gs : List Stage) : List Phase := gs.map Stage.phase ++ [.commit]

theorem HaveEffects.phase_mem (h : HaveEffects gs es) {s u : State} (hu : u ∈ stagesStates gs s) :
    u.PHASE ∈ stagePhases gs := by
  induction h generalizing s with
  | nil =>
    rcases List.mem_singleton.1 hu with rfl
    exact List.mem_singleton_self _
  | @cons g e gs es hge _ ih =>
    rcases mem_stagesStates_cons.1 hu with hu | ⟨t, -, hu⟩
    · rw [hge.phase_of_mem_states hu]
      exact List.mem_cons_self ..
    · exact List.mem_cons_of_mem _ (ih hu)

/-- An order in which the stages' phases stand is the order of the states' phases. -/
theorem HaveEffects.pairwise_phase {Q : Phase → Phase → Prop} (h : HaveEffects gs es)
    (hgs : (stagePhases gs).Pairwise Q) (hrefl : ∀ p, Q p p) (s : State) :
    (stagesStates gs s).Pairwise fun u v => Q u.PHASE v.PHASE := by
  induction h generalizing s with
  | nil => exact List.pairwise_singleton ..
  | @cons g e gs es hge hrest ih =>
    obtain ⟨hhead, hgs⟩ := List.pairwise_cons.1 hgs
    have hstage : (g.states s).Pairwise fun u v => Q u.PHASE v.PHASE :=
      List.pairwise_of_forall_mem_list fun u hu v hv => by
        rw [hge.phase_of_mem_states hu, hge.phase_of_mem_states hv]
        exact hrefl _
    rw [stagesStates_cons]
    cases g.run s with
    | done t =>
      refine List.pairwise_append.2 ⟨hstage, ih hgs t, fun u hu v hv => ?_⟩
      rw [hge.phase_of_mem_states hu]
      exact hhead _ (HaveEffects.phase_mem hrest hv)
    | raised x t => exact (List.append_nil _).symm ▸ hstage
    | fault y => exact (List.append_nil _).symm ▸ hstage
    | refused x => exact (List.append_nil _).symm ▸ hstage

theorem exists_phase_mem_states (g : Stage) (s : State) : ∃ u ∈ g.states s, u.PHASE = g.phase := by
  cases g <;> exact ⟨_, List.mem_cons_self .., rfl⟩

/-- A run that is done has passed through every phase. -/
theorem exists_phase_of_done {s t : State} (hrun : runStages gs s = .done t) :
    ∀ p ∈ stagePhases gs, ∃ u ∈ stagesStates gs s, u.PHASE = p := by
  induction gs generalizing s with
  | nil => exact List.forall_mem_singleton.2 ⟨_, List.mem_singleton_self _, rfl⟩
  | cons g gs ih =>
    obtain ⟨v, hv, hrun⟩ := runStages_cons_eq_done.1 hrun
    refine List.forall_mem_cons.2 ⟨?_, fun p hp => ?_⟩
    · obtain ⟨u, hu, hphase⟩ := exists_phase_mem_states g s
      exact ⟨u, mem_stagesStates_cons.2 (.inl hu), hphase⟩
    · obtain ⟨u, hu, hphase⟩ := ih hrun p hp
      exact ⟨u, mem_stagesStates_cons.2 (.inr ⟨v, hv, hu⟩), hphase⟩

end

/-! The phases of each operation, read off its stages. -/

theorem mem_phasesOf_iff (i : Instr) (p : Phase) : p ∈ phasesOf i ↔ p ∈ stagePhases (operationOf i).stages := by
  cases i <;> cases p <;> decide

theorem pairwise_stagePhases (i : Instr) :
    (stagePhases (operationOf i).stages).Pairwise fun p q => (phasesOf i).idxOf p ≤ (phasesOf i).idxOf q := by
  cases i <;> decide

/-- An operation that ends without an error has run all its stages. -/
theorem runStages_done_of_ERR_none {i : Instr} {s t : State} (h : exec i s = .next t) (herr : t.ERR = none) :
    ∃ u, runStages (operationOf i).stages (begin s) = .done u := by
  rw [exec_eq_runOperation] at h
  obtain ⟨-, ⟨u, -, hrun, -⟩ | ⟨u, e, -, -, rfl⟩ | ⟨u, e, -, rfl⟩⟩ := runOperation_next h
  · exact ⟨u, hrun⟩
  · cases herr
  · cases herr

/-- Settles O11: each stage keeps `PHASE` and `BLK` but for its entry and the advance after a chunk, and the stages'
phases are those of the rule in its order. -/
theorem phasesAdvanceForward : Obligations.PhasesAdvanceForward := by
  intro i s
  have heffects := operationOf_effects i
  refine ⟨fun u hu => ?listed, ?forward, ?blk, fun t h herr p hp => ?passed⟩
  case listed => exact (mem_phasesOf_iff i _).2 (heffects.phase_mem hu)
  case forward => exact heffects.pairwise_phase (pairwise_stagePhases i) (fun _ => le_rfl) (begin s)
  case blk =>
    refine (isChain_stagesStates blkMove_enters (fun g hg => ?_) (begin s)).tail
    obtain ⟨e, -, hge⟩ := heffects.exists_effect g hg
    exact hge.blkMoves
  case passed =>
    obtain ⟨u, hrun⟩ := runStages_done_of_ERR_none h herr
    exact exists_phase_of_done hrun p ((mem_phasesOf_iff i p).1 hp)

end Sys2Proof.Machine
end

section
/-! SUPPORT. The round-key file (10_state.md R26): what each step inside an operation does to it, and the obligation
that no step changes it once it is written. -/

namespace Sys2Proof.Machine

/-- The round-key file holds no value, or the schedule of the key in the slot, which stands in `KEY` too. -/
def ScheduleOfKey (u : State) : Prop :=
  u.RK = none ∨ ∃ k, u.P_KEY = some k ∧ u.KEY = some (blockOf k) ∧ u.RK = some (keyExpand (blockOf k))

/-- The round-key file, once it holds a schedule of the key, stays as it is, and `KEY` with it. -/
def ScheduleMove (u v : State) : Prop :=
  ScheduleOfKey u → ScheduleOfKey v ∧ (u.RK ≠ none → v.RK = u.RK ∧ v.KEY = u.KEY)

theorem scheduleMove_of_eq {u v : State} (hslot : v.P_KEY = u.P_KEY) (hkey : v.KEY = u.KEY) (hrk : v.RK = u.RK) :
    ScheduleMove u v := by
  intro hu
  rw [ScheduleOfKey, hslot, hkey, hrk]
  exact ⟨hu, fun _ => ⟨rfl, rfl⟩⟩

theorem ScheduleMove.trans {u v w : State} (huv : ScheduleMove u v) (hvw : ScheduleMove v w) : ScheduleMove u w := by
  intro hu
  obtain ⟨hv, hfirst⟩ := huv hu
  obtain ⟨hw, hsecond⟩ := hvw hv
  refine ⟨hw, fun hne => ?_⟩
  obtain ⟨hrk, hkey⟩ := hfirst hne
  obtain ⟨hrk', hkey'⟩ := hsecond (hrk ▸ hne)
  exact ⟨hrk'.trans hrk, hkey'.trans hkey⟩

theorem scheduleMove_enters : EntersBy ScheduleMove :=
  ⟨fun _ _ => scheduleMove_of_eq rfl rfl rfl, fun _ _ => scheduleMove_of_eq rfl rfl rfl⟩

/-- A second expansion would write the same schedule, since the slot holds the same key. -/
theorem scheduleMove_expandKey {s t : State} (h : expandKey s = .val t) : ScheduleMove s t := by
  obtain ⟨k, hk, -, rfl⟩ := expandKey_eq_val.1 h
  refine fun hs => ⟨.inr ⟨k, hk, rfl, rfl⟩, fun hne => ?_⟩
  obtain ⟨k', hk', hkey, hrk⟩ := hs.resolve_left hne
  obtain rfl : k = k' := Option.some.inj (hk.symm.trans hk')
  exact ⟨hrk.symm, hkey.symm⟩

theorem Stage.HasEffect.scheduleMoves {g : Stage} {e : Effect} (h : g.HasEffect e)
    (he : e.isExpandKey = false → .P_KEY ∉ e.mayWrite ∧ .KEY ∉ e.mayWrite ∧ .RK ∉ e.mayWrite) :
    g.Moves ScheduleMove := by
  cases hexpand : e.isExpandKey with
  | false =>
    obtain ⟨hslot, hkey, hrk⟩ := he hexpand
    exact h.moves (fun _ _ hw => scheduleMove_of_eq (hw.P_KEY_eq hslot) (hw.KEY_eq hkey) (hw.RK_eq hrk))
      fun _ _ hw => scheduleMove_of_eq (hw.P_KEY_eq hslot) (hw.KEY_eq hkey) (hw.RK_eq hrk)
  | true =>
    cases h <;> cases hexpand
    exact fun _ _ => scheduleMove_expandKey

theorem schedule_notMem_mayWrite (i : Instr) : ∀ e ∈ effectsOf i, e.isExpandKey = false →
    .P_KEY ∉ e.mayWrite ∧ .KEY ∉ e.mayWrite ∧ .RK ∉ e.mayWrite := by
  cases i <;> decide

/-- Settles O12: key expansion alone writes the file, from a slot that does not change, so each state inside the
operation is related to every later one. -/
theorem roundKeysAreImmutableOnceDerived : Obligations.RoundKeysAreImmutableOnceDerived := by
  intro i s
  have htrans : IsTrans State ScheduleMove := ⟨fun _ _ _ => ScheduleMove.trans⟩
  have hmoves : ∀ g ∈ (operationOf i).stages, g.Moves ScheduleMove := fun g hg => by
    obtain ⟨e, he, hge⟩ := (operationOf_effects i).exists_effect g hg
    exact hge.scheduleMoves (schedule_notMem_mayWrite i e he)
  have hpairs := List.isChain_iff_pairwise.1 (isChain_stagesStates scheduleMove_enters hmoves (begin s))
  obtain ⟨hbegin, hlater⟩ := List.pairwise_cons.1 hpairs
  exact hlater.imp_of_mem fun hu _ hmove => (hmove (hbegin _ hu (.inl rfl)).1).2

end Sys2Proof.Machine
end

section
/-! SUPPORT. Verify, then release (45_gcm.md R222): the states inside GCMDEC, before, at and after the comparison of
the tags, and the obligation about them. -/

namespace Sys2Proof.Machine

/-! ### Stages in two parts -/

theorem Stage.HasEffect.keeps {P : State → Prop} {g : Stage} {e : Effect} (h : g.HasEffect e)
    (hP : ∀ s t, Writes e.mayWrite s t → P s → P t) : g.Keeps P := by
  cases h with
  | act hf => exact fun s t hs ht => hP s t (hf.writes ht) hs
  | each _ hf => exact fun c s t hs ht => hP s t ((hf c).writes ht) hs
  | expandKey => exact fun s t hs ht => hP s t (does_expandKey.writes ht) hs

/-- A state of a list of stages in two parts is of a stage of the first, or of the second from where the first is done;
what the stages of the first part keep holds there. -/
theorem mem_stagesStates_append {P : State → Prop} (hP : PhaseFree P) {gs gs' : List Stage}
    (hgs : ∀ g ∈ gs, g.Keeps P) {s u : State} (hs : P s) (hu : u ∈ stagesStates (gs ++ gs') s) :
    (P u ∧ ∃ g ∈ gs, ∃ t, u ∈ g.states t) ∨ ∃ t, P t ∧ runStages gs s = .done t ∧ u ∈ stagesStates gs' t := by
  induction gs generalizing s with
  | nil => exact .inr ⟨s, hs, rfl, hu⟩
  | cons g gs ih =>
    obtain ⟨hg, hgs⟩ := List.forall_mem_cons.1 hgs
    rcases mem_stagesStates_cons.1 hu with hu | ⟨t, hrun, hu⟩
    · exact .inl ⟨Stage.states_keeps hP hg hs u hu, g, List.mem_cons_self .., s, hu⟩
    · have ht := Stage.run_keeps hP hg hs
      rw [hrun] at ht
      rw [runStages_cons_done hrun]
      exact (ih hgs ht hu).imp_left fun ⟨hPu, g', hg', hmem⟩ => ⟨hPu, g', List.mem_cons_of_mem _ hg', hmem⟩

/-- A state of a list of stages that begins with an act: its entry, its outcome, or a state of the stages after it. -/
theorem mem_stagesStates_act {p : Phase} {f : State → Res State} {gs : List Stage} {s u : State}
    (hu : u ∈ stagesStates (.act p f :: gs) s) :
    u = enterPhase p s ∨ ∃ t, f (enterPhase p s) = .val t ∧ (u = t ∨ u ∈ stagesStates gs t) := by
  rcases mem_stagesStates_cons.1 hu with hu | ⟨t, hrun, hu⟩
  · exact (mem_states_act.1 hu).imp_right fun hval => ⟨u, hval, .inl rfl⟩
  · exact .inr ⟨t, run_act_eq_done.1 hrun, .inr hu⟩

/-! ### The parts of GCMDEC -/

/-- The stages before the comparison, which are the same under both wrap policies. -/
def gcmdecBefore : List Stage := (gcmdecOp .wrap).stages.take 12

/-- The stages after the comparison: the phase `CTR`. -/
def gcmdecAfter (policy : WrapPolicy) : List Stage := (gcmdecOp policy).stages.drop 14

theorem gcmdecOp_stages (policy : WrapPolicy) : (gcmdecOp policy).stages =
    gcmdecBefore ++ .act .compare compareReceivedTag :: .act .compare judgeDiff :: gcmdecAfter policy := rfl

theorem gcmdecBefore_effects : HaveEffects gcmdecBefore ((effectsOf .gcmdec).take 12) :=
  List.forall₂_take 12 (gcmdecOp_effects .wrap)

theorem gcmdecAfter_effects (policy : WrapPolicy) : HaveEffects (gcmdecAfter policy) ((effectsOf .gcmdec).drop 14) :=
  List.forall₂_drop 14 (gcmdecOp_effects policy)

/-- No counter block, no keystream block, no plaintext byte, and no comparison made. -/
structure Unverified (u : State) : Prop where
  cb : u.CB = none
  ks : u.KS = none
  rbuf : u.RBUF = none
  diff : u.DIFF = none

theorem unverified_phaseFree : PhaseFree Unverified where
  phase _ _ h := { h with }
  loop _ _ h := { h with }
  blk _ h := { h with }

theorem gcmdecBefore_keep_unverified : ∀ g ∈ gcmdecBefore, g.Keeps Unverified := by
  intro g hg
  have htable : ∀ e ∈ (effectsOf .gcmdec).take 12,
      .CB ∉ e.mayWrite ∧ .KS ∉ e.mayWrite ∧ .RBUF ∉ e.mayWrite ∧ .DIFF ∉ e.mayWrite := by decide
  obtain ⟨e, he, hge⟩ := gcmdecBefore_effects.exists_effect g hg
  obtain ⟨hcb, hks, hrbuf, hdiff⟩ := htable e he
  exact hge.keeps fun s t hw hs => ⟨(hw.CB_eq hcb).trans hs.cb, (hw.KS_eq hks).trans hs.ks,
    (hw.RBUF_eq hrbuf).trans hs.rbuf, (hw.DIFF_eq hdiff).trans hs.diff⟩

/-- What the comparison has found, and the buffers it was made on. -/
structure VerdictOf (t u : State) : Prop where
  tag : u.TAG = t.TAG
  diff : u.DIFF = t.DIFF
  mem : u.mem = t.mem

theorem verdictOf_phaseFree (t : State) : PhaseFree (VerdictOf t) where
  phase _ _ h := { h with }
  loop _ _ h := { h with }
  blk _ h := { h with }

theorem gcmdecAfter_keep_verdict (policy : WrapPolicy) (t : State) :
    ∀ g ∈ gcmdecAfter policy, g.Keeps (VerdictOf t) := by
  intro g hg
  have htable : ∀ e ∈ (effectsOf .gcmdec).drop 14, .TAG ∉ e.mayWrite ∧ .DIFF ∉ e.mayWrite := by decide
  obtain ⟨e, he, hge⟩ := (gcmdecAfter_effects policy).exists_effect g hg
  obtain ⟨htag, hdiff⟩ := htable e he
  exact hge.keeps fun s u hw hs =>
    ⟨(hw.TAG_eq htag).trans hs.tag, (hw.DIFF_eq hdiff).trans hs.diff, hw.mem.trans hs.mem⟩

/-! ### The comparison -/

/-- The state `t` with the tag received compared with `tag`. -/
def compared (t : State) (tag : Block) : State :=
  { t with PHASE := .compare, DIFF := some (tagDiff (tagPart t.mem.DATA) tag) }

theorem compareReceivedTag_eq_val {s t : State} :
    compareReceivedTag s = .val t ↔
      ∃ tag, s.TAG = some tag ∧ t = { s with DIFF := some (tagDiff (tagPart s.mem.DATA) tag) } := by
  simp only [compareReceivedTag, Res.bind_eq_val, need_eq_val, compareTags_eq_val]

/-- The states from the comparison on: its entry, its outcome, and where the tags are equal those of the stages after.
-/
theorem mem_stagesStates_compare {gs : List Stage} {t u : State}
    (hu : u ∈ stagesStates (.act .compare compareReceivedTag :: .act .compare judgeDiff :: gs) t) :
    u = enterPhase .compare t ∨ ∃ tag, t.TAG = some tag ∧
      (u = compared t tag ∨ tagPart t.mem.DATA = tag ∧ u ∈ stagesStates gs (compared t tag)) := by
  rcases mem_stagesStates_act hu with rfl | ⟨v, hv, hu⟩
  · exact .inl rfl
  obtain ⟨tag, htag, rfl⟩ := compareReceivedTag_eq_val.1 hv
  refine .inr ⟨tag, htag, ?_⟩
  rcases hu with rfl | hu
  · exact .inl rfl
  rcases mem_stagesStates_act hu with rfl | ⟨w, hw, hu⟩
  · exact .inl rfl
  obtain ⟨d, hd, hmatch, rfl⟩ := judgeDiff_eq_val.1 hw
  obtain rfl : tagDiff (tagPart t.mem.DATA) tag = d := Option.some.inj hd
  exact hu.imp id fun hu => ⟨tagMatches_tagDiff_iff.1 hmatch, hu⟩

/-- A difference ends the run. -/
theorem runStages_compare_of_ne {gs : List Stage} {t : State} {tag : Block} (ht : t.TAG = some tag)
    (hne : tagPart t.mem.DATA ≠ tag) :
    runStages (.act .compare compareReceivedTag :: .act .compare judgeDiff :: gs) t =
      .raised .authenticationFailed (compared t tag) := by
  have hdiff : tagMatches (tagDiff (tagPart t.mem.DATA) tag) = false :=
    Bool.eq_false_iff.2 (mt tagMatches_tagDiff_iff.1 hne)
  have hcompare : (Stage.act .compare compareReceivedTag).run t = .done (compared t tag) :=
    run_act_val (compareReceivedTag_eq_val.2 ⟨tag, ht, rfl⟩)
  rw [runStages_cons_done hcompare]
  exact runStages_cons_raised (run_act_raise (judgeDiff_raise rfl hdiff))

/-! ### The states inside GCMDEC -/

/-- GCMDEC of the command in `s` reaches `t` with the tag `tag` computed, and has compared nothing yet. -/
structure ReachesTag (s t : State) (tag : Block) : Prop where
  done : runStages gcmdecBefore (begin s) = .done t
  tag : t.TAG = some tag
  unverified : Unverified t

/-- A state inside GCMDEC stands before the comparison, at its outcome, or, where the tags are equal, in a later phase.
-/
inductive GcmdecState (s u : State) : Prop where
  | before (h : Unverified u) (hctr : u.PHASE ≠ .ctr) (hcommit : u.PHASE ≠ .commit)
  | outcome {t : State} {tag : Block} (ht : ReachesTag s t tag) (hu : u = compared t tag)
  | after {t : State} {tag : Block} (ht : ReachesTag s t tag) (htag : tagPart t.mem.DATA = tag)
    (hu : VerdictOf (compared t tag) u) (hphase : u.PHASE = .ctr ∨ u.PHASE = .commit)

theorem phase_of_mem_gcmdecAfter {policy : WrapPolicy} {s u : State} (hu : u ∈ stagesStates (gcmdecAfter policy) s) :
    u.PHASE = .ctr ∨ u.PHASE = .commit := by
  have hphases : ∀ p ∈ stagePhases (gcmdecAfter policy), p = .ctr ∨ p = .commit := by
    cases policy <;> decide
  exact hphases _ ((gcmdecAfter_effects policy).phase_mem hu)

theorem phase_of_mem_gcmdecBefore {g : Stage} (hg : g ∈ gcmdecBefore) {s u : State} (hu : u ∈ g.states s) :
    u.PHASE ≠ .ctr ∧ u.PHASE ≠ .commit := by
  have hphases : ∀ p ∈ gcmdecBefore.map Stage.phase, p ≠ .ctr ∧ p ≠ .commit := by decide
  obtain ⟨e, -, hge⟩ := gcmdecBefore_effects.exists_effect g hg
  rw [hge.phase_of_mem_states hu]
  exact hphases _ (List.mem_map_of_mem hg)

theorem gcmdecState_of_mem_states {policy : WrapPolicy} {s u : State} (hu : u ∈ (gcmdecOp policy).states s) :
    GcmdecState s u := by
  rw [Operation.states, gcmdecOp_stages] at hu
  rcases mem_stagesStates_append unverified_phaseFree gcmdecBefore_keep_unverified ⟨rfl, rfl, rfl, rfl⟩ hu with
    ⟨hunverified, g, hg, t, hu⟩ | ⟨t, hunverified, hdone, hu⟩
  · obtain ⟨hctr, hcommit⟩ := phase_of_mem_gcmdecBefore hg hu
    exact .before hunverified hctr hcommit
  rcases mem_stagesStates_compare hu with rfl | ⟨tag, htag, rfl | ⟨hequal, hu⟩⟩
  · exact .before (unverified_phaseFree.phase _ t hunverified) nofun nofun
  · exact .outcome ⟨hdone, htag, hunverified⟩ rfl
  · have hverdict := stagesStates_keeps (verdictOf_phaseFree _) _ (gcmdecAfter_keep_verdict policy (compared t tag)) _
      ⟨rfl, rfl, rfl⟩ u hu
    exact .after ⟨hdone, htag, hunverified⟩ hequal hverdict (phase_of_mem_gcmdecAfter hu)

/-- The stages before the comparison lead to one state and one tag. -/
theorem ReachesTag.unique {s t t' : State} {tag tag' : Block} (h : ReachesTag s t tag) (h' : ReachesTag s t' tag') :
    t' = t ∧ tag' = tag := by
  obtain rfl : t = t' := Run.done.inj (h.done.symm.trans h'.done)
  exact ⟨rfl, (Option.some.inj (h.tag.symm.trans h'.tag)).symm⟩

section
variable {policy : WrapPolicy} {s t : State} {tag : Block} (h : ReachesTag s t tag) (hne : tagPart t.mem.DATA ≠ tag)
include h hne

/-- Where the tags differ, no state stands in a later phase. -/
theorem phase_of_tag_ne {v : State} (hv : v ∈ (gcmdecOp policy).states s) : v.PHASE ≠ .ctr ∧ v.PHASE ≠ .commit := by
  cases gcmdecState_of_mem_states hv with
  | before _ hctr hcommit => exact ⟨hctr, hcommit⟩
  | outcome _ hv =>
    subst hv
    exact ⟨nofun, nofun⟩
  | after h' hequal _ _ =>
    obtain ⟨rfl, rfl⟩ := h.unique h'
    exact absurd hequal hne

/-- Where the tags differ, GCMDEC of a command taken at issue fails (R221). -/
theorem execGcmdecWith_of_tag_ne (haad : s.mem.AAD.length ≤ 2 ^ 61 - 1) (hdata : s.mem.DATA.length ≤ 2 ^ 61 - 1) :
    execGcmdecWith policy s = .next (enterError .authenticationFailed s) := by
  have hrun : runStages (gcmdecOp policy).stages (begin s) = .raised .authenticationFailed (compared t tag) := by
    rw [gcmdecOp_stages, runStages_append_done h.done, runStages_compare_of_ne h.tag hne]
  exact runOperation_of_yieldsWith (W := .w32) (i := .gcmdec) (r := .error _) (all_fits_pKey_pNonce_aad_data haad hdata)
    (by rw [operationWith, hrun]; rfl)

end

/-- Settles O58: before the comparison nothing of the plaintext exists; the comparison writes `DIFF` once, and where it
is not zero the run ends there, so a state of a later phase has equal tags. -/
theorem gcmdecVerifiesBeforeAnyPlaintext : Obligations.GcmdecVerifiesBeforeAnyPlaintext := by
  intro policy s u hu
  have hout : u.mem.OUT = [] := by
    rw [mem_of_mem_states (W := .w32) (i := .gcmdec) hu, freshOut_OUT]
  cases gcmdecState_of_mem_states hu with
  | before h hctr hcommit =>
    refine ⟨hout, fun _ _ => ⟨h.cb, h.ks, h.rbuf⟩, fun hlate => ?_, fun d hd _ => ?_⟩
    · exact absurd hlate (not_or.2 ⟨hctr, hcommit⟩)
    · rw [h.diff] at hd
      cases hd
  | @outcome t tag h hu =>
    subst hu
    refine ⟨hout, fun _ _ => ⟨h.unverified.cb, h.unverified.ks, h.unverified.rbuf⟩,
      fun hlate => hlate.elim nofun nofun, fun d hd hne => ?_⟩
    obtain rfl : tagDiff (tagPart t.mem.DATA) tag = d := Option.some.inj hd
    have htag := mt tagDiff_eq_zero_iff.2 hne
    exact ⟨fun v => phase_of_tag_ne h htag, execGcmdecWith_of_tag_ne h htag⟩
  | @after t tag h htag hverdict hphase =>
    have hdiff : u.DIFF = some 0 := hverdict.diff.trans (congrArg some (tagDiff_eq_zero_iff.2 htag))
    refine ⟨hout, fun hctr hcommit => absurd hphase (not_or.2 ⟨hctr, hcommit⟩),
      fun _ => ⟨?_, hdiff⟩, fun d hd hne => ?_⟩
    · rw [hverdict.tag, hverdict.mem]
      exact h.tag.trans (congrArg some htag.symm)
    · exact absurd (Option.some.inj (hd.symm.trans hdiff)) hne

end Sys2Proof.Machine
end

section
/-! SUPPORT. Containers and pseudo-operations (30_encoding.md R92, R93, R99): a call as a transaction, what each
pseudo-operation answers, sealed containers opened, and the obligation about them. -/

namespace Sys2Proof.Machine

/-! ### A call -/

/-- A command issued with no operation in progress runs the operation of its code. -/
theorem transact_eq_exec {c : Command} {i : Instr} {s : State} (hphase : s.PHASE = .idle) (hop : c.op = encodeOp i) :
    transact c s = exec i (s.writeCommand c) := by
  have hdecode : decodeOp c.op = some i := by rw [hop, decodeOp_encodeOp]
  exact step_of_decodeOp (s := s.writeCommand c) hphase rfl hdecode

/-- The host reads the result that was settled. -/
@[simp] theorem callResult_settle (r : ApiResult) (s : State) : callResult (.next (settle r s)) = callOf r := by
  cases r with
  | ok out =>
    rw [settle, callResult, release_mem, writeOut_OUT]
    rfl
  | error e => rfl

/-- An admitted command answers the host what its operation's function says. -/
theorem callResult_transact {c : Command} {i : Instr} {s : State} (hphase : s.PHASE = .idle)
    (hop : c.op = encodeOp i) (h : admitted i (s.writeCommand c) = true) :
    callResult (transact c s) = callOf (transaction i (operandsOf (s.writeCommand c))) := by
  rw [transact_eq_exec hphase hop, operationsRefineTheirFunctions i _ h, callResult_settle]

/-! ### The pseudo-operations -/

/-! Commands that carry what their operation reads. -/

section
variable {i : Instr} {c : Command} {k : Bytes} (hk : c.pKey = some k) (hdata : c.data.length ≤ 2 ^ 61 - 1) (s : State)
include hk hdata

theorem admitted_pKey_pA_data {b : Block} (hi : slotsRead i = [.pKey, .pA, .data]) (hb : c.pA = some b) :
    admitted i (s.writeCommand c) = true := by
  simpa [admitted, hi, readable, State.writeCommand, Config.maxLenBytes, hk, hb] using hdata

theorem admitted_pKey_pNonce_aad_data {n : Bytes} (hi : slotsRead i = [.pKey, .pNonce, .aad, .data])
    (hn : c.pNonce = some n) (haad : c.aad.length ≤ 2 ^ 61 - 1) : admitted i (s.writeCommand c) = true := by
  simpa [admitted, hi, readable, State.writeCommand, Config.maxLenBytes, hk, hn] using And.intro haad hdata

end

section
variable {x k : Bytes} {s : State} (hphase : s.PHASE = .idle)
include hphase

theorem cbcSeal_eq (iv : Block) (h : x.length ≤ 2 ^ 61 - 1) :
    cbcSeal x k iv s = (callOf (apiCbcEncrypt x k iv)).mapOut (iv.toList ++ ·) :=
  congrArg (CallResult.mapOut _) <|
    callResult_transact (i := .cbcenc) hphase rfl (admitted_pKey_pA_data rfl h s rfl rfl)

theorem cbcOpen_eq (h : (x.drop 16).length ≤ 2 ^ 61 - 1) :
    cbcOpen x k s = callOf (apiCbcDecrypt (x.drop 16) k (blockOf (x.take 16))) :=
  callResult_transact (i := .cbcdec) hphase rfl (admitted_pKey_pA_data rfl h s rfl rfl)

theorem ctrTransform_eq (cb : Block) (h : x.length ≤ 2 ^ 61 - 1) :
    ctrTransform x k cb s = callOf (apiCtrTransform .w32 x k cb) :=
  callResult_transact (i := .ctrxfrm) hphase rfl (admitted_pKey_pA_data rfl h s rfl rfl)

variable {a : Bytes} (haad : a.length ≤ 2 ^ 61 - 1)
include haad

theorem gcmSeal_eq (n : Bytes) (h : x.length ≤ 2 ^ 61 - 1) :
    gcmSeal x k a n s = (callOf (apiGcmEncrypt x k n a)).mapOut (n ++ ·) :=
  congrArg (CallResult.mapOut _) <|
    callResult_transact (i := .gcmenc) hphase rfl (admitted_pKey_pNonce_aad_data rfl h s rfl rfl haad)

theorem gcmOpen_eq (h : (x.drop 12).length ≤ 2 ^ 61 - 1) :
    gcmOpen x k a s = callOf (apiGcmDecrypt (x.drop 12) k (x.take 12) a) :=
  callResult_transact (i := .gcmdec) hphase rfl (admitted_pKey_pNonce_aad_data rfl h s rfl rfl haad)

end

/-! ### The functions undo each other -/

theorem withKey_of_length {k : Bytes} (h : k.length = 16) (f : Schedule → ApiResult) :
    withKey k f = f (keyExpand (blockOf k)) := if_pos h

theorem withNonce_of_length {n : Bytes} (h : n.length = 12) (r : ApiResult) : withNonce n r = r := if_pos h

theorem apiCbcEncrypt_of_length {k : Bytes} (hl : k.length = 16) (p : Bytes) (iv : Block) :
    apiCbcEncrypt p k iv = .ok (cbcEncFrom (keyExpand (blockOf k)) iv (chunks (padBytes 16 p))) :=
  withKey_of_length hl _

theorem apiCbcDecrypt_cbcEncFrom {k : Bytes} (hl : k.length = 16) (p : Bytes) (iv : Block) :
    apiCbcDecrypt (cbcEncFrom (keyExpand (blockOf k)) iv (chunks (padBytes 16 p))) k iv = .ok p := by
  rw [apiCbcDecrypt, length_cbcEncFrom_padBytes, if_neg (by omega), withKey_of_length hl,
    cbcDecFrom_cbcEncFrom_padBytes, apiUnpad_of_some (unpadBytes_padBytes (by decide) (by decide) p)]

/-- What GCM sends for a message: the masked message and the tag over it (30_encoding.md R91). -/
def gcmCiphertext (rk : Schedule) (n a p : Bytes) : Bytes :=
  gcmStream rk n p ++ (gcmTag rk n a (gcmStream rk n p)).toList

@[simp] theorem length_gcmCiphertext (rk : Schedule) (n a p : Bytes) :
    (gcmCiphertext rk n a p).length = p.length + 16 := by
  simp [gcmCiphertext]

section
variable {k n p : Bytes} (hl : k.length = 16) (hnl : n.length = 12) (hp : nchunks p.length ≤ 2 ^ 32) (a : Bytes)
include hl hnl hp

theorem apiGcmEncrypt_of_length : apiGcmEncrypt p k n a = .ok (gcmCiphertext (keyExpand (blockOf k)) n a p) := by
  rw [apiGcmEncrypt, withKey_of_length hl, withNonce_of_length hnl, counterOverflows_eq_false hp]
  rfl

theorem apiGcmDecrypt_gcmCiphertext :
    apiGcmDecrypt (gcmCiphertext (keyExpand (blockOf k)) n a p) k n a = .ok p := by
  rw [apiGcmDecrypt, length_gcmCiphertext, if_neg (Nat.not_lt.2 (Nat.le_add_left ..)), withKey_of_length hl,
    withNonce_of_length hnl, gcmCiphertext, tagPart_append_toList, ciphertextPart_append_toList, if_pos rfl,
    length_gcmStream, counterOverflows_eq_false hp, gcmStream_gcmStream]
  rfl

end

/-! ### Sealed containers -/

theorem exists_cbcSeal {p k : Bytes} {iv : Block} {s s' : State} (hl : k.length = 16)
    (hp : p.length + 16 ≤ 2 ^ 61 - 1) (hs : s.PHASE = .idle) (hs' : s'.PHASE = .idle) :
    ∃ x, cbcSeal p k iv s = .ok x ∧ x.length = 16 + 16 * (p.length / 16 + 1) ∧ cbcOpen x k s' = .ok p := by
  refine ⟨iv.toList ++ cbcEncFrom (keyExpand (blockOf k)) iv (chunks (padBytes 16 p)), ?sealed, ?length, ?opened⟩
  case sealed =>
    rw [cbcSeal_eq hs iv (by omega), apiCbcEncrypt_of_length hl]
    rfl
  case length => rw [List.length_append, Vector.length_toList, length_cbcEncFrom_padBytes]
  case opened =>
    rw [cbcOpen_eq hs' ?fits, List.drop_left' iv.length_toList, List.take_left' iv.length_toList, blockOf_toList,
      apiCbcDecrypt_cbcEncFrom hl]
    · rfl
    · rw [List.drop_left' iv.length_toList, length_cbcEncFrom_padBytes]
      omega

theorem exists_gcmSeal {p k a n : Bytes} {s s' : State} (hl : k.length = 16) (hnl : n.length = 12)
    (haad : a.length ≤ 2 ^ 61 - 1) (hp : nchunks p.length ≤ 2 ^ 32 - 2) (hs : s.PHASE = .idle)
    (hs' : s'.PHASE = .idle) :
    ∃ x, gcmSeal p k a n s = .ok x ∧ x.length = 28 + p.length ∧ gcmOpen x k a s' = .ok p := by
  have hchunks : nchunks p.length ≤ 2 ^ 32 := hp.trans (by decide)
  have hlen : p.length ≤ 2 ^ 36 := nchunks_le_iff.1 hchunks
  refine ⟨n ++ gcmCiphertext (keyExpand (blockOf k)) n a p, ?sealed, ?length, ?opened⟩
  case sealed =>
    rw [gcmSeal_eq hs haad n (by omega), apiGcmEncrypt_of_length hl hnl hchunks]
    rfl
  case length =>
    rw [List.length_append, length_gcmCiphertext, hnl]
    omega
  case opened =>
    rw [gcmOpen_eq hs' haad ?fits, List.drop_left' hnl, List.take_left' hnl,
      apiGcmDecrypt_gcmCiphertext hl hnl hchunks]
    · rfl
    · rw [List.drop_left' hnl, length_gcmCiphertext]
      omega

/-- Settles O60: each call is an admitted command, which answers as its operation's function, and the opening function
undoes the sealing one. -/
theorem sealedContainersOpen : Obligations.SealedContainersOpen := by
  refine ⟨fun x k iv s hphase hx => ?blockModes, fun x k a n s hphase hx haad => ?gcm,
    fun p k iv s s' => exists_cbcSeal, fun p k a n s s' => exists_gcmSeal⟩
  case blockModes =>
    have hdrop : (x.drop 16).length ≤ 2 ^ 61 - 1 := (List.drop_sublist 16 x).length_le.trans hx
    exact ⟨cbcSeal_eq hphase iv hx, fun _ => cbcOpen_eq hphase hdrop, ctrTransform_eq hphase iv hx,
      ctrTransform_eq hphase iv hx⟩
  case gcm =>
    have hdrop : (x.drop 12).length ≤ 2 ^ 61 - 1 := (List.drop_sublist 12 x).length_le.trans hx
    exact ⟨gcmSeal_eq hphase haad n hx, gcmOpen_eq hphase haad hdrop⟩

end Sys2Proof.Machine
end
